-- ==== Sys2Proof/Word.lean ====
section
/-! DEFINITION. The word types of the GRC (R7): bytes of the buffers, 32-bit command words and window words,
64-bit operand and result registers. -/

namespace Sys2Proof

/-- A byte of IBUF or OBUF, and a pixel of the line buffer (R7, R50). -/
abbrev Byte := BitVec 8

/-- A command word or one word of the host's register window (R44, R62). -/
abbrev Word32 := BitVec 32

/-- The operand register OPD, the result register RES and the operand X (R23, R24, R64). -/
abbrev Word64 := BitVec 64

end Sys2Proof
end

