-- ==== Sys2Proof/Syntax.lean ====
section
/-! DEFINITION. The commands of the GRC, one constructor per row of the opcode map R68, with the fields the row's
format leaves free (R63), and the actions by which the host and the platform drive the core (R21, R44, R51, R52, R139). -/

namespace Sys2Proof

/-- The R field, w[31]: where the operand X comes from (R64). -/
inductive OperandSource where
  /-- R = 0: X is OPD. -/
  | opd
  /-- R = 1: X is RES. -/
  | res
deriving DecidableEq, Repr

/-- The CH field, w[16]: an audio history channel (R14, R67). -/
inductive Channel where
  | ch0
  | ch1
deriving DecidableEq, Repr

/-- A command (R21, R68). `f` is the F field of R66, kept as its seven bits: a value outside R66's legal set is still a
legal word and raises InvalidParameter when it runs. `r` is the R field and `ch` the CH field. -/
inductive Instr where
  | nop
  | srst
  | wopen
  | wbit (r : OperandSource)
  | wbits (f : BitVec 7) (r : OperandSource)
  | wclose
  | ropen (r : OperandSource)
  | rbit
  | rbits (f : BitVec 7)
  | gsetm (f : BitVec 7) (r : OperandSource)
  | genc (r : OperandSource)
  | gdec
  | gencs (r : OperandSource)
  | gdecs
  | fold (r : OperandSource)
  | unfold (r : OperandSource)
  | asetord (f : BitVec 7)
  | ahclr
  | apred (ch : Channel)
  | aenc (ch : Channel) (r : OperandSource)
  | adec (ch : Channel) (r : OperandSource)
  | msfwd (r : OperandSource)
  | msinv (r : OperandSource)
  | isetp (f : BitVec 7)
  | isetw (r : OperandSource)
  | ipred (r : OperandSource)
  | ienc (r : OperandSource)
  | idec (r : OperandSource)
  | mclr
  | macc (r : OperandSource)
  | mcalc (r : OperandSource)
deriving DecidableEq, Repr

/-- What the host or the platform does to the core between commands (R6, R21). A write of CMD is a `writeReg` at
offset 0x004 and runs a command. There is no action that reads IBUF and none that writes OBUF (R51, R52, D39). -/
inductive HostAction where
  /-- A write to the register window: the width of the access in bits, the byte offset and the data (R44, R45). -/
  | writeReg (bits : Nat) (offset : BitVec 12) (data : Word32)
  /-- A read of the register window: the width of the access in bits and the byte offset (R44, R45). -/
  | readReg (bits : Nat) (offset : BitVec 12)
  /-- A write of one byte of IBUF (R51). -/
  | writeIbuf (index : BitVec 32) (value : Byte)
  /-- A read of one byte of OBUF (R52). -/
  | readObuf (index : BitVec 32)
  /-- The platform's hardware-reset signal (R139). -/
  | hardReset
deriving DecidableEq, Repr

end Sys2Proof
end

