-- ==== Sys2Proof/Decode.lean ====
section
/-! DEFINITION. The command word (R62), its formats (R63), the opcode map (R68), the decoder and its rejections by name
(R69), and the encoder, written from the same tables. -/

namespace Sys2Proof

/-- The six command formats of R63. -/
inductive Format where
  | Z
  | O
  | FO
  | F
  | C
  | CO
deriving DecidableEq, Repr

/-- The bits of a word that must match the row, by format (R63). -/
def Format.mask : Format → Word32
  | .Z => 0xFFFFFFFF#32
  | .O => 0x7FFFFFFF#32
  | .FO => 0x7FFF80FF#32
  | .F => 0xFFFF80FF#32
  | .C => 0xFFFEFFFF#32
  | .CO => 0x7FFEFFFF#32

/-- OP, w[7:0] (R62). -/
def opField (w : Word32) : BitVec 8 := w.extractLsb' 0 8

/-- F, w[14:8] (R62). -/
def fField (w : Word32) : BitVec 7 := w.extractLsb' 8 7

/-- CH, w[16] (R62, R67). -/
def chField (w : Word32) : Channel := if w.getLsbD 16 then .ch1 else .ch0

/-- R, w[31] (R62, R64). -/
def rField (w : Word32) : OperandSource := if w.getLsbD 31 then .res else .opd

/-- One row of the opcode map R68: the opcode, the format, and the command a word of the row stands for. -/
structure OpcodeRow where
  mnemonic : String
  opcode : BitVec 8
  format : Format
  build : Word32 → Instr

/-- The row's match value of R68: the word with every free field 0. -/
def OpcodeRow.matchWord (row : OpcodeRow) : Word32 := row.opcode.zeroExtend 32

/-- R63: a word selects the row when (w AND mask) = match. -/
def OpcodeRow.selects (row : OpcodeRow) (w : Word32) : Bool := w &&& row.format.mask == row.matchWord

/-- Control commands and the bit stream (R68, opcodes 0x00-0x1F). -/
def opcodeMapStream : List OpcodeRow :=
  [ ⟨"NOP", 0x00, .Z, fun _ => .nop⟩,
    ⟨"SRST", 0x01, .Z, fun _ => .srst⟩,
    ⟨"WOPEN", 0x10, .Z, fun _ => .wopen⟩,
    ⟨"WBIT", 0x11, .O, fun w => .wbit (rField w)⟩,
    ⟨"WBITS", 0x12, .FO, fun w => .wbits (fField w) (rField w)⟩,
    ⟨"WCLOSE", 0x13, .Z, fun _ => .wclose⟩,
    ⟨"ROPEN", 0x18, .O, fun w => .ropen (rField w)⟩,
    ⟨"RBIT", 0x19, .Z, fun _ => .rbit⟩,
    ⟨"RBITS", 0x1A, .F, fun w => .rbits (fField w)⟩ ]

/-- The Golomb coder and the fold (R68, opcodes 0x20-0x2F). -/
def opcodeMapGolomb : List OpcodeRow :=
  [ ⟨"GSETM", 0x20, .FO, fun w => .gsetm (fField w) (rField w)⟩,
    ⟨"GENC", 0x21, .O, fun w => .genc (rField w)⟩,
    ⟨"GDEC", 0x22, .Z, fun _ => .gdec⟩,
    ⟨"GENCS", 0x23, .O, fun w => .gencs (rField w)⟩,
    ⟨"GDECS", 0x24, .Z, fun _ => .gdecs⟩,
    ⟨"FOLD", 0x25, .O, fun w => .fold (rField w)⟩,
    ⟨"UNFOLD", 0x26, .O, fun w => .unfold (rField w)⟩ ]

/-- The audio predictor (R68, opcodes 0x30-0x3F). -/
def opcodeMapAudio : List OpcodeRow :=
  [ ⟨"ASETORD", 0x30, .F, fun w => .asetord (fField w)⟩,
    ⟨"AHCLR", 0x31, .Z, fun _ => .ahclr⟩,
    ⟨"APRED", 0x32, .C, fun w => .apred (chField w)⟩,
    ⟨"AENC", 0x33, .CO, fun w => .aenc (chField w) (rField w)⟩,
    ⟨"ADEC", 0x34, .CO, fun w => .adec (chField w) (rField w)⟩,
    ⟨"MSFWD", 0x35, .O, fun w => .msfwd (rField w)⟩,
    ⟨"MSINV", 0x36, .O, fun w => .msinv (rField w)⟩ ]

/-- The image predictor and the block parameter (R68, opcodes 0x40-0x5F). -/
def opcodeMapImage : List OpcodeRow :=
  [ ⟨"ISETP", 0x40, .F, fun w => .isetp (fField w)⟩,
    ⟨"ISETW", 0x41, .O, fun w => .isetw (rField w)⟩,
    ⟨"IPRED", 0x42, .O, fun w => .ipred (rField w)⟩,
    ⟨"IENC", 0x43, .O, fun w => .ienc (rField w)⟩,
    ⟨"IDEC", 0x44, .O, fun w => .idec (rField w)⟩,
    ⟨"MCLR", 0x50, .Z, fun _ => .mclr⟩,
    ⟨"MACC", 0x51, .O, fun w => .macc (rField w)⟩,
    ⟨"MCALC", 0x52, .O, fun w => .mcalc (rField w)⟩ ]

/-- The opcode map R68, all 31 rows. -/
def opcodeMap : List OpcodeRow := opcodeMapStream ++ opcodeMapGolomb ++ opcodeMapAudio ++ opcodeMapImage

/-- The row of an opcode, if R68 assigns it. -/
def rowOf (op : BitVec 8) : Option OpcodeRow := opcodeMap.find? (fun row => row.opcode == op)

/-- Why a word is no command (R69, R70). -/
inductive DecodeError where
  /-- The opcode is in no row of R68: reserved, or in the custom space 0xE0-0xFF (R70). -/
  | reservedOpcode (op : BitVec 8)
  /-- w[15] or a bit of w[30:17] is 1 (R62). -/
  | reservedBits
  /-- F, CH or R is not 0 in a format that does not use it (R63). -/
  | unusedField
deriving DecidableEq, Repr

/-- The reserved bits w[15] and w[30:17] (R62). -/
def reservedMask : Word32 := 0x7FFE8000#32

/-- The decoder (R63, R68, R69). It knows nothing of HAS_MIDSIDE: MSFWD and MSINV decode always, and their meanings raise
IllegalCommand where the unit is absent (R69). -/
def decode (w : Word32) : Except DecodeError Instr :=
  match rowOf (opField w) with
  | none => .error (.reservedOpcode (opField w))
  | some row =>
    if row.selects w then .ok (row.build w)
    else if w &&& reservedMask ≠ 0 then .error .reservedBits
    else .error .unusedField

/-! ## The encoder -/

/-- The R bit of an operand source (R64). -/
def OperandSource.bit : OperandSource → BitVec 1
  | .opd => 0
  | .res => 1

/-- The CH bit of a channel (R67). -/
def Channel.bit : Channel → BitVec 1
  | .ch0 => 0
  | .ch1 => 1

/-- The one layout of R62, fields from bit 31 down: R, 14 zero bits, CH, a zero bit, F, OP. -/
def commandWord (op : BitVec 8) (f : BitVec 7) (ch : BitVec 1) (r : BitVec 1) : Word32 :=
  (r ++ 0#14 ++ ch ++ 0#1 ++ f ++ op).cast (by decide)

/-- The command word of a command (R62, R63, R68): a field its format does not use is 0. -/
def encode : Instr → Word32
  | .nop => commandWord 0x00 0 0 0
  | .srst => commandWord 0x01 0 0 0
  | .wopen => commandWord 0x10 0 0 0
  | .wbit r => commandWord 0x11 0 0 r.bit
  | .wbits f r => commandWord 0x12 f 0 r.bit
  | .wclose => commandWord 0x13 0 0 0
  | .ropen r => commandWord 0x18 0 0 r.bit
  | .rbit => commandWord 0x19 0 0 0
  | .rbits f => commandWord 0x1A f 0 0
  | .gsetm f r => commandWord 0x20 f 0 r.bit
  | .genc r => commandWord 0x21 0 0 r.bit
  | .gdec => commandWord 0x22 0 0 0
  | .gencs r => commandWord 0x23 0 0 r.bit
  | .gdecs => commandWord 0x24 0 0 0
  | .fold r => commandWord 0x25 0 0 r.bit
  | .unfold r => commandWord 0x26 0 0 r.bit
  | .asetord f => commandWord 0x30 f 0 0
  | .ahclr => commandWord 0x31 0 0 0
  | .apred ch => commandWord 0x32 0 ch.bit 0
  | .aenc ch r => commandWord 0x33 0 ch.bit r.bit
  | .adec ch r => commandWord 0x34 0 ch.bit r.bit
  | .msfwd r => commandWord 0x35 0 0 r.bit
  | .msinv r => commandWord 0x36 0 0 r.bit
  | .isetp f => commandWord 0x40 f 0 0
  | .isetw r => commandWord 0x41 0 0 r.bit
  | .ipred r => commandWord 0x42 0 0 r.bit
  | .ienc r => commandWord 0x43 0 0 r.bit
  | .idec r => commandWord 0x44 0 0 r.bit
  | .mclr => commandWord 0x50 0 0 0
  | .macc r => commandWord 0x51 0 0 r.bit
  | .mcalc r => commandWord 0x52 0 0 r.bit

/-- The host's question: the command the decoder reads from the low `nbits` bits of `w`, every bit above them 0. A GRC word
is written to CMD whole, as one 32-bit number (R28), so no byte order enters. -/
def decodeTableWord (nbits w : Nat) : Option Instr :=
  match decode (BitVec.ofNat 32 (w % 2 ^ nbits)) with
  | .ok i => some i
  | .error _ => none

end Sys2Proof
end

