-- ==== Sys2Proof/Config.lean ====
section
/-! DEFINITION. What is fixed when a GRC is built (R8-R13, R57), and the values the spec leaves unspecified (R48, R52,
R126), each an opaque constant, so that no proof can see what it is. -/

namespace Sys2Proof.Config

/-- FORCE_T_FROM (R9): from which b the cutoff t is computed when the image-mode force applies. -/
inductive ForceTFrom where
  | forcedB
  | unforcedB
deriving DecidableEq, Repr

/-- MEAN_ROUNDING (R10): whether meanAbs is an exact rational or rounded down. -/
inductive MeanRounding where
  | exact
  | floor
deriving DecidableEq, Repr

/-- The parameters of one GRC instance. They are fixed for its life and no command or host access changes them (R49). -/
structure Params where
  /-- QCAP (R8), the decoder's quotient cap. -/
  qcap : Nat
  /-- FORCE_T_FROM (R9). -/
  forceTFrom : ForceTFrom
  /-- MEAN_ROUNDING (R10). -/
  meanRounding : MeanRounding
  /-- IBUF_CAP (R11), bytes. -/
  ibufCap : Nat
  /-- OBUF_CAP (R11), bytes. -/
  obufCap : Nat
  /-- IMG_MAX_W (R12), pixels. -/
  imgMaxW : Nat
  /-- HAS_MIDSIDE (R13). -/
  hasMidside : Bool
  /-- REG_BASE (R57): where the platform places the register window. -/
  regBase : Nat
  /-- IBUF_BASE (R57): where the platform places IBUF. -/
  ibufBase : Nat
  /-- OBUF_BASE (R57): where the platform places OBUF. -/
  obufBase : Nat
deriving DecidableEq, Repr

/-- A size or cap of R8, R11 or R12 lies in 1 .. 2^32 − 1. -/
def inRange32 (n : Nat) : Bool := decide (1 ≤ n ∧ n ≤ 2 ^ 32 - 1)

/-- The legal ranges of R8, R11 and R12. -/
def Params.legal (p : Params) : Bool :=
  inRange32 p.qcap && inRange32 p.ibufCap && inRange32 p.obufCap && inRange32 p.imgMaxW

/-- The instance `State.reset` describes: the defaults of R8, R9, R10 and R13. DESIGN CHOICE (entry 2): IBUF_CAP,
OBUF_CAP, IMG_MAX_W and the three base addresses have no default in the spec; 4096 is the size its test vectors use. -/
def Params.default : Params where
  qcap := 100000
  forceTFrom := .forcedB
  meanRounding := .exact
  ibufCap := 4096
  obufCap := 4096
  imgMaxW := 4096
  hasMidside := true
  regBase := 0
  ibufBase := 0
  obufBase := 0

/-- FREE VALUE (entry 4): the byte that IBUF[i] holds after the n-th hardware reset (R48: unspecified). -/
opaque ibufPowerOn (n i : Nat) : Byte

/-- FREE VALUE (entry 4): the pixel that LB[x] holds after the n-th hardware reset (R48: unspecified). -/
opaque lbPowerOn (n x : Nat) : Byte

/-- FREE VALUE (entry 6): the byte OBUF[i] holds below OLEN after the d-th imprecise error (R126). -/
opaque drawnObuf (d i : Nat) : Byte

/-- FREE VALUE (entry 6): WACC after the d-th imprecise IO error (R126). -/
opaque drawnWacc (d : Nat) : Byte

/-- FREE VALUE (entry 6): WCNT after the d-th imprecise IO error, taken modulo 9 into 0..8 (R126). -/
opaque drawnWcnt (d : Nat) : Nat

/-- FREE VALUE (entry 6): how far OLEN lies above its old value after the d-th imprecise IO error, taken modulo the
number of values R126 allows. -/
opaque drawnOlen (d : Nat) : Nat

/-- FREE VALUE (entry 6): how far RPOS lies above its old value after the d-th TruncatedCode or CorruptCode, taken modulo
the number of values R126 allows. -/
opaque drawnRpos (d : Nat) : Nat

/-- FREE VALUE (entry 11): the prediction for a mode id outside R106's table. No step from reset reaches such an id. -/
opaque unstatedPrediction (id : Nat) (a b c : Int) : Int

end Sys2Proof.Config
end

