-- ==== Sys2Proof/Machine/State.lean ====
section
/-! DEFINITION. The state of a GRC instance (R22), its reset value (R48, R139, R140), and the reasons a step can stop. -/

namespace Sys2Proof.Machine

/-- The contents of IBUF, OBUF or LB that are known: (index, byte) pairs, indexes strictly rising. An index that is not
listed holds a byte the spec leaves unspecified (R48, R52); it reads as no value, and whoever needs the byte draws a free
one (entry 4). -/
abbrev Memory := List Host.Cell

/-- The three history slots of one audio channel (R39): s[n−1], s[n−2], s[n−3]. -/
structure History where
  h0 : BitVec 16
  h1 : BitVec 16
  h2 : BitVec 16
deriving DecidableEq, Repr

/-- The architectural state (R22), the parameters of the instance, and the model's own bookkeeping. -/
structure State where
  /-- The parameters R8-R13 and R57. Not state of the GRC (R49): the machine's argument, which nothing writes (entry 2). -/
  params : Config.Params
  /-- OPD (R23). -/
  opd : Word64
  /-- RES (R24). -/
  res : Word64
  /-- STATUS.ERR (R29). -/
  err : BitVec 4
  /-- ERRCMD (R30). -/
  errcmd : Word32
  /-- GM (R31). -/
  gm : BitVec 32
  /-- GB, GPARAM[5:0] (R32). -/
  gb : BitVec 6
  /-- GT (R33). -/
  gt : BitVec 32
  /-- BFORCE, GPARAM[8] (R32). -/
  bforce : Bool
  /-- WACC (R34). -/
  wacc : BitVec 8
  /-- WCNT (R34). -/
  wcnt : BitVec 4
  /-- WCLOSED (R34). -/
  wclosed : Bool
  /-- OLEN (R35). -/
  olen : BitVec 32
  /-- OBUF (R52). -/
  obuf : Memory
  /-- ILEN (R36). -/
  ilen : BitVec 32
  /-- RPOS (R37). -/
  rpos : BitVec 35
  /-- IBUF (R51). -/
  ibuf : Memory
  /-- AORD (R38). -/
  aord : BitVec 2
  /-- HIST[0] (R39). -/
  hist0 : History
  /-- HIST[1] (R39). -/
  hist1 : History
  /-- IPID (R40). -/
  ipid : BitVec 4
  /-- IW (R41). -/
  iw : BitVec 32
  /-- IX (R41). -/
  ix : BitVec 32
  /-- IY (R41). -/
  iy : BitVec 32
  /-- CUL (R42). -/
  cul : BitVec 8
  /-- LB (R42). -/
  lb : Memory
  /-- MSUM (R43). -/
  msum : BitVec 64
  /-- MCNT (R43). -/
  mcnt : BitVec 32
  /-- The model's own: how many imprecise errors there have been, which keys the values R126 draws (entry 6). -/
  draws : Nat
  /-- The model's own: how many hardware resets there have been, which keys the unspecified contents of the buffers
  (entry 4). -/
  powerUps : Nat
  /-- The model's own: the actions the host is still to perform, the next one first (entry 1). -/
  pending : List HostAction
  /-- The model's own: what the last read by the host returned (entry 10). -/
  busData : Word32
deriving DecidableEq, Repr

/-- FREE VALUE (entry 5): the byte a read of OBUF[i] at or beyond OLEN returns (R52: unspecified), in the state `s`. -/
opaque obufBeyondOlen (s : State) (i : Nat) : Byte

/-- The reasons for which a step stops with a fault. There are none: the spec gives every command word, every host access
and every error an effect (R45, R51, R52, R69, R125), and a latched error is a next state (entry 3). Safe. -/
inductive Fault where
deriving DecidableEq, Repr

/-- The reasons for which a step is refused. -/
inductive Refusal where
  /-- Raised by an arm of `exec` for a command without a meaning. No arm raises it: all 31 commands are modelled. Safe. -/
  | notModelled (mnemonic : String)
deriving DecidableEq, Repr

/-- The outcome of a step. -/
abbrev Result := Host.Outcome State Fault Refusal

/-- The history of a channel after reset: all slots 0 (R39, R48). -/
def History.zero : History := ⟨0, 0, 0⟩

/-- The machine of parameters `p` right after a hardware reset (R48). -/
def State.resetWith (p : Config.Params) : State where
  params := p
  opd := 0
  res := 0
  err := 0
  errcmd := 0
  gm := 0
  gb := 0
  gt := 0
  bforce := false
  wacc := 0
  wcnt := 0
  wclosed := false
  olen := 0
  obuf := []
  ilen := 0
  rpos := 0
  ibuf := []
  aord := 0
  hist0 := History.zero
  hist1 := History.zero
  ipid := 0
  iw := 0
  ix := 0
  iy := 0
  cul := 0
  lb := []
  msum := 0
  mcnt := 0
  draws := 0
  powerUps := 0
  pending := []
  busData := 0

/-- The machine right after reset (R48), for the parameters of `Config.Params.default` (entry 2). -/
def State.reset : State := State.resetWith Config.Params.default

end Sys2Proof.Machine
end

