-- ==== Sys2Proof/Machine/Flags.lean ====
section
/-! DEFINITION. The flags: the fields of STATUS (R29, R46) and the other packed words of the register window (R27, R32,
R34, R37). REOF, GMV, IWV and MS hold no storage; they are derived. -/

namespace Sys2Proof.Machine

/-- REOF (R29): no bit of the input stream remains. -/
def State.reof (s : State) : Bool := s.rpos.toNat == 8 * s.ilen.toNat

/-- GMV (R29): a Golomb parameter is set. -/
def State.gmv (s : State) : Bool := s.gm != 0

/-- IWV (R29): an image width is set. -/
def State.iwv (s : State) : Bool := s.iw != 0

/-- STATUS (R29), fields from bit 31 down: 19 zeros, MS, IWV, GMV, REOF, WCLOSED, four zeros, ERR. -/
def State.statusWord (s : State) : Word32 :=
  (0#19 ++ BitVec.ofBool s.params.hasMidside ++ BitVec.ofBool s.iwv ++ BitVec.ofBool s.gmv ++ BitVec.ofBool s.reof
    ++ BitVec.ofBool s.wclosed ++ 0#4 ++ s.err).cast (by decide)

/-- ID (R27). -/
def State.idWord (s : State) : Word32 := if s.params.hasMidside then 0x4752434D#32 else 0x47524331#32

/-- GPARAM (R32): GB in [5:0], BFORCE in [8]. -/
def State.gparamWord (s : State) : Word32 := (0#23 ++ BitVec.ofBool s.bforce ++ 0#2 ++ s.gb).cast (by decide)

/-- WSTATE (R34): WACC in [7:0], WCNT in [11:8]. -/
def State.wstateWord (s : State) : Word32 := (0#20 ++ s.wcnt ++ s.wacc).cast (by decide)

end Sys2Proof.Machine
end

