-- ==== Sys2Proof/Machine/Operands.lean ====
section
/-! DEFINITION. The operand X (R64), every way a command reads it (R65), and the conversions of R17-R19. -/

namespace Sys2Proof.Machine

/-- The operand X (R64), from the values at the start of the command. -/
def State.operand (s : State) (r : OperandSource) : Word64 :=
  match r with
  | .opd => s.opd
  | .res => s.res

/-- Kind u64 (R65): X as an unsigned integer. -/
abbrev asU64 (x : Word64) : Nat := x.toNat

/-- Kind i64 (R65): sint64(X) of R17. -/
abbrev asI64 (x : Word64) : Int := x.toInt

/-- Kind bit (R65): X[0]. -/
abbrev asBit (x : Word64) : Bool := x.getLsbD 0

/-- Kind pixels (R65): a = X[7:0], b = X[15:8], c = X[23:16]. -/
def asPixels (x : Word64) : Byte × Byte × Byte := (x.extractLsb' 0 8, x.extractLsb' 8 8, x.extractLsb' 16 8)

/-- Kind pair (R65), the low half: sint16(X[15:0]). -/
def pairLo (x : Word64) : Int := (x.extractLsb' 0 16).toInt

/-- Kind pair (R65), the high half: sint16(X[31:16]). -/
def pairHi (x : Word64) : Int := (x.extractLsb' 16 16).toInt

/-- bits64(v) of R17: v mod 2^64. -/
def bits64 (v : Int) : Word64 := BitVec.ofInt 64 v

/-- The 16-bit pattern of v, v mod 2^16. -/
def bits16 (v : Int) : BitVec 16 := BitVec.ofInt 16 v

/-- wrap16(v) of R17: the i16 value congruent to v modulo 2^16. -/
def wrap16 (v : Int) : Int := (bits16 v).toInt

/-- clamp(lo, hi, v) of R19. -/
def clampInt (lo hi v : Int) : Int := if v < lo then lo else if v > hi then hi else v

/-- tdiv(x, y) of R18: division truncating toward zero. -/
abbrev tdiv (x y : Int) : Int := Int.tdiv x y

/-- v >> 1 of R18 on a signed value: ⌊v / 2⌋. -/
def halfFloor (v : Int) : Int := Int.fdiv v 2

/-- The search of `ceilLog2`: the least b' ≥ b with 2^b' ≥ m, if it is at most b + fuel. -/
def ceilLog2From (m : Nat) : Nat → Nat → Nat
  | 0, b => b
  | fuel + 1, b => if m ≤ 2 ^ b then b else ceilLog2From m fuel (b + 1)

/-- ceil_log2(m) of R19: the least b with 2^b ≥ m. -/
def ceilLog2 (m : Nat) : Nat := ceilLog2From m m 0

/-- {hi, lo} of two i16 values as the low 32 bits of a 64-bit word, the rest 0 (R103, R104). -/
def packPair (hi lo : Int) : Word64 := ((bits16 hi) ++ (bits16 lo)).zeroExtend 64

end Sys2Proof.Machine
end

