-- ==== Sys2Proof/Machine/Ops.lean ====
section
/-! DEFINITION. The shared operations: the byte stores, raising an error (R125, R126) and running a command under the
latch (R72, R127), the bit writer and the bit reader (R75, R76), soft and hardware reset (R48, R121, R139), and the
register window (R44, R45). -/

namespace Sys2Proof.Machine

/-! ## The byte stores -/

/-- What is known of the byte at index `i`; `none` where the spec leaves it unspecified (entry 4). This is the one
definition of what an unlisted index reads as. -/
def Memory.byteAt? : Memory → Nat → Option Byte
  | [], _ => none
  | (a, v) :: m, i => if a = i then some v else Memory.byteAt? m i

/-- The store after a write of `v` at index `i`. -/
def Memory.setByte : Memory → Nat → Byte → Memory
  | [], i, v => [(i, v)]
  | (a, w) :: m, i, v =>
    if i < a then (i, v) :: (a, w) :: m
    else if i = a then (i, v) :: m
    else (a, w) :: Memory.setByte m i v

/-- The store after everything at index `i` and above has become unspecified. -/
def Memory.forgetFrom (m : Memory) (i : Nat) : Memory := m.filter (fun c => decide (c.1 < i))

/-- The canonical form: indexes strictly rising. No entry can equal what an unlisted index reads as, which is no value. -/
def Memory.wf : Memory → Bool
  | [] => true
  | [_] => true
  | (a, _) :: (b, w) :: m => decide (a < b) && Memory.wf ((b, w) :: m)

/-- IBUF[i] (R51); where the host has not written it, the free byte that has stood there since hardware reset (R48). -/
def State.ibufByte (s : State) (i : Nat) : Byte := (s.ibuf.byteAt? i).getD (Config.ibufPowerOn s.powerUps i)

/-- LB[x] (R42); where no pixel was stored, the free byte that has stood there since hardware reset (R48). -/
def State.lbAt (s : State) (x : Nat) : Byte := (s.lb.byteAt? x).getD (Config.lbPowerOn s.powerUps x)

/-! ## Errors -/

/-- The errors the GRC raises (R122). Codes 2, 6 and 10-15 are never raised (R131). -/
inductive ErrorKind where
  | io
  | invalidParameter
  | truncatedCode
  | corruptCode
  | endOfStream
  | closedStream
  | illegalCommand
deriving DecidableEq, Repr

/-- The error codes of R122. -/
def ErrorKind.code : ErrorKind → BitVec 4
  | .io => 1
  | .invalidParameter => 3
  | .truncatedCode => 4
  | .corruptCode => 5
  | .endOfStream => 7
  | .closedStream => 8
  | .illegalCommand => 9

/-- How a command's rule ends: with its effects done, or raising an error in the state it leaves (R125). -/
inductive Ending where
  | done (s : State)
  | raised (e : ErrorKind) (s : State)

/-- `raise e` (R125): ERR gets the code and ERRCMD the command word. -/
def State.latch (s : State) (e : ErrorKind) (w : Word32) : State := { s with err := e.code, errcmd := w }

/-- An error is latched (R127). -/
def State.latched (s : State) : Bool := s.err != 0

/-- R72 and R127 for the command `i` whose rule ends as `ending`: with an error latched the word is dropped; else the
rule's effects stand, or its error is latched with the command word. -/
def runCommand (i : Instr) (s : State) (ending : Ending) : Result :=
  if s.latched then .next s
  else match ending with
    | .done t => .next t
    | .raised e t => .next (t.latch e (encode i))

/-- R126 after IO from PutBit: WACC, WCNT in 0..8, OLEN from its old value to OBUF_CAP, and the OBUF bytes from the old
OLEN on are unspecified. `s` is the state before the command (entry 6). -/
def State.drawWriter (s : State) : State :=
  { s with
    wacc := Config.drawnWacc s.draws
    wcnt := BitVec.ofNat 4 (Config.drawnWcnt s.draws % 9)
    olen := BitVec.ofNat 32 (s.olen.toNat + Config.drawnOlen s.draws % (s.params.obufCap - s.olen.toNat + 1))
    obuf := s.obuf.forgetFrom s.olen.toNat
    draws := s.draws + 1 }

/-- R126 after TruncatedCode or CorruptCode: RPOS is unspecified from its old value to 8·ILEN. `s` is the state before the
command (entry 6). -/
def State.drawCursor (s : State) : State :=
  { s with
    rpos := BitVec.ofNat 35 (s.rpos.toNat + Config.drawnRpos s.draws % (8 * s.ilen.toNat - s.rpos.toNat + 1))
    draws := s.draws + 1 }

/-! ## The bit writer -/

/-- PutBit(b) (R75); `none` where it raises IO. -/
def putBit (b : Bool) (s : State) : Option State :=
  let acc : BitVec 8 := BitVec.ofNat 8 (2 * s.wacc.toNat + b.toNat)
  if s.wcnt.toNat + 1 = 8 then
    if s.olen.toNat = s.params.obufCap then none
    else some { s with
      obuf := s.obuf.setByte s.olen.toNat acc
      olen := BitVec.ofNat 32 (s.olen.toNat + 1)
      wacc := 0
      wcnt := 0 }
  else some { s with wacc := acc, wcnt := BitVec.ofNat 4 (s.wcnt.toNat + 1) }

/-- PutBit of bits n−1 down to 0 of `v` (R53, R79, R88). -/
def putNat : Nat → Nat → State → Option State
  | 0, _, s => some s
  | n + 1, v, s => (putBit (v.testBit n) s).bind (putNat n v)

/-- `repeat q times: PutBit(0)` (R88). -/
def putZeros : Nat → State → Option State
  | 0, s => some s
  | q + 1, s => (putBit false s).bind (putZeros q)

/-- R78, R79, R88: with the writer closed, ClosedStream and no effect; else the bits are put, and IO from PutBit leaves
the state R126 allows. `put` is the sequence of PutBits, run on `s`. -/
def writeBits (s : State) (put : State → Option State) : Ending :=
  if s.wclosed then .raised .closedStream s
  else match put s with
    | some t => .done t
    | none => .raised .io s.drawWriter

/-! ## The bit reader -/

/-- The bit at stream position `p` (R16): IBUF[p >> 3][7 − (p & 7)]. -/
def State.inputBit (s : State) (p : Nat) : Bool := (s.ibufByte (p / 8)).getLsbD (7 - p % 8)

/-- GetBit() (R76); `none` is EOF. -/
def getBit (s : State) : Option (Bool × State) :=
  if s.rpos.toNat = 8 * s.ilen.toNat then none
  else some (s.inputBit s.rpos.toNat, { s with rpos := BitVec.ofNat 35 (s.rpos.toNat + 1) })

/-- GetBit() where an EOF raises `e` (R76). -/
def getBitOr (e : ErrorKind) (s : State) : Except ErrorKind (Bool × State) :=
  match getBit s with
  | none => .error e
  | some r => .ok r

/-- `repeat n times: v <- 2·v + GetBit()` (R83, R89), an EOF raising `e`. -/
def getNat (e : ErrorKind) : Nat → Nat → State → Except ErrorKind (Nat × State)
  | 0, v, s => .ok (v, s)
  | n + 1, v, s => (getBitOr e s).bind (fun r => getNat e n (2 * v + r.1.toNat) r.2)

/-! ## Reset -/

/-- SRST's effect (R121): every element at its reset value, but for the buffers, LB, the parameters and the model's own
fields. -/
def State.softReset (s : State) : State :=
  { State.resetWith s.params with
    obuf := s.obuf
    ibuf := s.ibuf
    lb := s.lb
    draws := s.draws
    powerUps := s.powerUps
    pending := s.pending
    busData := s.busData }

/-- Hardware reset (R48, R139): as SRST, and the contents of IBUF, OBUF and LB are unspecified anew. -/
def State.hardReset (s : State) : State :=
  { s.softReset with
    obuf := []
    ibuf := []
    lb := []
    powerUps := s.powerUps + 1 }

/-! ## The register window -/

/-- The history of a channel (R39). -/
def State.hist (s : State) (ch : Channel) : History :=
  match ch with
  | .ch0 => s.hist0
  | .ch1 => s.hist1

/-- The state with a channel's history replaced; the other channel's is not touched (R97). -/
def State.setHist (s : State) (ch : Channel) (h : History) : State :=
  match ch with
  | .ch0 => { s with hist0 := h }
  | .ch1 => { s with hist1 := h }

/-- The content of the window at a word offset (R44): the table row by row; CMD reads 0 (R28), an offset not in the table
reads 0 (R45). -/
def State.windowWord (s : State) (offset : Nat) : Word32 :=
  match offset with
  | 0x000 => s.idWord
  | 0x008 => s.opd.extractLsb' 0 32
  | 0x00C => s.opd.extractLsb' 32 32
  | 0x010 => s.res.extractLsb' 0 32
  | 0x014 => s.res.extractLsb' 32 32
  | 0x018 => s.statusWord
  | 0x01C => s.errcmd
  | 0x020 => s.gm
  | 0x024 => s.gparamWord
  | 0x028 => s.gt
  | 0x02C => s.wstateWord
  | 0x030 => s.olen
  | 0x034 => s.ilen
  | 0x038 => s.rpos.extractLsb' 0 32
  | 0x03C => (s.rpos.extractLsb' 32 3).zeroExtend 32
  | 0x040 => s.aord.zeroExtend 32
  | 0x044 => s.ipid.zeroExtend 32
  | 0x048 => s.iw
  | 0x04C => s.ix
  | 0x050 => s.iy
  | 0x054 => s.cul.zeroExtend 32
  | 0x058 => s.msum.extractLsb' 0 32
  | 0x05C => s.msum.extractLsb' 32 32
  | 0x060 => s.mcnt
  | 0x080 => s.hist0.h0.signExtend 32
  | 0x084 => s.hist0.h1.signExtend 32
  | 0x088 => s.hist0.h2.signExtend 32
  | 0x08C => s.hist1.h0.signExtend 32
  | 0x090 => s.hist1.h1.signExtend 32
  | 0x094 => s.hist1.h2.signExtend 32
  | _ => 0

/-- R45: an access is honoured when it is 32 bits wide and at an offset that is a multiple of 4. -/
def windowAccess (bits : Nat) (offset : BitVec 12) : Bool := bits == 32 && offset.toNat % 4 == 0

/-- A host read of the window (R44, R45). -/
def State.readWindow (s : State) (bits : Nat) (offset : BitVec 12) : Word32 :=
  if windowAccess bits offset then s.windowWord offset.toNat else 0

/-- A host write of OPD[31:0] (R23, R54). -/
def State.writeOpdLo (s : State) (v : Word32) : State := { s with opd := (s.opd.extractLsb' 32 32 ++ v).cast (by decide) }

/-- A host write of OPD[63:32] (R23, R54). -/
def State.writeOpdHi (s : State) (v : Word32) : State := { s with opd := (v ++ s.opd.extractLsb' 0 32).cast (by decide) }

/-- A host write of IBUF[i] (R51): ignored at or beyond IBUF_CAP. -/
def State.writeIbuf (s : State) (i : Nat) (v : Byte) : State :=
  if i < s.params.ibufCap then { s with ibuf := s.ibuf.setByte i v } else s

/-- What the host reads at OBUF[i] (R52): 0 at or beyond OBUF_CAP; below OLEN the byte written in the current stream, or
the one an imprecise error drew (R126, entry 6); at or beyond OLEN a free value that any part of the state may set, but for
the host's program and what it read before, so that a read has no effect on the next (R56, entry 5). -/
def State.obufByte (s : State) (i : Nat) : Byte :=
  if s.params.obufCap ≤ i then 0
  else if i < s.olen.toNat then (s.obuf.byteAt? i).getD (Config.drawnObuf s.draws i)
  else obufBeyondOlen { s with pending := [], busData := 0 } i

/-- A host read of OBUF[i] (R52): the byte goes to the model's `busData`, zero-extended, and nothing else changes (R56). -/
def State.readObuf (s : State) (i : Nat) : State := { s with busData := (s.obufByte i).zeroExtend 32 }

/-- The platform address of a window offset, of an IBUF index and of an OBUF index (R57). -/
def regAddress (p : Config.Params) (offset : BitVec 12) : Nat := p.regBase + offset.toNat
/-- The platform address of IBUF[i] (R57). -/
def ibufAddress (p : Config.Params) (i : Nat) : Nat := p.ibufBase + i
/-- The platform address of OBUF[i] (R57). -/
def obufAddress (p : Config.Params) (i : Nat) : Nat := p.obufBase + i

end Sys2Proof.Machine
end

