-- ==== Sys2Proof/Machine/Audio.lean ====
section
/-! DEFINITION. The audio predictor and the mid/side transform (42_audio_predictor.md). -/

namespace Sys2Proof.Machine

/-- The linear prediction p of R96, computed exactly, before the clamp. -/
def linearPrediction (k : Nat) (h : History) : Int :=
  match k with
  | 0 => 0
  | 1 => h.h0.toInt
  | 2 => 2 * h.h0.toInt - h.h1.toInt
  | _ => 3 * h.h0.toInt - 3 * h.h1.toInt + h.h2.toInt

/-- APredict(k, ch) (R96). AORD holds no order above 3 (R38). -/
def aPredict (k : BitVec 2) (h : History) : Int := clampInt (-32768) 32767 (linearPrediction k.toNat h)

/-- APush (R97) on one channel's history. -/
def History.push (h : History) (sample : Int) : History := ⟨bits16 sample, h.h0, h.h1⟩

/-- ASETORD k (R98). -/
def execAsetord (f : BitVec 7) (s : State) : Result :=
  runCommand (.asetord f) s
    (if f.toNat > 3 then .raised .invalidParameter s else .done { s with aord := BitVec.ofNat 2 f.toNat })

/-- AHCLR (R99). -/
def execAhclr (s : State) : Result :=
  runCommand .ahclr s (.done { s with hist0 := History.zero, hist1 := History.zero })

/-- APRED (R100). -/
def execApred (ch : Channel) (s : State) : Result :=
  runCommand (.apred ch) s (.done { s with res := bits64 (aPredict s.aord (s.hist ch)) })

/-- AENC (R101). -/
def execAenc (ch : Channel) (r : OperandSource) (s : State) : Result :=
  let x := asI64 (s.operand r)
  runCommand (.aenc ch r) s
    (if x < -32768 ∨ x > 32767 then .raised .invalidParameter s
     else .done { s.setHist ch ((s.hist ch).push x) with res := bits64 (x - aPredict s.aord (s.hist ch)) })

/-- ADEC (R102). -/
def execAdec (ch : Channel) (r : OperandSource) (s : State) : Result :=
  let x := wrap16 (aPredict s.aord (s.hist ch) + asI64 (s.operand r))
  runCommand (.adec ch r) s (.done { s.setHist ch ((s.hist ch).push x) with res := bits64 x })

/-- MSFWD's result from L and R (R103). -/
def midSide (left right : Int) : Word64 :=
  let side := wrap16 (left - right)
  packPair side (wrap16 (right + halfFloor side))

/-- MSINV's result from mid and side (R104). -/
def leftRight (mid side : Int) : Word64 :=
  let right := wrap16 (mid - halfFloor side)
  packPair right (wrap16 (right + side))

/-- MSFWD (R103); illegal where HAS_MIDSIDE = 0 (R69). -/
def execMsfwd (r : OperandSource) (s : State) : Result :=
  runCommand (.msfwd r) s
    (if s.params.hasMidside then .done { s with res := midSide (pairLo (s.operand r)) (pairHi (s.operand r)) }
     else .raised .illegalCommand s)

/-- MSINV (R104); illegal where HAS_MIDSIDE = 0 (R69). -/
def execMsinv (r : OperandSource) (s : State) : Result :=
  runCommand (.msinv r) s
    (if s.params.hasMidside then .done { s with res := leftRight (pairLo (s.operand r)) (pairHi (s.operand r)) }
     else .raised .illegalCommand s)

end Sys2Proof.Machine
end

