-- ==== Sys2Proof/Machine/Bitstream.lean ====
section
/-! DEFINITION. The bit-stream commands (40_bitstream.md). -/

namespace Sys2Proof.Machine

/-- WOPEN (R77). -/
def execWopen (s : State) : Result :=
  runCommand .wopen s (.done { s with olen := 0, wacc := 0, wcnt := 0, wclosed := false })

/-- WBIT (R78): writes X[0]. -/
def execWbit (r : OperandSource) (s : State) : Result :=
  runCommand (.wbit r) s (writeBits s (putBit (asBit (s.operand r))))

/-- WBITS n (R79): writes bits n−1 .. 0 of X. -/
def execWbits (f : BitVec 7) (r : OperandSource) (s : State) : Result :=
  runCommand (.wbits f r) s
    (if f.toNat < 1 ∨ f.toNat > 64 then .raised .invalidParameter s
     else writeBits s (putNat f.toNat (s.operand r).toNat))

/-- WCLOSE's rule (R80): the pending bits padded with zero bits, then the writer closed. IO is raised before any change. -/
def closeWriter (s : State) : Ending :=
  if s.wclosed then .done s
  else if s.wcnt.toNat > 0 then
    if s.olen.toNat = s.params.obufCap then .raised .io s
    else .done { s with
      obuf := s.obuf.setByte s.olen.toNat (BitVec.ofNat 8 (s.wacc.toNat * 2 ^ (8 - s.wcnt.toNat)))
      olen := BitVec.ofNat 32 (s.olen.toNat + 1)
      wacc := 0
      wcnt := 0
      wclosed := true }
  else .done { s with wclosed := true }

/-- WCLOSE (R80). -/
def execWclose (s : State) : Result := runCommand .wclose s (closeWriter s)

/-- ROPEN (R81): opens an input stream of X bytes. -/
def execRopen (r : OperandSource) (s : State) : Result :=
  runCommand (.ropen r) s
    (if asU64 (s.operand r) > s.params.ibufCap then .raised .invalidParameter s
     else .done { s with ilen := BitVec.ofNat 32 (asU64 (s.operand r)), rpos := 0 })

/-- RBIT (R82): reads one bit into RES. -/
def execRbit (s : State) : Result :=
  runCommand .rbit s
    (match getBitOr .endOfStream s with
     | .error e => .raised e s
     | .ok (b, t) => .done { t with res := BitVec.ofNat 64 b.toNat })

/-- RBITS n (R83): reads n bits into RES, most significant first. The check for the end of the stream comes before any bit
is consumed, so its EndOfStream is precise. -/
def execRbits (f : BitVec 7) (s : State) : Result :=
  runCommand (.rbits f) s
    (if f.toNat < 1 ∨ f.toNat > 64 then .raised .invalidParameter s
     else if (8 * s.ilen.toNat : Int) - s.rpos.toNat < f.toNat then .raised .endOfStream s
     else match getNat .endOfStream f.toNat 0 s with
       | .error e => .raised e s
       | .ok (v, t) => .done { t with res := BitVec.ofNat 64 v })

end Sys2Proof.Machine
end

