-- ==== Sys2Proof/Machine/BlockParam.lean ====
section
/-! DEFINITION. The block-adaptive parameter calculator (44_block_param.md). -/

namespace Sys2Proof.Machine

/-- The search for the least m that meets R115's criterion 2·S^m ≤ T^m, from `m` on, at most `fuel` steps; `sp` and `tp`
are S^m and T^m. Where none of the `fuel` values meets it, the value after them. -/
def searchParameter (S T : Nat) : Nat → Nat → Nat → Nat → Nat
  | 0, m, _, _ => m
  | fuel + 1, m, sp, tp => if 2 * sp ≤ tp then m else searchParameter S T fuel (m + 1) (sp * S) (tp * T)

/-- min(MRaw(S, N), maxm) of R115 and R118, for maxm ≥ 1. MRaw is the least m ≥ 1 with the criterion, so the search need
not go past maxm: this is the minimum, exactly (entry 12). -/
def blockParameter (rounding : Config.MeanRounding) (S N maxm : Nat) : Nat :=
  if N = 0 then 1
  else
    match rounding with
    | .exact => searchParameter S (S + N) (maxm - 1) 1 S (S + N)
    | .floor => searchParameter (S / N) (S / N + 1) (maxm - 1) 1 (S / N) (S / N + 1)

/-- MCLR (R116). -/
def execMclr (s : State) : Result := runCommand .mclr s (.done { s with msum := 0, mcnt := 0 })

/-- MACC (R117): both accumulators wrap. -/
def execMacc (r : OperandSource) (s : State) : Result :=
  runCommand (.macc r) s
    (.done { s with
      msum := BitVec.ofNat 64 (s.msum.toNat + (asI64 (s.operand r)).natAbs)
      mcnt := BitVec.ofNat 32 (s.mcnt.toNat + 1) })

/-- MCALC (R118). -/
def execMcalc (r : OperandSource) (s : State) : Result :=
  let x := asU64 (s.operand r)
  runCommand (.mcalc r) s
    (if x = 0 ∨ x > 2 ^ 32 - 1 then .raised .invalidParameter s
     else .done { s with
       res := BitVec.ofNat 64 (blockParameter s.params.meanRounding s.msum.toNat s.mcnt.toNat x) })

end Sys2Proof.Machine
end

