-- ==== Sys2Proof/Machine/Control.lean ====
section
/-! DEFINITION. The control commands NOP and SRST (45_control.md). -/

namespace Sys2Proof.Machine

/-- NOP (R120): no effect. -/
def execNop (s : State) : Result := runCommand .nop s (.done s)

/-- SRST (R121): soft reset. It runs whether or not an error is latched (R72, R127). -/
def execSrst (s : State) : Result := .next s.softReset

end Sys2Proof.Machine
end

