-- ==== Sys2Proof/Machine/Golomb.lean ====
section
/-! DEFINITION. The Golomb coder and the signed folding (41_golomb.md). -/

namespace Sys2Proof.Machine

/-- GolombParams(m, f) of R85: the remainder width b and the cutoff t. -/
def golombParams (p : Config.Params) (m : Nat) (f : Bool) : Nat × Nat :=
  let b0 := ceilLog2 m
  let b := if f && b0 == 0 then 1 else b0
  let tb := match p.forceTFrom with
    | .forcedB => b
    | .unforcedB => b0
  (b, 2 ^ tb - m)

/-- Fold(v) (R90). -/
def foldInt (v : Int) : Nat := if 0 ≤ v then (2 * v).toNat else (-2 * v - 1).toNat

/-- Unfold(u) (R91), computed in ℤ. -/
def unfoldNat (u : Nat) : Int := if u % 2 = 0 then (u / 2 : Nat) else -((u + 1) / 2 : Nat)

/-- The bits GENC puts for the unsigned value u (R88), from the registers GM, GB and GT. -/
def putGolomb (u : Nat) (s : State) : Option State :=
  let q := u / s.gm.toNat
  let r := u % s.gm.toNat
  (putZeros q s).bind fun s1 =>
  (putBit true s1).bind fun s2 =>
  if s.gb.toNat ≥ 1 then
    if r < s.gt.toNat then putNat (s.gb.toNat - 1) r s2
    else putNat s.gb.toNat (r + s.gt.toNat) s2
  else some s2

/-- The rule of GENC for the unsigned value u (R88): GM = 0 is InvalidParameter, then the writer's check. -/
def encodeGolomb (u : Nat) (s : State) : Ending :=
  if s.gm = 0 then .raised .invalidParameter s
  else writeBits s (putGolomb u)

/-- The unary part of R89: `allow` more zero bits may be read; the next one makes the quotient exceed QCAP. `q` zero bits
have been read. -/
def getUnary : Nat → Nat → State → Except ErrorKind (Nat × State)
  | allow, q, s =>
    match getBitOr .truncatedCode s with
    | .error e => .error e
    | .ok (true, t) => .ok (q, t)
    | .ok (false, t) =>
      match allow with
      | 0 => .error .corruptCode
      | allow' + 1 => getUnary allow' (q + 1) t

/-- The remainder part of R89, from the registers GB and GT. -/
def getRemainder (s : State) : Except ErrorKind (Nat × State) :=
  if s.gb.toNat ≥ 1 then
    (getNat .truncatedCode (s.gb.toNat - 1) 0 s).bind fun (r, t) =>
    if r ≥ s.gt.toNat then
      (getBitOr .truncatedCode t).bind fun (b, t') => .ok (2 * r + b.toNat - s.gt.toNat, t')
    else .ok (r, t)
  else .ok (0, s)

/-- GDEC's value u = q·GM + r (R89). -/
def getGolomb (s : State) : Except ErrorKind (Nat × State) :=
  (getUnary s.params.qcap 0 s).bind fun (q, t) =>
  (getRemainder t).bind fun (r, t') => .ok (q * s.gm.toNat + r, t')

/-- The rule of GDEC and GDECS (R89, R93): `toRes` makes RES of the value u. TruncatedCode and CorruptCode leave RPOS as
R126 allows. -/
def decodeGolomb (toRes : Nat → Word64) (s : State) : Ending :=
  if s.gm = 0 then .raised .invalidParameter s
  else match getGolomb s with
    | .error e => .raised e s.drawCursor
    | .ok (u, t) => .done { t with res := toRes u }

/-- GSETM (R87): sets m and the force flag and derives b and t. -/
def execGsetm (f : BitVec 7) (r : OperandSource) (s : State) : Result :=
  let x := asU64 (s.operand r)
  let bt := golombParams s.params x (f == 1)
  runCommand (.gsetm f r) s
    (if f.toNat > 1 then .raised .invalidParameter s
     else if x = 0 ∨ x > 2 ^ 32 - 1 then .raised .invalidParameter s
     else .done { s with
       gm := BitVec.ofNat 32 x
       gb := BitVec.ofNat 6 bt.1
       gt := BitVec.ofNat 32 bt.2
       bforce := f == 1 })

/-- GENC (R88). -/
def execGenc (r : OperandSource) (s : State) : Result :=
  runCommand (.genc r) s (encodeGolomb (asU64 (s.operand r)) s)

/-- GDEC (R89). -/
def execGdec (s : State) : Result := runCommand .gdec s (decodeGolomb (fun u => BitVec.ofNat 64 u) s)

/-- GENCS (R92): the Golomb code of the folded value. -/
def execGencs (r : OperandSource) (s : State) : Result :=
  runCommand (.gencs r) s (encodeGolomb (foldInt (asI64 (s.operand r))) s)

/-- GDECS (R93): as GDEC, then unfolded. -/
def execGdecs (s : State) : Result := runCommand .gdecs s (decodeGolomb (fun u => bits64 (unfoldNat u)) s)

/-- FOLD (R90). -/
def execFold (r : OperandSource) (s : State) : Result :=
  runCommand (.fold r) s (.done { s with res := BitVec.ofNat 64 (foldInt (asI64 (s.operand r))) })

/-- UNFOLD (R91). -/
def execUnfold (r : OperandSource) (s : State) : Result :=
  runCommand (.unfold r) s (.done { s with res := bits64 (unfoldNat (asU64 (s.operand r))) })

end Sys2Proof.Machine
end

