-- ==== Sys2Proof/Machine/Image.lean ====
section
/-! DEFINITION. The image predictor (43_image_predictor.md). In this file b is the up neighbour. -/

namespace Sys2Proof.Machine

/-- MED(a, b, c) (R106): the tests are on values, in this order (C7). -/
def med (a b c : Int) : Int :=
  if a = 0 ∧ b = 0 then 0
  else if a = 0 then b
  else if b = 0 then a
  else if c ≥ max a b then min a b
  else if c ≤ min a b then max a b
  else a + b - c

/-- Pred(id, a, b, c) (R106). R40 keeps id in 0..8; for the ids of the register's width beyond the table the value is free
(entry 11). -/
def predict (id : Nat) (a b c : Int) : Int :=
  match id with
  | 0 => 0
  | 1 => a
  | 2 => b
  | 3 => c
  | 4 => a + b - c
  | 5 => a + tdiv (b - c) 2
  | 6 => b + tdiv (a - c) 2
  | 7 => tdiv (a + b) 2
  | 8 => med a b c
  | _ => Config.unstatedPrediction id a b c

/-- Pred on three pixels (R106). -/
def predictPixels (id : BitVec 4) (n : Byte × Byte × Byte) : Int := predict id.toNat n.1.toNat n.2.1.toNat n.2.2.toNat

/-- Nbr() (R107): the neighbours of the pixel at the scan position. -/
def State.neighbours (s : State) : Byte × Byte × Byte :=
  (if s.ix.toNat > 0 then s.lbAt (s.ix.toNat - 1) else 0,
   if s.iy.toNat > 0 then s.lbAt s.ix.toNat else 0,
   if s.ix.toNat > 0 ∧ s.iy.toNat > 0 then s.cul else 0)

/-- The prediction for the pixel at the scan position (R112, R113). -/
def State.scanPrediction (s : State) : Int := predictPixels s.ipid s.neighbours

/-- The scan position after one more pixel (R108): the next column, or column 0 of the next row, the row saturating. -/
def nextPosition (iw ix iy : Nat) : Nat × Nat := if ix + 1 = iw then (0, min (iy + 1) (2 ^ 32 - 1)) else (ix + 1, iy)

/-- IAdvance(p) (R108). -/
def State.advance (s : State) (p : Byte) : State :=
  let pos := nextPosition s.iw.toNat s.ix.toNat s.iy.toNat
  { s with
    cul := if s.iy.toNat > 0 then s.lbAt s.ix.toNat else 0
    lb := s.lb.setByte s.ix.toNat p
    ix := BitVec.ofNat 32 pos.1
    iy := BitVec.ofNat 32 pos.2 }

/-- ISETP id (R109). -/
def execIsetp (f : BitVec 7) (s : State) : Result :=
  runCommand (.isetp f) s
    (if f.toNat > 8 then .raised .invalidParameter s else .done { s with ipid := BitVec.ofNat 4 f.toNat })

/-- ISETW (R110): sets the image width and starts a new image at pixel (0, 0). -/
def execIsetw (r : OperandSource) (s : State) : Result :=
  let x := asU64 (s.operand r)
  runCommand (.isetw r) s
    (if x = 0 ∨ x > s.params.imgMaxW then .raised .invalidParameter s
     else .done { s with iw := BitVec.ofNat 32 x, ix := 0, iy := 0, cul := 0 })

/-- IPRED (R111). -/
def execIpred (r : OperandSource) (s : State) : Result :=
  runCommand (.ipred r) s (.done { s with res := bits64 (predictPixels s.ipid (asPixels (s.operand r))) })

/-- IENC (R112). -/
def execIenc (r : OperandSource) (s : State) : Result :=
  let x := asU64 (s.operand r)
  runCommand (.ienc r) s
    (if s.iw = 0 then .raised .invalidParameter s
     else if x > 255 then .raised .invalidParameter s
     else .done { s.advance (BitVec.ofNat 8 x) with res := bits64 (x - s.scanPrediction) })

/-- IDEC (R113): the sum is clamped to a pixel. -/
def execIdec (r : OperandSource) (s : State) : Result :=
  let p := (clampInt 0 255 (s.scanPrediction + asI64 (s.operand r))).toNat
  runCommand (.idec r) s
    (if s.iw = 0 then .raised .invalidParameter s
     else .done { s.advance (BitVec.ofNat 8 p) with res := BitVec.ofNat 64 p })

end Sys2Proof.Machine
end

