-- ==== Sys2Proof/Machine/Dispatch.lean ====
section
/-! DEFINITION. One arm per command of the opcode map (R68): a direct call of its meaning. -/

namespace Sys2Proof.Machine

/-- The effect of the command `i` issued in state `s` (R72). -/
def exec (i : Instr) (s : State) : Host.Outcome State Fault Refusal :=
  match i with
  | .nop => Sys2Proof.Machine.execNop s
  | .srst => Sys2Proof.Machine.execSrst s
  | .wopen => Sys2Proof.Machine.execWopen s
  | .wbit r => Sys2Proof.Machine.execWbit r s
  | .wbits f r => Sys2Proof.Machine.execWbits f r s
  | .wclose => Sys2Proof.Machine.execWclose s
  | .ropen r => Sys2Proof.Machine.execRopen r s
  | .rbit => Sys2Proof.Machine.execRbit s
  | .rbits f => Sys2Proof.Machine.execRbits f s
  | .gsetm f r => Sys2Proof.Machine.execGsetm f r s
  | .genc r => Sys2Proof.Machine.execGenc r s
  | .gdec => Sys2Proof.Machine.execGdec s
  | .gencs r => Sys2Proof.Machine.execGencs r s
  | .gdecs => Sys2Proof.Machine.execGdecs s
  | .fold r => Sys2Proof.Machine.execFold r s
  | .unfold r => Sys2Proof.Machine.execUnfold r s
  | .asetord f => Sys2Proof.Machine.execAsetord f s
  | .ahclr => Sys2Proof.Machine.execAhclr s
  | .apred ch => Sys2Proof.Machine.execApred ch s
  | .aenc ch r => Sys2Proof.Machine.execAenc ch r s
  | .adec ch r => Sys2Proof.Machine.execAdec ch r s
  | .msfwd r => Sys2Proof.Machine.execMsfwd r s
  | .msinv r => Sys2Proof.Machine.execMsinv r s
  | .isetp f => Sys2Proof.Machine.execIsetp f s
  | .isetw r => Sys2Proof.Machine.execIsetw r s
  | .ipred r => Sys2Proof.Machine.execIpred r s
  | .ienc r => Sys2Proof.Machine.execIenc r s
  | .idec r => Sys2Proof.Machine.execIdec r s
  | .mclr => Sys2Proof.Machine.execMclr s
  | .macc r => Sys2Proof.Machine.execMacc r s
  | .mcalc r => Sys2Proof.Machine.execMcalc r s

end Sys2Proof.Machine
end

