-- ==== Sys2Proof/Machine/Command.lean ====
section
/-! DEFINITION. A write of a word to CMD (R72), and every action of the host and the platform (R21, R45, R51, R52, R139).
The step performs them through this file. -/

namespace Sys2Proof.Machine

/-- Step(w) of R72: the word's command runs; an illegal word raises IllegalCommand (R69), or is dropped like every word
while an error is latched (R127). The meanings themselves make the drop (`runCommand`), and SRST's makes none. -/
def runWord (w : Word32) (s : State) : Result :=
  match decode w with
  | .ok i => exec i s
  | .error _ => if s.latched then .next s else .next (s.latch .illegalCommand w)

/-- The offset of CMD (R44). -/
def cmdOffset : BitVec 12 := 0x004

/-- A host write of the register window (R44, R45): CMD runs a command (R28), OPD takes the data, anything else is
ignored. -/
def writeWindow (bits : Nat) (offset : BitVec 12) (v : Word32) (s : State) : Result :=
  if windowAccess bits offset then
    if offset = cmdOffset then runWord v s
    else if offset = 0x008 then .next (s.writeOpdLo v)
    else if offset = 0x00C then .next (s.writeOpdHi v)
    else .next s
  else .next s

/-- The effect of one action of the host or the platform. -/
def act (a : HostAction) (s : State) : Result :=
  match a with
  | .writeReg bits offset v => writeWindow bits offset v s
  | .readReg bits offset => .next { s with busData := s.readWindow bits offset }
  | .writeIbuf i v => .next (s.writeIbuf i.toNat v)
  | .readObuf i => .next (s.readObuf i.toNat)
  | .hardReset => .next s.hardReset

/-- The host's write of the word `w` to CMD (R28). -/
def cmdWrite (w : Word32) : HostAction := .writeReg 32 cmdOffset w

/-- The next action of the host (R58), with the rest still pending; with none left the core is idle (R138, R141). -/
def nextAction (s : State) : Result :=
  match s.pending with
  | [] => .next s
  | a :: rest => act a { s with pending := rest }

/-- The state with the word w, of which `nbits` bits are given, as the host's next write to CMD. -/
def placeWord (s : State) (nbits w : Nat) : State :=
  { s with pending := cmdWrite (BitVec.ofNat 32 (w % 2 ^ nbits)) :: s.pending }

end Sys2Proof.Machine
end

