-- ==== Sys2Proof/Machine/Step.lean ====
section
/-! DEFINITION. One step of the machine: the host's next action (R21, R58), a write of CMD among them (R28, R72). -/

namespace Sys2Proof.Machine

/-- One step (entry 1). It answers a next state always. -/
def step (s : State) : Host.Outcome State Fault Refusal := nextAction s

/-- The state whose next step runs the command word w (entry 1). -/
def State.withFetchWord (s : State) (nbits w : Nat) : State := placeWord s nbits w

end Sys2Proof.Machine
end

