-- ==== Sys2Proof/Safety.lean ====
section
/-! DEFINITION. The terms in which claims speak of the GRC: the result of a run (R147), the bit streams as lists of bits
(R53, R84, R86), illegal words (R69), the block parameter of R115 as a property, the agreement of two image scans (R114),
and the legal states: the ranges and invariants that 10_state.md gives the registers. -/

namespace Sys2Proof.Machine

/-! ## Runs -/

/-- The registers and bytes a run's result consists of (R147): ERR, ERRCMD, every word of the window, RES, and the bytes
OBUF[0 .. OLEN−1]. -/
structure RunResult where
  err : BitVec 4
  errcmd : Word32
  window : List Word32
  res : Word64
  output : List (Option Byte)
deriving DecidableEq, Repr

/-- The result of a run that ends in `s` (R147). A byte is `none` where an imprecise error left it unspecified (R126). -/
def State.result (s : State) : RunResult where
  err := s.err
  errcmd := s.errcmd
  window := (List.range 38).map (fun k => s.windowWord (4 * k))
  res := s.res
  output := (List.range s.olen.toNat).map (fun i => s.obuf.byteAt? i)

/-- A run that ends in `s` succeeds when ERR = 0 (R147). -/
def State.succeeds (s : State) : Prop := s.err = 0

/-! ## Command words -/

/-- R69: no row of R68 has (w AND mask) = match, or the word selects MSFWD or MSINV and HAS_MIDSIDE = 0. -/
def illegalWord (p : Config.Params) (w : Word32) : Prop :=
  (∀ row ∈ opcodeMap, w &&& row.format.mask ≠ row.matchWord) ∨
    (p.hasMidside = false ∧ ∃ row ∈ opcodeMap,
      (row.mnemonic = "MSFWD" ∨ row.mnemonic = "MSINV") ∧ w &&& row.format.mask = row.matchWord)

/-- R63: the words with (w AND mask) = match are the command that `build` makes of their fields. -/
def wordsDecodeTo (mask mtch : Word32) (build : Word32 → Instr) : Prop :=
  ∀ w : Word32, w &&& mask = mtch → decode w = .ok (build w)

/-- R24: the commands whose rule writes RES. -/
def writesRes : Instr → Bool
  | .nop => false
  | .srst => false
  | .wopen => false
  | .wbit _ => false
  | .wbits _ _ => false
  | .wclose => false
  | .ropen _ => false
  | .rbit => true
  | .rbits _ => true
  | .gsetm _ _ => false
  | .genc _ => false
  | .gdec => true
  | .gencs _ => false
  | .gdecs => true
  | .fold _ => true
  | .unfold _ => true
  | .asetord _ => false
  | .ahclr => false
  | .apred _ => true
  | .aenc _ _ => true
  | .adec _ _ => true
  | .msfwd _ => true
  | .msinv _ => true
  | .isetp _ => false
  | .isetw _ => false
  | .ipred _ => true
  | .ienc _ => true
  | .idec _ => true
  | .mclr => false
  | .macc _ => false
  | .mcalc _ => true

/-! ## Streams as lists of bits -/

/-- Bits n−1 .. 0 of `v`, the most significant first (R53). -/
def bitsOf (n v : Nat) : List Bool := (List.range n).map (fun k => v.testBit (n - 1 - k))

/-- The bits written to the output stream so far: the bytes OBUF[0 .. OLEN−1], then the WCNT pending bits (R34, R53). -/
def State.outputBits (s : State) : List Bool :=
  (List.range s.olen.toNat).flatMap (fun i => bitsOf 8 ((s.obuf.byteAt? i).getD 0).toNat) ++ bitsOf s.wcnt.toNat s.wacc.toNat

/-- The bits of the input stream that are still to be read, in order (R37, R76). -/
def State.unreadBits (s : State) : List Bool :=
  (List.range (8 * s.ilen.toNat - s.rpos.toNat)).map (fun k => s.inputBit (s.rpos.toNat + k))

/-- The writer is between commands (R34) and OBUF takes the bytes that `n` more bits complete. -/
def State.hasRoom (s : State) (n : Nat) : Prop :=
  s.wcnt.toNat ≤ 7 ∧ s.olen.toNat + (s.wcnt.toNat + n) / 8 ≤ s.params.obufCap ∧ s.params.obufCap ≤ 2 ^ 32 - 1

/-- The writer is between commands (R34, R35) and `n` more bits complete a byte that OBUF does not take. -/
def State.lacksRoom (s : State) (n : Nat) : Prop :=
  s.wcnt.toNat ≤ 7 ∧ s.olen.toNat ≤ s.params.obufCap ∧ s.params.obufCap < s.olen.toNat + (s.wcnt.toNat + n) / 8 ∧
    s.params.obufCap ≤ 2 ^ 32 - 1

/-- `t` is `s` with `bits` appended to the output stream: the bytes they complete are stored at OBUF[old OLEN ..], every
other byte of OBUF reads as before, and nothing else changes but WACC, WCNT and OLEN (R75). -/
def State.appends (s t : State) (bits : List Bool) : Prop :=
  t.outputBits = s.outputBits ++ bits ∧
  t.olen.toNat = s.olen.toNat + (s.wcnt.toNat + bits.length) / 8 ∧
  t.wcnt.toNat = (s.wcnt.toNat + bits.length) % 8 ∧
  (∀ i, i < s.olen.toNat ∨ t.olen.toNat ≤ i → t.obuf.byteAt? i = s.obuf.byteAt? i) ∧
  t = { s with wacc := t.wacc, wcnt := t.wcnt, olen := t.olen, obuf := t.obuf }

/-- `t` is what R126 allows after the command word `w` raised IO from PutBit in state `s`: ERR and ERRCMD are set, WCNT,
OLEN and the OBUF bytes from the old OLEN on are unspecified in their ranges, and nothing else changes but WACC (and the
model's count of drawn values). -/
def State.failedWrite (s t : State) (w : Word32) : Prop :=
  t.err = 1 ∧ t.errcmd = w ∧ t.wcnt.toNat ≤ 8 ∧ s.olen.toNat ≤ t.olen.toNat ∧ t.olen.toNat ≤ s.params.obufCap ∧
  (∀ i, i < s.olen.toNat → t.obuf.byteAt? i = s.obuf.byteAt? i) ∧
  (∀ i, s.olen.toNat ≤ i → t.obuf.byteAt? i = none) ∧
  t = { s with err := t.err, errcmd := t.errcmd, wacc := t.wacc, wcnt := t.wcnt, olen := t.olen, obuf := t.obuf,
               draws := s.draws + 1 }

/-- `t` is what R126 allows after the command word `w` raised `e`, TruncatedCode or CorruptCode, in state `s`: ERR and
ERRCMD are set, RPOS is unspecified from its old value to 8·ILEN, and nothing else changes (but the model's count of drawn
values). -/
def State.failedRead (s t : State) (e : ErrorKind) (w : Word32) : Prop :=
  t.err = e.code ∧ t.errcmd = w ∧ s.rpos.toNat ≤ t.rpos.toNat ∧ t.rpos.toNat ≤ 8 * s.ilen.toNat ∧
  t = { s with err := t.err, errcmd := t.errcmd, rpos := t.rpos, draws := s.draws + 1 }

/-- Rem(r) of R86. -/
def remainderBits (b t r : Nat) : List Bool :=
  if b = 0 then [] else if r < t then bitsOf (b - 1) r else bitsOf b (r + t)

/-- Code(u) of R86 under (m, b, t): 0^q · 1 · Rem(r) with q = u div m and r = u mod m. -/
def golombCode (m b t u : Nat) : List Bool :=
  List.replicate (u / m) false ++ [true] ++ remainderBits b t (u % m)

/-- Code(u) under the registers GM, GB and GT. -/
def State.codeOf (s : State) (u : Nat) : List Bool := golombCode s.gm.toNat s.gb.toNat s.gt.toNat u

/-- WBITS n, #v for each (n, v) in turn (R73, R79): the host writes OPD, then the command runs. It stops at the first
error. -/
def writeFields : List (BitVec 7 × Word64) → State → Option State
  | [], s => some s
  | (n, v) :: fs, s =>
    match exec (.wbits n .opd) { s with opd := v } with
    | .next t => if t.err = 0 then writeFields fs t else none
    | .fault _ => none
    | .refused _ => none

/-- RBITS n for each n in turn (R83), and what each leaves in RES. It stops at the first error. -/
def readFields : List (BitVec 7) → State → Option (List Word64 × State)
  | [], s => some ([], s)
  | n :: ns, s =>
    match exec (.rbits n) s with
    | .next t => if t.err = 0 then (readFields ns t).map (fun r => (t.res :: r.1, r.2)) else none
    | .fault _ => none
    | .refused _ => none

/-- The number of bits of a list of fields (R84). -/
def fieldBits (fs : List (BitVec 7 × Word64)) : Nat := (fs.map (fun f => f.1.toNat)).sum

/-! ## The block parameter -/

/-- The pair (S, N) whose criterion R115 takes, after MEAN_ROUNDING. -/
def meanPair (rounding : Config.MeanRounding) (S N : Nat) : Nat × Nat :=
  match rounding with
  | .exact => (S, N)
  | .floor => (S / N, 1)

/-- R115: m = MRaw(S, N). -/
def isBlockParameter (rounding : Config.MeanRounding) (S N m : Nat) : Prop :=
  if N = 0 then m = 1
  else
    let p := meanPair rounding S N
    1 ≤ m ∧ 2 * p.1 ^ m ≤ (p.1 + p.2) ^ m ∧ ∀ k, 1 ≤ k → k < m → (p.1 + p.2) ^ k < 2 * p.1 ^ k

/-! ## Image scans -/

/-- Two states hold equal IPID, IW, IX, IY, CUL and equal LB entries at the positions Nbr can read (R107, R114): the pixels
of the current row before IX, and from the second row on the pixels of the row above from IX on. -/
def State.scanAgrees (s t : State) : Prop :=
  s.ipid = t.ipid ∧ s.iw = t.iw ∧ s.ix = t.ix ∧ s.iy = t.iy ∧ s.cul = t.cul ∧
  (∀ x, x < s.ix.toNat → s.lbAt x = t.lbAt x) ∧
  (0 < s.iy.toNat → ∀ x, s.ix.toNat ≤ x → x < s.iw.toNat → s.lbAt x = t.lbAt x)

/-- `t` is `s` after IAdvance(p) (R108), but for RES: CUL is the pixel above the scan position or 0, LB holds `p` at the
scan position and reads as before everywhere else, the scan has moved on by one pixel, and nothing else changes. -/
def State.movedOn (s t : State) (p : Byte) : Prop :=
  t.cul = (if s.iy.toNat > 0 then s.lbAt s.ix.toNat else 0) ∧
  (∀ x, t.lb.byteAt? x = if x = s.ix.toNat then some p else s.lb.byteAt? x) ∧
  (if s.ix.toNat + 1 = s.iw.toNat then t.ix = 0 ∧ t.iy.toNat = min (s.iy.toNat + 1) (2 ^ 32 - 1)
   else t.ix.toNat = s.ix.toNat + 1 ∧ t.iy = s.iy) ∧
  t = { s with res := t.res, cul := t.cul, lb := t.lb, ix := t.ix, iy := t.iy }

/-! ## Reset -/

/-- The reset values of R48, for every element that has one. -/
def State.hasResetValues (s : State) : Prop :=
  s.opd = 0 ∧ s.res = 0 ∧ s.err = 0 ∧ s.errcmd = 0 ∧ s.gm = 0 ∧ s.gb = 0 ∧ s.gt = 0 ∧ s.bforce = false ∧
  s.wacc = 0 ∧ s.wcnt = 0 ∧ s.wclosed = false ∧ s.olen = 0 ∧ s.ilen = 0 ∧ s.rpos = 0 ∧ s.aord = 0 ∧
  s.hist0 = ⟨0, 0, 0⟩ ∧ s.hist1 = ⟨0, 0, 0⟩ ∧ s.ipid = 0 ∧ s.iw = 0 ∧ s.ix = 0 ∧ s.iy = 0 ∧ s.cul = 0 ∧
  s.msum = 0 ∧ s.mcnt = 0

/-! ## Legal states -/

/-- R29, R122, R131: ERR holds a code the core raises, and ERRCMD is 0 while none is latched (R30). -/
def State.legalError (s : State) : Prop :=
  s.err ∈ [0, 1, 3, 4, 5, 7, 8, 9] ∧ (s.err = 0 → s.errcmd = 0)

/-- R34, R35: OLEN is at most OBUF_CAP, and while no error is latched WCNT is at most 7, WACC < 2^WCNT and every byte of
the stream is known (R52). After an imprecise IO error WCNT may be 8 (R126). -/
def State.legalWriter (s : State) : Prop :=
  s.olen.toNat ≤ s.params.obufCap ∧ s.wcnt.toNat ≤ 8 ∧
  (s.err = 0 → s.wcnt.toNat ≤ 7 ∧ s.wacc.toNat < 2 ^ s.wcnt.toNat ∧
    ∀ i, i < s.olen.toNat → (s.obuf.byteAt? i).isSome)

/-- R36, R37: ILEN is at most IBUF_CAP and RPOS at most 8·ILEN. -/
def State.legalReader (s : State) : Prop :=
  s.ilen.toNat ≤ s.params.ibufCap ∧ s.rpos.toNat ≤ 8 * s.ilen.toNat

/-- R31, R32, R33: with no parameter set GB, GT and BFORCE are 0; else GB and GT are GolombParams of GM and BFORCE. -/
def State.legalGolomb (s : State) : Prop :=
  if s.gm = 0 then s.gb = 0 ∧ s.gt = 0 ∧ s.bforce = false
  else (s.gb.toNat, s.gt.toNat) = golombParams s.params s.gm.toNat s.bforce

/-- R40, R41, R42: IPID is in the table, IW at most IMG_MAX_W, IX inside the row; with no width set the scan is at (0, 0);
and LB holds a pixel at every position Nbr can read. -/
def State.legalImage (s : State) : Prop :=
  s.ipid.toNat ≤ 8 ∧ s.iw.toNat ≤ s.params.imgMaxW ∧
  (if s.iw = 0 then s.ix = 0 ∧ s.iy = 0 ∧ s.cul = 0 else s.ix.toNat < s.iw.toNat) ∧
  (∀ x, x < s.ix.toNat → (s.lb.byteAt? x).isSome) ∧
  (0 < s.iy.toNat → ∀ x, x < s.iw.toNat → (s.lb.byteAt? x).isSome)

/-- The byte stores are in canonical form and list no index beyond their size (R50, R51, R52, R42). -/
def State.legalStores (s : State) : Prop :=
  s.ibuf.wf = true ∧ s.obuf.wf = true ∧ s.lb.wf = true ∧
  (∀ i, s.params.ibufCap ≤ i → s.ibuf.byteAt? i = none) ∧
  (∀ i, s.params.obufCap ≤ i → s.obuf.byteAt? i = none) ∧
  (∀ i, s.params.imgMaxW ≤ i → s.lb.byteAt? i = none)

/-- The legal states: the ranges and invariants of 10_state.md, for legal parameters. -/
def State.legal (s : State) : Prop :=
  s.params.legal = true ∧ s.legalError ∧ s.legalWriter ∧ s.legalReader ∧ s.legalGolomb ∧ s.legalImage ∧ s.legalStores

end Sys2Proof.Machine
end

