-- ==== Sys2Proof/WellFormed.lean ====
section
/-! DEFINITION. R66: the F values that are legal for each command that uses F. Every term of `Instr` has a legal command
word; the check here is the one a host or an assembler makes before it issues a command, and the one the core makes when
it runs it (a command that fails it raises InvalidParameter, R66). -/

namespace Sys2Proof

/-- WBITS and RBITS: a bit count n with 1 ≤ n ≤ 64 (R66). -/
def legalBitCount (f : BitVec 7) : Bool := decide (1 ≤ f.toNat ∧ f.toNat ≤ 64)

/-- GSETM: the force flag, 0 or 1 (R66). -/
def legalForceFlag (f : BitVec 7) : Bool := decide (f.toNat ≤ 1)

/-- ASETORD: a predictor order k with 0 ≤ k ≤ 3 (R66). -/
def legalOrder (f : BitVec 7) : Bool := decide (f.toNat ≤ 3)

/-- ISETP: a predictor mode id with 0 ≤ id ≤ 8 (R66). -/
def legalModeId (f : BitVec 7) : Bool := decide (f.toNat ≤ 8)

/-- The F field of the command, where it uses one, holds a legal value (R66). -/
def Instr.wellFormed : Instr → Bool
  | .wbits f _ => legalBitCount f
  | .rbits f => legalBitCount f
  | .gsetm f _ => legalForceFlag f
  | .asetord f => legalOrder f
  | .isetp f => legalModeId f
  | .nop | .srst | .wopen | .wbit _ | .wclose | .ropen _ | .rbit | .genc _ | .gdec | .gencs _ | .gdecs | .fold _
  | .unfold _ | .ahclr | .apred _ | .aenc _ _ | .adec _ _ | .msfwd _ | .msinv _ | .isetw _ | .ipred _ | .ienc _
  | .idec _ | .mclr | .macc _ | .mcalc _ => true

end Sys2Proof
end

