-- ==== Sys2Proof/Certificates/Slice0/Obligations.lean ====
section
/-! DEFINITION. The statements about the GRC. Each docstring names the rules it states or rests on; where a clause is the
model's own choice it names the log entry. -/

open Sys2Proof Sys2Proof.Machine

/-! ## Encoding (R62, R63, R68, R69) -/

/-- Every command, with every value of its fields, decodes from its own word: the encoding of R62, R63 and R68 drops no
bit of a field. -/
def Obligations.DecodeOfEncodeIsTheCommand : Prop :=
  ∀ i : Instr, decode (encode i) = .ok i

/-- A word that decodes has no bit the command does not account for: the command's word is the word itself. This is why
ERRCMD, which the model makes of the command, is the word the host wrote (R30). -/
def Obligations.EncodeOfDecodeIsTheWord : Prop :=
  ∀ (w : Word32) (i : Instr), decode w = .ok i → encode i = w

/-- R69: a word is illegal when no row of R68 has (w AND mask) = match, or when it selects MSFWD or MSINV and
HAS_MIDSIDE = 0; an illegal word raises IllegalCommand (code 9) and has no other effect. Any other word runs the command of
the row that selects it (R72), which does not raise IllegalCommand. -/
def Obligations.IllegalWordRaisesIllegalCommand : Prop :=
  ∀ (s : State) (w : Word32), s.err = 0 →
    (illegalWord s.params w → runWord w s = .next { s with err := 9, errcmd := w }) ∧
    (¬ illegalWord s.params w → ∃ row ∈ opcodeMap, ∃ t,
      w &&& row.format.mask = row.matchWord ∧ decode w = .ok (row.build w) ∧
      runWord w s = exec (row.build w) s ∧ exec (row.build w) s = .next t ∧ t.err ≠ 9)

/-- R66: the legal F values of each command that uses F; and a command with any other F is a legal word that raises
InvalidParameter with no effect, not IllegalCommand. -/
def Obligations.FieldValuesOutsideTheLegalSetAreRefused : Prop :=
  (∀ (f : BitVec 7) (r : OperandSource),
    ((Instr.wbits f r).wellFormed = true ↔ 1 ≤ f.toNat ∧ f.toNat ≤ 64) ∧
    ((Instr.rbits f).wellFormed = true ↔ 1 ≤ f.toNat ∧ f.toNat ≤ 64) ∧
    ((Instr.gsetm f r).wellFormed = true ↔ f.toNat = 0 ∨ f.toNat = 1) ∧
    ((Instr.asetord f).wellFormed = true ↔ f.toNat ≤ 3) ∧
    ((Instr.isetp f).wellFormed = true ↔ f.toNat ≤ 8)) ∧
  (∀ (i : Instr) (s : State), i.wellFormed = false → s.err = 0 →
    ∃ w, decode w = .ok i ∧ runWord w s = .next { s with err := 3, errcmd := w })

/-- The words the spec itself writes out (30_encoding.md R73, 95_test_vectors.md V-L2.8 and V-L2.9), at least one of every
opcode group. -/
def Obligations.SampleWordsDecodeAsTheSpecWritesThem : Prop :=
  decode 0x00000000 = .ok .nop ∧
  decode 0x00000001 = .ok .srst ∧
  decode 0x00002012 = .ok (.wbits 32 .opd) ∧
  decode 0x80000812 = .ok (.wbits 8 .res) ∧
  decode 0x0000081A = .ok (.rbits 8) ∧
  decode 0x00000120 = .ok (.gsetm 1 .opd) ∧
  decode 0x80000023 = .ok (.gencs .res) ∧
  decode 0x00010033 = .ok (.aenc .ch1 .opd) ∧
  decode 0x80010034 = .ok (.adec .ch1 .res) ∧
  decode 0x00000230 = .ok (.asetord 2) ∧
  decode 0x00000840 = .ok (.isetp 8) ∧
  decode 0x80000051 = .ok (.macc .res) ∧
  decode 0x80000001 = .error .unusedField ∧
  decode 0x00008000 = .error .reservedBits ∧
  decode 0x000000E0 = .error (.reservedOpcode 0xE0)

/-! ## The step, the latch and the host's accesses -/

/-- When the host's next action writes the word of a command to CMD, the step is that command's execution (R28, R72); the
action is no longer pending (entry 1). -/
def Obligations.StepRunsTheDecodedCommand : Prop :=
  ∀ (s : State) (w : Word32) (i : Instr) (rest : List HostAction),
    s.pending = .writeReg 32 0x004 w :: rest → decode w = .ok i → step s = exec i { s with pending := rest }

/-- The host's actions are performed in its order, one a step (R58); with none left the core is idle (R141). -/
def Obligations.HostActionsRunInOrder : Prop :=
  ∀ (s : State),
    (∀ (a : HostAction) (rest : List HostAction), s.pending = a :: rest → step s = act a { s with pending := rest }) ∧
    (s.pending = [] → step s = .next s)

/-- While an error is latched every word but 0x00000001 is dropped with no effect at all, illegal words too; that word is
SRST and resets (R72, R127). -/
def Obligations.LatchedErrorDropsEveryWordButSrst : Prop :=
  ∀ (s : State) (w : Word32), s.err ≠ 0 →
    (w ≠ 0x00000001 → runWord w s = .next s) ∧
    (w = 0x00000001 → runWord w s = .next s.softReset)

/-- A latched error and the word it names stay, whatever the host does, until a write of SRST's word or a hardware reset
(R127). -/
def Obligations.LatchedErrorStaysUntilReset : Prop :=
  ∀ (s t : State), s.err ≠ 0 → step s = .next t →
    (t.err = s.err ∧ t.errcmd = s.errcmd) ∨
    (t.err = 0 ∧ t.errcmd = 0 ∧ ∃ rest,
      s.pending = .writeReg 32 0x004 0x00000001 :: rest ∨ s.pending = .hardReset :: rest)

/-- Every command ends and answers a next state, in every state and with every operand, and so does every step (R148; a
latched error is a next state, entry 3). -/
def Obligations.EveryCommandAndStepAnswersANextState : Prop :=
  (∀ (i : Instr) (s : State), ∃ t, exec i s = .next t) ∧ (∀ s : State, ∃ t, step s = .next t)

/-- The fields of STATUS, read at offset 0x018 (R29, R44). -/
def Obligations.StatusWordHoldsTheFlags : Prop :=
  ∀ s : State, ∃ w : Word32,
    act (.readReg 32 0x018) s = .next { s with busData := w } ∧
    w.extractLsb' 0 4 = s.err ∧
    w.extractLsb' 4 4 = 0 ∧
    w.getLsbD 8 = s.wclosed ∧
    w.getLsbD 9 = decide (s.rpos.toNat = 8 * s.ilen.toNat) ∧
    w.getLsbD 10 = decide (s.gm ≠ 0) ∧
    w.getLsbD 11 = decide (s.iw ≠ 0) ∧
    w.getLsbD 12 = s.params.hasMidside ∧
    w.extractLsb' 13 19 = 0

/-- R45: an access that is not 32 bits wide or not aligned is ignored or reads 0; a read of an unmapped offset and a read
of CMD give 0; a write of a read-only register or of an unmapped offset is ignored. No read changes anything but what the
host is handed (R56). -/
def Obligations.WindowAccessRules : Prop :=
  ∀ (s : State) (bits : Nat) (offset : BitVec 12) (v : Word32),
    (¬ (bits = 32 ∧ offset.toNat % 4 = 0) →
      act (.readReg bits offset) s = .next { s with busData := 0 } ∧ act (.writeReg bits offset v) s = .next s) ∧
    (0x060 < offset.toNat ∧ offset.toNat < 0x080 ∨ 0x094 < offset.toNat →
      act (.readReg bits offset) s = .next { s with busData := 0 }) ∧
    act (.readReg bits 0x004) s = .next { s with busData := 0 } ∧
    (offset ∉ [0x004, 0x008, 0x00C] → act (.writeReg bits offset v) s = .next s) ∧
    (∃ x, act (.readReg bits offset) s = .next { s with busData := x })

/-- The register map of R44, row by row, as what a 32-bit read by the host returns, with the host views of R27, R29, R32,
R34, R37, R38, R39, R40 and R42; and a write of one half of OPD leaves the other (R54). -/
def Obligations.RegisterWindowMap : Prop :=
  ∀ s : State, ∃ word : BitVec 12 → Word32,
    (∀ o, act (.readReg 32 o) s = .next { s with busData := word o }) ∧
    word 0x000 = (if s.params.hasMidside then 0x4752434D else 0x47524331) ∧
    word 0x004 = 0 ∧
    (word 0x00C ++ word 0x008 : BitVec (32 + 32)) = s.opd ∧
    (word 0x014 ++ word 0x010 : BitVec (32 + 32)) = s.res ∧
    (word 0x018).toNat = s.err.toNat + 2 ^ 8 * s.wclosed.toNat +
      2 ^ 9 * (decide (s.rpos.toNat = 8 * s.ilen.toNat)).toNat + 2 ^ 10 * (decide (s.gm ≠ 0)).toNat +
      2 ^ 11 * (decide (s.iw ≠ 0)).toNat + 2 ^ 12 * s.params.hasMidside.toNat ∧
    word 0x01C = s.errcmd ∧
    word 0x020 = s.gm ∧
    (word 0x024).toNat = s.gb.toNat + 256 * s.bforce.toNat ∧
    word 0x028 = s.gt ∧
    (word 0x02C).toNat = s.wacc.toNat + 256 * s.wcnt.toNat ∧
    word 0x030 = s.olen ∧
    word 0x034 = s.ilen ∧
    (word 0x038).toNat + 2 ^ 32 * (word 0x03C).toNat = s.rpos.toNat ∧
    (word 0x040).toNat = s.aord.toNat ∧
    (word 0x044).toNat = s.ipid.toNat ∧
    word 0x048 = s.iw ∧
    word 0x04C = s.ix ∧
    word 0x050 = s.iy ∧
    (word 0x054).toNat = s.cul.toNat ∧
    (word 0x05C ++ word 0x058 : BitVec (32 + 32)) = s.msum ∧
    word 0x060 = s.mcnt ∧
    [0x080, 0x084, 0x088, 0x08C, 0x090, 0x094].map (fun o => (word o).toInt) =
      [s.hist0.h0.toInt, s.hist0.h1.toInt, s.hist0.h2.toInt, s.hist1.h0.toInt, s.hist1.h1.toInt, s.hist1.h2.toInt] ∧
    (∀ v : Word32, ∃ x, act (.writeReg 32 0x008 v) s = .next { s with opd := x } ∧
      x.extractLsb' 0 32 = v ∧ x.extractLsb' 32 32 = s.opd.extractLsb' 32 32) ∧
    (∀ v : Word32, ∃ x, act (.writeReg 32 0x00C v) s = .next { s with opd := x } ∧
      x.extractLsb' 32 32 = v ∧ x.extractLsb' 0 32 = s.opd.extractLsb' 0 32)

/-- R51: a host write of IBUF[i] changes that byte alone, and is ignored at or beyond IBUF_CAP; no command writes IBUF. -/
def Obligations.OnlyTheHostWritesIbuf : Prop :=
  (∀ (s : State) (i : BitVec 32) (v : Byte),
    (i.toNat < s.params.ibufCap → ∃ t, act (.writeIbuf i v) s = .next t ∧ t = { s with ibuf := t.ibuf } ∧
      ∀ j, t.ibufByte j = if j = i.toNat then v else s.ibufByte j) ∧
    (s.params.ibufCap ≤ i.toNat → act (.writeIbuf i v) s = .next s)) ∧
  (∀ (i : Instr) (s t : State), exec i s = .next t → ∀ j, t.ibufByte j = s.ibufByte j)

/-- R52: a host read of OBUF[i] gives the byte of the current stream for i < OLEN, and 0 at or beyond OBUF_CAP; for
OLEN ≤ i < OBUF_CAP it gives some byte (unspecified: a free value, entry 5). R56: the read changes nothing but what the host
is handed, and after any reads the same read gives the same byte (of the state, reads change only what was handed over and
what is pending, entry 1). -/
def Obligations.HostReadsTheOutputStream : Prop :=
  ∀ (s : State) (i : BitVec 32), ∃ b : Byte,
    act (.readObuf i) s = .next { s with busData := b.zeroExtend 32 } ∧
    (s.params.obufCap ≤ i.toNat → b = 0) ∧
    (∀ v, i.toNat < s.params.obufCap → i.toNat < s.olen.toNat → s.obuf.byteAt? i.toNat = some v → b = v) ∧
    (∀ x rest, act (.readObuf i) { s with busData := x, pending := rest } =
      .next { s with busData := b.zeroExtend 32, pending := rest })

/-- R48, R139: both resets, and the model's reset state, hold the reset value of every element that has one. SRST leaves
IBUF, OBUF and LB as they are: for LB that is R121's word, where R48 gives LB as unspecified after both resets, and the model
follows R121 (entry 4). After a hardware reset nothing is known of the three. No reset changes the parameters. -/
def Obligations.BothResetsGiveTheResetValues : Prop :=
  State.reset.hasResetValues ∧
  ∀ s : State, ∃ t u,
    exec .srst s = .next t ∧ act .hardReset s = .next u ∧ t.hasResetValues ∧ u.hasResetValues ∧
    t.params = s.params ∧ u.params = s.params ∧
    (∀ i, t.ibufByte i = s.ibufByte i) ∧ (∀ i, t.obuf.byteAt? i = s.obuf.byteAt? i) ∧ (∀ i, t.lbAt i = s.lbAt i) ∧
    (∀ i, u.ibuf.byteAt? i = none ∧ u.obuf.byteAt? i = none ∧ u.lb.byteAt? i = none)

/-! ## Control (45_control.md) -/

/-- R120: NOP is the word 0 and changes nothing, with an error latched or not. -/
def Obligations.NopChangesNothing : Prop :=
  decode 0x00000000 = .ok .nop ∧ ∀ s : State, exec .nop s = .next s

/-- R121: SRST is the word 1 and no other; it puts every element at its reset value, whether or not an error is latched,
and leaves IBUF, OBUF and LB (and the model's own fields) as they are. REOF becomes 1, GMV and IWV become 0. -/
def Obligations.SrstResetsTheCore : Prop :=
  decode 0x00000001 = .ok .srst ∧
  (∀ w : Word32, w.extractLsb' 0 8 = 0x01 → w ≠ 0x00000001 → ∃ e, decode w = .error e) ∧
  ∀ s : State, ∃ t, exec .srst s = .next t ∧ t.reof = true ∧ t.gmv = false ∧ t.iwv = false ∧
    t = { s with
      opd := 0, res := 0, err := 0, errcmd := 0, gm := 0, gb := 0, gt := 0, bforce := false, wacc := 0, wcnt := 0,
      wclosed := false, olen := 0, ilen := 0, rpos := 0, aord := 0, hist0 := ⟨0, 0, 0⟩, hist1 := ⟨0, 0, 0⟩, ipid := 0,
      iw := 0, ix := 0, iy := 0, cul := 0, msum := 0, mcnt := 0 }

/-! ## The bit stream (40_bitstream.md) -/

/-- R77: WOPEN opens an empty stream and changes nothing else; the bytes of OBUF keep their values. -/
def Obligations.WopenOpensAnEmptyStream : Prop :=
  decode 0x00000010 = .ok .wopen ∧
  ∀ s : State, s.err = 0 →
    exec .wopen s = .next { s with olen := 0, wacc := 0, wcnt := 0, wclosed := false }

/-- R75, R78: WBIT puts X[0]: into WACC below eight bits, and with the eighth bit the byte goes to OBUF[OLEN]; a full OBUF
then raises IO (R126). A closed writer raises ClosedStream with no effect. Nothing else changes. -/
def Obligations.WbitPutsOneBit : Prop :=
  wordsDecodeTo 0x7FFFFFFF 0x00000011 (fun w => .wbit (rField w)) ∧
  ∀ (s : State) (r : OperandSource), s.err = 0 →
    (s.wclosed = true → exec (.wbit r) s = .next { s with err := 8, errcmd := encode (.wbit r) }) ∧
    (s.wclosed = false → s.wcnt.toNat < 7 →
      exec (.wbit r) s = .next { s with
        wacc := BitVec.ofNat 8 (2 * s.wacc.toNat + ((s.operand r).getLsbD 0).toNat)
        wcnt := BitVec.ofNat 4 (s.wcnt.toNat + 1) }) ∧
    (s.wclosed = false → s.wcnt.toNat = 7 → s.olen.toNat ≠ s.params.obufCap → ∃ t,
      exec (.wbit r) s = .next t ∧
      t = { s with obuf := t.obuf, olen := BitVec.ofNat 32 (s.olen.toNat + 1), wacc := 0, wcnt := 0 } ∧
      ∀ i, t.obuf.byteAt? i =
        if i = s.olen.toNat then some (BitVec.ofNat 8 (2 * s.wacc.toNat + ((s.operand r).getLsbD 0).toNat))
        else s.obuf.byteAt? i) ∧
    (s.wclosed = false → s.wcnt.toNat = 7 → s.olen.toNat = s.params.obufCap → ∃ t,
      exec (.wbit r) s = .next t ∧ s.failedWrite t (encode (.wbit r)))

/-- R79: WBITS n appends bits n−1 .. 0 of X to the output stream, for every 1 ≤ n ≤ 64; other n raise InvalidParameter, a
closed writer ClosedStream, both with no effect, and a byte that OBUF does not take raises IO (R126). -/
def Obligations.WbitsAppendsTheLowBits : Prop :=
  wordsDecodeTo 0x7FFF80FF 0x00000012 (fun w => .wbits (fField w) (rField w)) ∧
  ∀ (s : State) (f : BitVec 7) (r : OperandSource), s.err = 0 →
    (f.toNat < 1 ∨ 64 < f.toNat →
      exec (.wbits f r) s = .next { s with err := 3, errcmd := encode (.wbits f r) }) ∧
    (1 ≤ f.toNat → f.toNat ≤ 64 → s.wclosed = true →
      exec (.wbits f r) s = .next { s with err := 8, errcmd := encode (.wbits f r) }) ∧
    (1 ≤ f.toNat → f.toNat ≤ 64 → s.wclosed = false → s.hasRoom f.toNat → ∃ t,
      exec (.wbits f r) s = .next t ∧ s.appends t (bitsOf f.toNat (s.operand r).toNat)) ∧
    (1 ≤ f.toNat → f.toNat ≤ 64 → s.wclosed = false → s.lacksRoom f.toNat → ∃ t,
      exec (.wbits f r) s = .next t ∧ s.failedWrite t (encode (.wbits f r)))

/-- R80: WCLOSE on an open writer pads the pending bits with zero bits to a byte, stores it at OBUF[OLEN], and closes; with
no pending bit it only closes; on a closed writer it does nothing; where OBUF is full it raises IO with no effect. In every
case that closes, the output stream is the old one with 0 to 7 zero bits appended. -/
def Obligations.WcloseFlushesAndCloses : Prop :=
  decode 0x00000013 = .ok .wclose ∧
  ∀ s : State, s.err = 0 →
    (s.wclosed = true → exec .wclose s = .next s) ∧
    (s.wclosed = false → s.wcnt = 0 → exec .wclose s = .next { s with wclosed := true }) ∧
    (s.wclosed = false → 1 ≤ s.wcnt.toNat → s.wcnt.toNat ≤ 7 → s.olen.toNat < s.params.obufCap →
      s.params.obufCap ≤ 2 ^ 32 - 1 → ∃ t,
      exec .wclose s = .next t ∧
      t = { s with obuf := t.obuf, olen := t.olen, wacc := 0, wcnt := 0, wclosed := true } ∧
      t.olen.toNat = s.olen.toNat + 1 ∧
      (∀ i, t.obuf.byteAt? i =
        if i = s.olen.toNat then some (BitVec.ofNat 8 (s.wacc.toNat * 2 ^ (8 - s.wcnt.toNat))) else s.obuf.byteAt? i) ∧
      t.outputBits = s.outputBits ++ List.replicate (8 - s.wcnt.toNat) false) ∧
    (s.wclosed = false → s.wcnt ≠ 0 → s.olen.toNat = s.params.obufCap →
      exec .wclose s = .next { s with err := 1, errcmd := 0x00000013 })

/-- R81: ROPEN opens the stream IBUF[0 .. X−1], for every X up to IBUF_CAP; REOF then is 1 exactly when X = 0; a larger X
raises InvalidParameter with no effect. -/
def Obligations.RopenOpensTheInputStream : Prop :=
  wordsDecodeTo 0x7FFFFFFF 0x00000018 (fun w => .ropen (rField w)) ∧
  ∀ (s : State) (r : OperandSource), s.err = 0 → s.params.legal = true →
    (s.params.ibufCap < (s.operand r).toNat →
      exec (.ropen r) s = .next { s with err := 3, errcmd := encode (.ropen r) }) ∧
    ((s.operand r).toNat ≤ s.params.ibufCap → ∃ t,
      exec (.ropen r) s = .next t ∧ t = { s with ilen := t.ilen, rpos := 0 } ∧
      t.ilen.toNat = (s.operand r).toNat ∧ (t.reof = true ↔ (s.operand r).toNat = 0))

/-- R76, R82: RBIT puts bit IBUF[RPOS >> 3][7 − (RPOS & 7)] in RES and moves RPOS on; at the end of the stream it raises
EndOfStream with no effect. -/
def Obligations.RbitReadsOneBit : Prop :=
  decode 0x00000019 = .ok .rbit ∧
  ∀ s : State, s.err = 0 →
    (s.rpos.toNat = 8 * s.ilen.toNat → exec .rbit s = .next { s with err := 7, errcmd := 0x00000019 }) ∧
    (s.rpos.toNat ≠ 8 * s.ilen.toNat →
      exec .rbit s = .next { s with
        rpos := BitVec.ofNat 35 (s.rpos.toNat + 1)
        res := if (s.ibufByte (s.rpos.toNat / 8)).getLsbD (7 - s.rpos.toNat % 8) then 1 else 0 })

/-- R83: RBITS n reads the next n bits of the stream into RES, most significant first, for every 1 ≤ n ≤ 64; other n raise
InvalidParameter, and fewer than n remaining bits EndOfStream, both with nothing consumed. -/
def Obligations.RbitsReadsTheNextBits : Prop :=
  wordsDecodeTo 0xFFFF80FF 0x0000001A (fun w => .rbits (fField w)) ∧
  ∀ (s : State) (f : BitVec 7), s.err = 0 →
    (f.toNat < 1 ∨ 64 < f.toNat → exec (.rbits f) s = .next { s with err := 3, errcmd := encode (.rbits f) }) ∧
    (1 ≤ f.toNat → f.toNat ≤ 64 → 8 * s.ilen.toNat < s.rpos.toNat + f.toNat →
      exec (.rbits f) s = .next { s with err := 7, errcmd := encode (.rbits f) }) ∧
    (1 ≤ f.toNat → f.toNat ≤ 64 → s.rpos.toNat + f.toNat ≤ 8 * s.ilen.toNat → ∃ t,
      exec (.rbits f) s = .next t ∧ t = { s with res := t.res, rpos := t.rpos } ∧
      t.rpos.toNat = s.rpos.toNat + f.toNat ∧
      t.res.toNat < 2 ^ f.toNat ∧ bitsOf f.toNat t.res.toNat = s.unreadBits.take f.toNat)

/-- The round-trip law that the spec infers in 40_bitstream.md section 4 from R75, R76, R79, R80, R81 and R83: write any
fields (n_i, v_i) from WOPEN, close, hand the bytes OBUF[0 .. OLEN−1] to a reader and open them there: reading the same
widths back gives v_i mod 2^(n_i), OLEN is ⌈(Σ n_i)/8⌉, and what remains unread are 0 to 7 zero bits. -/
def Obligations.FieldsRoundTripThroughTheStream : Prop :=
  ∀ (s d : State) (fs : List (BitVec 7 × Word64)),
    s.err = 0 → (∀ f ∈ fs, 1 ≤ f.1.toNat ∧ f.1.toNat ≤ 64) →
    s.params.obufCap ≤ 2 ^ 32 - 1 → (fieldBits fs + 7) / 8 ≤ s.params.obufCap →
    ∃ s1 s2 s3,
      exec .wopen s = .next s1 ∧ writeFields fs s1 = some s2 ∧ exec .wclose s2 = .next s3 ∧ s3.err = 0 ∧
      s3.olen.toNat = (fieldBits fs + 7) / 8 ∧
      (d.err = 0 → d.params.legal = true → s3.olen.toNat ≤ d.params.ibufCap → d.opd.toNat = s3.olen.toNat →
        (∀ i, i < s3.olen.toNat → s3.obuf.byteAt? i = some (d.ibufByte i)) →
        ∃ d1 d2 vs,
          exec (.ropen .opd) d = .next d1 ∧ readFields (fs.map (·.1)) d1 = some (vs, d2) ∧
          vs.map (·.toNat) = fs.map (fun f => f.2.toNat % 2 ^ f.1.toNat) ∧
          d2.unreadBits = List.replicate (8 * s3.olen.toNat - fieldBits fs) false ∧
          8 * s3.olen.toNat - fieldBits fs ≤ 7)

/-! ## The Golomb coder (41_golomb.md) -/

/-- R87: GSETM sets GM, BFORCE and the parameters of R85, for every m in 1 .. 2^32 − 1 and force flag 0 or 1, and GMV
becomes 1; any other F or m raises InvalidParameter with no effect. -/
def Obligations.GsetmSetsTheParameters : Prop :=
  wordsDecodeTo 0x7FFF80FF 0x00000020 (fun w => .gsetm (fField w) (rField w)) ∧
  ∀ (s : State) (f : BitVec 7) (r : OperandSource), s.err = 0 →
    (1 < f.toNat ∨ (s.operand r).toNat = 0 ∨ 2 ^ 32 - 1 < (s.operand r).toNat →
      exec (.gsetm f r) s = .next { s with err := 3, errcmd := encode (.gsetm f r) }) ∧
    (f.toNat ≤ 1 → 1 ≤ (s.operand r).toNat → (s.operand r).toNat ≤ 2 ^ 32 - 1 → ∃ t,
      exec (.gsetm f r) s = .next t ∧ t = { s with gm := t.gm, gb := t.gb, gt := t.gt, bforce := t.bforce } ∧
      t.gm.toNat = (s.operand r).toNat ∧
      (t.gb.toNat, t.gt.toNat) = golombParams s.params (s.operand r).toNat (decide (f.toNat = 1)) ∧
      t.bforce = decide (f.toNat = 1) ∧ t.gmv = true)

/-- R85, with ceil_log2 of R19: b0 is the least exponent with 2^b0 ≥ m, the image-mode force turns b0 = 0 into b = 1, and
t = 2^tb − m with tb as FORCE_T_FROM says. The spec infers the last clause from R19 (it marks it as derived): t < 2^31, and
t < m but in the one case it names. -/
def Obligations.GolombParametersAreAsDefined : Prop :=
  ∀ (p : Config.Params) (m : Nat) (f : Bool), 1 ≤ m → m ≤ 2 ^ 32 - 1 →
    ∃ b0 b t, golombParams p m f = (b, t) ∧
      m ≤ 2 ^ b0 ∧ (∀ k, k < b0 → 2 ^ k < m) ∧ b0 ≤ 32 ∧ (b0 = 0 ↔ m = 1) ∧
      b = (if f = true ∧ b0 = 0 then 1 else b0) ∧
      t + m = 2 ^ (if p.forceTFrom = .forcedB then b else b0) ∧
      t < 2 ^ 31 ∧ (t < m ∨ (f = true ∧ m = 1 ∧ p.forceTFrom = .forcedB ∧ t = 1))

/-- R88, R86: GENC appends Code(u) for u = X, whatever the quotient; GM = 0 raises InvalidParameter and a closed writer
ClosedStream, both with no effect, and a byte that OBUF does not take raises IO (R126). -/
def Obligations.GencAppendsTheCode : Prop :=
  wordsDecodeTo 0x7FFFFFFF 0x00000021 (fun w => .genc (rField w)) ∧
  ∀ (s : State) (r : OperandSource), s.err = 0 →
    (s.gm = 0 → exec (.genc r) s = .next { s with err := 3, errcmd := encode (.genc r) }) ∧
    (s.gm ≠ 0 → s.wclosed = true → exec (.genc r) s = .next { s with err := 8, errcmd := encode (.genc r) }) ∧
    (s.gm ≠ 0 → s.wclosed = false → s.hasRoom (s.codeOf (s.operand r).toNat).length → ∃ t,
      exec (.genc r) s = .next t ∧ s.appends t (s.codeOf (s.operand r).toNat)) ∧
    (s.gm ≠ 0 → s.wclosed = false → s.lacksRoom (s.codeOf (s.operand r).toNat).length → ∃ t,
      exec (.genc r) s = .next t ∧ s.failedWrite t (encode (.genc r)))

/-- R92: GENCS appends Code(Fold(v)) for v = sint64(X), with the refusals of GENC; Fold(v) is 2v for v ≥ 0, else −2v − 1
(R90). RES is not written. -/
def Obligations.GencsAppendsTheFoldedCode : Prop :=
  wordsDecodeTo 0x7FFFFFFF 0x00000023 (fun w => .gencs (rField w)) ∧
  ∀ (s : State) (r : OperandSource) (u : Nat), s.err = 0 →
    (u : Int) = (if 0 ≤ (s.operand r).toInt then 2 * (s.operand r).toInt else -2 * (s.operand r).toInt - 1) →
    (s.gm = 0 → exec (.gencs r) s = .next { s with err := 3, errcmd := encode (.gencs r) }) ∧
    (s.gm ≠ 0 → s.wclosed = true → exec (.gencs r) s = .next { s with err := 8, errcmd := encode (.gencs r) }) ∧
    (s.gm ≠ 0 → s.wclosed = false → s.hasRoom (s.codeOf u).length → ∃ t,
      exec (.gencs r) s = .next t ∧ s.appends t (s.codeOf u)) ∧
    (s.gm ≠ 0 → s.wclosed = false → s.lacksRoom (s.codeOf u).length → ∃ t,
      exec (.gencs r) s = .next t ∧ s.failedWrite t (encode (.gencs r)))

/-- R89 read on the codes of R86: where the unread bits begin with Code(u) and u div m ≤ QCAP, GDEC puts u in RES,
consumes exactly the code's bits and changes nothing else. The one other pattern that decodes (R89's corner case, U6): with
m = 1, the force flag and FORCE_T_FROM = unforced_b, a remainder bit 1 after q zero bits and the '1' gives q + 1. -/
def Obligations.GdecReadsACode : Prop :=
  decode 0x00000022 = .ok .gdec ∧
  (∀ (s : State) (u : Nat) (rest : List Bool),
    s.err = 0 → s.params.legal = true → s.gm ≠ 0 → s.legalGolomb →
    u / s.gm.toNat ≤ s.params.qcap → s.unreadBits = s.codeOf u ++ rest →
    ∃ t, exec .gdec s = .next t ∧ t = { s with res := t.res, rpos := t.rpos } ∧
      t.res.toNat = u ∧ t.rpos.toNat = s.rpos.toNat + (s.codeOf u).length ∧ t.unreadBits = rest) ∧
  (∀ (s : State) (q : Nat) (rest : List Bool),
    s.err = 0 → s.params.legal = true → s.params.forceTFrom = .unforcedB → s.gm = 1 → s.bforce = true → s.legalGolomb →
    q ≤ s.params.qcap → s.unreadBits = List.replicate q false ++ [true, true] ++ rest →
    ∃ t, exec .gdec s = .next t ∧ t = { s with res := t.res, rpos := t.rpos } ∧
      t.res.toNat = q + 1 ∧
      t.rpos.toNat = s.rpos.toNat + q + 2 ∧ t.unreadBits = rest)

/-- R93 read on the codes of R86: as GDEC, and RES gets Unfold(u): u div 2 for even u, −((u + 1) div 2) for odd u (R91).
In R89's corner case (U6) it gets Unfold(q + 1). -/
def Obligations.GdecsReadsAFoldedCode : Prop :=
  decode 0x00000024 = .ok .gdecs ∧
  (∀ (s : State) (u : Nat) (rest : List Bool),
    s.err = 0 → s.params.legal = true → s.gm ≠ 0 → s.legalGolomb →
    u / s.gm.toNat ≤ s.params.qcap → s.unreadBits = s.codeOf u ++ rest →
    ∃ t, exec .gdecs s = .next t ∧ t = { s with res := t.res, rpos := t.rpos } ∧
      t.res.toInt = (if u % 2 = 0 then (u : Int) / 2 else -(((u : Int) + 1) / 2)) ∧
      t.rpos.toNat = s.rpos.toNat + (s.codeOf u).length ∧ t.unreadBits = rest) ∧
  (∀ (s : State) (q : Nat) (rest : List Bool),
    s.err = 0 → s.params.legal = true → s.params.forceTFrom = .unforcedB → s.gm = 1 → s.bforce = true → s.legalGolomb →
    q ≤ s.params.qcap → s.unreadBits = List.replicate q false ++ [true, true] ++ rest →
    ∃ t, exec .gdecs s = .next t ∧ t = { s with res := t.res, rpos := t.rpos } ∧
      t.res.toInt = (if (q + 1) % 2 = 0 then ((q : Int) + 1) / 2 else -(((q : Int) + 2) / 2)) ∧
      t.rpos.toNat = s.rpos.toNat + q + 2 ∧ t.unreadBits = rest)

/-- R89, R93, R126: GDEC and GDECS raise InvalidParameter with no effect when GM = 0; CorruptCode when QCAP + 1 zero bits
come first; TruncatedCode when the stream ends inside a code. After the last two RPOS is unspecified in its range and
nothing else but ERR and ERRCMD has changed. -/
def Obligations.BadCodesAreRefused : Prop :=
  ∀ (s : State) (i : Instr), i = .gdec ∨ i = .gdecs → s.err = 0 →
    (s.gm = 0 → exec i s = .next { s with err := 3, errcmd := encode i }) ∧
    (∀ rest, s.gm ≠ 0 → s.unreadBits = List.replicate (s.params.qcap + 1) false ++ rest → ∃ t,
      exec i s = .next t ∧ s.failedRead t .corruptCode (encode i)) ∧
    (∀ u rest, s.gm ≠ 0 → s.legalGolomb → s.legalReader → u / s.gm.toNat ≤ s.params.qcap → rest ≠ [] →
      s.unreadBits ++ rest = s.codeOf u → ∃ t,
      exec i s = .next t ∧ s.failedRead t .truncatedCode (encode i))

/-- R90, R91: FOLD puts 2v for v ≥ 0, else −2v − 1, in RES; UNFOLD puts u div 2 for even u, else −((u + 1) div 2). No value
of the operand wraps, and nothing else changes. -/
def Obligations.FoldAndUnfoldResults : Prop :=
  wordsDecodeTo 0x7FFFFFFF 0x00000025 (fun w => .fold (rField w)) ∧
  wordsDecodeTo 0x7FFFFFFF 0x00000026 (fun w => .unfold (rField w)) ∧
  ∀ (s : State) (r : OperandSource), s.err = 0 →
    (∃ x : Word64, exec (.fold r) s = .next { s with res := x } ∧
      (x.toNat : Int) = if 0 ≤ (s.operand r).toInt then 2 * (s.operand r).toInt else -2 * (s.operand r).toInt - 1) ∧
    (∃ x : Word64, exec (.unfold r) s = .next { s with res := x } ∧
      x.toInt = if (s.operand r).toNat % 2 = 0 then ((s.operand r).toNat : Int) / 2
        else -(((s.operand r).toNat + 1 : Int) / 2))

/-- R91: UNFOLD undoes FOLD and FOLD undoes UNFOLD, on all 2^64 operands. -/
def Obligations.UnfoldInvertsFold : Prop :=
  ∀ (s : State) (r : OperandSource), s.err = 0 → ∃ t u,
    (exec (.fold r) s = .next t ∧ exec (.unfold .res) t = .next { t with res := s.operand r }) ∧
    (exec (.unfold r) s = .next u ∧ exec (.fold .res) u = .next { u with res := s.operand r })

/-- The round trip that the spec infers in 41_golomb.md section 3 from R86, R88, R89, R92 and R93: an encoder and a
decoder hold the same m, b and t. GENC writes u; where the bits it wrote are next in the decoder's stream and u div m ≤
QCAP, GDEC gives u back and consumes exactly those bits, and with u div m > QCAP it raises CorruptCode; GENCS and GDECS
do the same with a signed value. -/
def Obligations.GolombCodesRoundTrip : Prop :=
  ∀ (e d : State) (r : OperandSource) (signed : Bool) (u : Nat) (rest : List Bool),
    let enc := if signed then Instr.gencs r else Instr.genc r
    let dec := if signed then Instr.gdecs else Instr.gdec
    e.err = 0 → d.err = 0 → d.params.legal = true → e.gm ≠ 0 → e.wclosed = false →
    d.gm = e.gm → d.gb = e.gb → d.gt = e.gt → d.legalGolomb →
    u = (if signed then foldInt (e.operand r).toInt else (e.operand r).toNat) →
    e.hasRoom (e.codeOf u).length →
    ∃ e', exec enc e = .next e' ∧ e'.err = 0 ∧
      (d.unreadBits = e'.outputBits.drop e.outputBits.length ++ rest →
        (u / e.gm.toNat ≤ d.params.qcap → ∃ d', exec dec d = .next d' ∧ d'.err = 0 ∧ d'.res = e.operand r ∧
          d'.unreadBits = rest) ∧
        (d.params.qcap < u / e.gm.toNat → ∃ d', exec dec d = .next d' ∧ d.failedRead d' .corruptCode (encode dec)))

/-! ## The audio predictor (42_audio_predictor.md) -/

/-- R98, R109: ASETORD sets AORD for orders 0..3 and ISETP sets IPID for mode ids 0..8, and nothing else; any other F
raises InvalidParameter with no effect. -/
def Obligations.AsetordAndIsetpSetThePredictor : Prop :=
  wordsDecodeTo 0xFFFF80FF 0x00000030 (fun w => .asetord (fField w)) ∧
  wordsDecodeTo 0xFFFF80FF 0x00000040 (fun w => .isetp (fField w)) ∧
  ∀ (s : State) (f : BitVec 7), s.err = 0 →
    (f.toNat ≤ 3 → ∃ x : BitVec 2, exec (.asetord f) s = .next { s with aord := x } ∧ x.toNat = f.toNat) ∧
    (3 < f.toNat → exec (.asetord f) s = .next { s with err := 3, errcmd := encode (.asetord f) }) ∧
    (f.toNat ≤ 8 → ∃ x : BitVec 4, exec (.isetp f) s = .next { s with ipid := x } ∧ x.toNat = f.toNat) ∧
    (8 < f.toNat → exec (.isetp f) s = .next { s with err := 3, errcmd := encode (.isetp f) })

/-- R99: AHCLR clears the six history slots and nothing else. -/
def Obligations.AhclrClearsTheHistory : Prop :=
  decode 0x00000031 = .ok .ahclr ∧
  ∀ s : State, s.err = 0 → exec .ahclr s = .next { s with hist0 := ⟨0, 0, 0⟩, hist1 := ⟨0, 0, 0⟩ }

/-- R96, R100: APRED puts the prediction of the order in AORD from the channel's history in RES: exact, then clamped to
i16, sign-extended. Nothing else changes. -/
def Obligations.ApredPredictsFromTheHistory : Prop :=
  wordsDecodeTo 0xFFFEFFFF 0x00000032 (fun w => .apred (chField w)) ∧
  ∀ (s : State) (ch : Channel) (p : Int), s.err = 0 →
    (s.aord = 0 → p = 0) → (s.aord = 1 → p = (s.hist ch).h0.toInt) →
    (s.aord = 2 → p = 2 * (s.hist ch).h0.toInt - (s.hist ch).h1.toInt) →
    (s.aord = 3 → p = 3 * (s.hist ch).h0.toInt - 3 * (s.hist ch).h1.toInt + (s.hist ch).h2.toInt) →
    ∃ x : Word64, exec (.apred ch) s = .next { s with res := x } ∧ x.toInt = max (-32768) (min 32767 p)

/-- R97, R101: AENC puts s − p in RES, p the clamped prediction of R96, and pushes s on the channel's history; the other
channel's history and everything else stay. An s outside i16 raises InvalidParameter with no effect. -/
def Obligations.AencGivesTheResidual : Prop :=
  wordsDecodeTo 0x7FFEFFFF 0x00000033 (fun w => .aenc (chField w) (rField w)) ∧
  ∀ (s : State) (ch : Channel) (r : OperandSource), s.err = 0 →
    ((s.operand r).toInt < -32768 ∨ 32767 < (s.operand r).toInt →
      exec (.aenc ch r) s = .next { s with err := 3, errcmd := encode (.aenc ch r) }) ∧
    (-32768 ≤ (s.operand r).toInt → (s.operand r).toInt ≤ 32767 → ∃ t,
      exec (.aenc ch r) s = .next t ∧
      t = { s with res := t.res, hist0 := t.hist0, hist1 := t.hist1 } ∧
      t.res.toInt = (s.operand r).toInt - aPredict s.aord (s.hist ch) ∧
      (t.hist ch).h0.toInt = (s.operand r).toInt ∧
      (t.hist ch).h1 = (s.hist ch).h0 ∧ (t.hist ch).h2 = (s.hist ch).h1 ∧
      ∀ ch', ch' ≠ ch → t.hist ch' = s.hist ch')

/-- R97, R102: ADEC puts wrap16(p + r) in RES, the value in i16 that is p + r modulo 2^16, for every residual, and pushes
it on the channel's history; the other channel's history and everything else stay. -/
def Obligations.AdecReconstructsTheSample : Prop :=
  wordsDecodeTo 0x7FFEFFFF 0x00000034 (fun w => .adec (chField w) (rField w)) ∧
  ∀ (s : State) (ch : Channel) (r : OperandSource), s.err = 0 → ∃ t,
    exec (.adec ch r) s = .next t ∧
    t = { s with res := t.res, hist0 := t.hist0, hist1 := t.hist1 } ∧
    -32768 ≤ t.res.toInt ∧ t.res.toInt ≤ 32767 ∧
    (t.res.toInt - (aPredict s.aord (s.hist ch) + (s.operand r).toInt)) % 2 ^ 16 = 0 ∧
    (t.hist ch).h0.toInt = t.res.toInt ∧
    (t.hist ch).h1 = (s.hist ch).h0 ∧ (t.hist ch).h2 = (s.hist ch).h1 ∧
    ∀ ch', ch' ≠ ch → t.hist ch' = s.hist ch'

/-- R103: MSFWD gives side = wrap16(L − R) and mid = wrap16(R + ⌊side / 2⌋), mid in RES[15:0], side in RES[31:16], the
rest 0; where HAS_MIDSIDE = 0 it raises IllegalCommand. Nothing else changes. -/
def Obligations.MsfwdGivesMidAndSide : Prop :=
  wordsDecodeTo 0x7FFFFFFF 0x00000035 (fun w => .msfwd (rField w)) ∧
  ∀ (s : State) (r : OperandSource) (left right : Int), s.err = 0 →
    left = ((s.operand r).extractLsb' 0 16).toInt → right = ((s.operand r).extractLsb' 16 16).toInt →
    (s.params.hasMidside = false → exec (.msfwd r) s = .next { s with err := 9, errcmd := encode (.msfwd r) }) ∧
    (s.params.hasMidside = true → ∃ x : Word64, exec (.msfwd r) s = .next { s with res := x } ∧
      x.extractLsb' 16 16 = BitVec.ofInt 16 (left - right) ∧
      x.extractLsb' 0 16 = BitVec.ofInt 16 (right + (BitVec.ofInt 16 (left - right)).toInt / 2) ∧
      x.extractLsb' 32 32 = 0)

/-- R104: MSINV gives R = wrap16(mid − ⌊side / 2⌋) and L = wrap16(R + side), L in RES[15:0], R in RES[31:16], the rest 0;
where HAS_MIDSIDE = 0 it raises IllegalCommand. Nothing else changes. -/
def Obligations.MsinvGivesLeftAndRight : Prop :=
  wordsDecodeTo 0x7FFFFFFF 0x00000036 (fun w => .msinv (rField w)) ∧
  ∀ (s : State) (r : OperandSource) (mid side : Int), s.err = 0 →
    mid = ((s.operand r).extractLsb' 0 16).toInt → side = ((s.operand r).extractLsb' 16 16).toInt →
    (s.params.hasMidside = false → exec (.msinv r) s = .next { s with err := 9, errcmd := encode (.msinv r) }) ∧
    (s.params.hasMidside = true → ∃ x : Word64, exec (.msinv r) s = .next { s with res := x } ∧
      x.extractLsb' 16 16 = BitVec.ofInt 16 (mid - side / 2) ∧
      x.extractLsb' 0 16 = BitVec.ofInt 16 (mid - side / 2 + side) ∧
      x.extractLsb' 32 32 = 0)

/-- The lockstep law that the spec infers in 42_audio_predictor.md section 3 from R96, R97, R101 and R102: an encoder
and a decoder with equal AORD and equal history of a channel. AENC of any i16 sample gives a residual; ADEC of that
residual gives the sample back, and the two histories are equal again. -/
def Obligations.AudioEncoderAndDecoderStayInStep : Prop :=
  ∀ (e d : State) (ch : Channel) (r r' : OperandSource),
    e.err = 0 → d.err = 0 → d.aord = e.aord → d.hist ch = e.hist ch →
    -32768 ≤ (e.operand r).toInt → (e.operand r).toInt ≤ 32767 →
    ∃ e', exec (.aenc ch r) e = .next e' ∧ e'.err = 0 ∧
      (d.operand r' = e'.res → ∃ d', exec (.adec ch r') d = .next d' ∧ d'.err = 0 ∧
        d'.res = e.operand r ∧ d'.hist ch = e'.hist ch ∧ d'.aord = e'.aord)

/-- The mid/side round trip that the spec infers in 42_audio_predictor.md section 3 from R103 and R104: MSINV applied to
the RES of MSFWD gives the pair x[31:0] back, zero-extended, for every pair. -/
def Obligations.MidSideRoundTrip : Prop :=
  ∀ (s : State) (r : OperandSource), s.err = 0 → s.params.hasMidside = true → ∃ t,
    exec (.msfwd r) s = .next t ∧
    exec (.msinv .res) t = .next { t with res := ((s.operand r).extractLsb' 0 32).zeroExtend 64 }

/-! ## The image predictor (43_image_predictor.md) -/

/-- R110: ISETW sets the width and starts the scan at (0, 0), for every width 1 .. IMG_MAX_W, and IWV becomes 1; LB is not
touched; any other width raises InvalidParameter with no effect. -/
def Obligations.IsetwStartsAnImage : Prop :=
  wordsDecodeTo 0x7FFFFFFF 0x00000041 (fun w => .isetw (rField w)) ∧
  ∀ (s : State) (r : OperandSource), s.err = 0 → s.params.legal = true →
    ((s.operand r).toNat = 0 ∨ s.params.imgMaxW < (s.operand r).toNat →
      exec (.isetw r) s = .next { s with err := 3, errcmd := encode (.isetw r) }) ∧
    (1 ≤ (s.operand r).toNat → (s.operand r).toNat ≤ s.params.imgMaxW → ∃ t,
      exec (.isetw r) s = .next t ∧ t = { s with iw := t.iw, ix := 0, iy := 0, cul := 0 } ∧
      t.iw.toNat = (s.operand r).toNat ∧ t.iwv = true)

/-- R106, R111: IPRED puts Pred(IPID, a, b, c) in RES for the neighbours packed in X, sign-extended, mode by mode; the MED
tests are on values, in the rule's order. Nothing else changes. -/
def Obligations.IpredGivesThePrediction : Prop :=
  wordsDecodeTo 0x7FFFFFFF 0x00000042 (fun w => .ipred (rField w)) ∧
  ∀ (s : State) (r : OperandSource) (a b c : Int), s.err = 0 → s.ipid.toNat ≤ 8 →
    a = ((s.operand r).toNat % 256 : Nat) → b = ((s.operand r).toNat / 256 % 256 : Nat) →
    c = ((s.operand r).toNat / 65536 % 256 : Nat) →
    ∃ x : Word64, exec (.ipred r) s = .next { s with res := x } ∧
      (s.ipid = 0 → x.toInt = 0) ∧ (s.ipid = 1 → x.toInt = a) ∧ (s.ipid = 2 → x.toInt = b) ∧
      (s.ipid = 3 → x.toInt = c) ∧ (s.ipid = 4 → x.toInt = a + b - c) ∧
      (s.ipid = 5 → x.toInt = a + Int.tdiv (b - c) 2) ∧ (s.ipid = 6 → x.toInt = b + Int.tdiv (a - c) 2) ∧
      (s.ipid = 7 → x.toInt = Int.tdiv (a + b) 2) ∧
      (s.ipid = 8 → x.toInt =
        if a = 0 ∧ b = 0 then 0 else if a = 0 then b else if b = 0 then a
        else if c ≥ max a b then min a b else if c ≤ min a b then max a b else a + b - c)

/-- R107, R108, R112: IENC of a pixel puts pixel − prediction in RES, the prediction made of the neighbours at the scan
position, stores the pixel there and moves the scan on. With no width set, or a pixel above 255, it raises
InvalidParameter with no effect. -/
def Obligations.IencGivesTheResidual : Prop :=
  wordsDecodeTo 0x7FFFFFFF 0x00000043 (fun w => .ienc (rField w)) ∧
  ∀ (s : State) (r : OperandSource), s.err = 0 →
    (s.iw = 0 ∨ 255 < (s.operand r).toNat →
      exec (.ienc r) s = .next { s with err := 3, errcmd := encode (.ienc r) }) ∧
    (∀ a b c : Byte, s.iw ≠ 0 → (s.operand r).toNat ≤ 255 → s.ipid.toNat ≤ 8 → s.ix.toNat < s.iw.toNat →
      a = (if s.ix.toNat > 0 then s.lbAt (s.ix.toNat - 1) else 0) →
      b = (if s.iy.toNat > 0 then s.lbAt s.ix.toNat else 0) →
      c = (if s.ix.toNat > 0 ∧ s.iy.toNat > 0 then s.cul else 0) →
      ∃ t, exec (.ienc r) s = .next t ∧
        t.res.toInt = (s.operand r).toNat - predict s.ipid.toNat a.toNat b.toNat c.toNat ∧
        s.movedOn t (BitVec.ofNat 8 (s.operand r).toNat))

/-- R107, R108, R113: IDEC of a residual, every i64 value of it, reconstructs prediction + residual clamped to 0..255,
puts it in RES, stores it at the scan position and moves the scan on. With no width set it raises InvalidParameter with no
effect. -/
def Obligations.IdecReconstructsThePixel : Prop :=
  wordsDecodeTo 0x7FFFFFFF 0x00000044 (fun w => .idec (rField w)) ∧
  ∀ (s : State) (r : OperandSource), s.err = 0 →
    (s.iw = 0 → exec (.idec r) s = .next { s with err := 3, errcmd := encode (.idec r) }) ∧
    (∀ a b c : Byte, s.iw ≠ 0 → s.ipid.toNat ≤ 8 → s.ix.toNat < s.iw.toNat →
      a = (if s.ix.toNat > 0 then s.lbAt (s.ix.toNat - 1) else 0) →
      b = (if s.iy.toNat > 0 then s.lbAt s.ix.toNat else 0) →
      c = (if s.ix.toNat > 0 ∧ s.iy.toNat > 0 then s.cul else 0) →
      ∃ t, exec (.idec r) s = .next t ∧
        (t.res.toNat : Int) =
          max 0 (min 255 (predict s.ipid.toNat a.toNat b.toNat c.toNat + (s.operand r).toInt)) ∧
        s.movedOn t (BitVec.ofNat 8 t.res.toNat))

/-- The ranges that the spec infers from R106 (43_image_predictor.md, the range column and section 3): those of the
predictions and of IENC's residuals, mode by mode, for pixels and neighbours in 0..255. -/
def Obligations.ResidualsLieInTheirRanges : Prop :=
  ∀ (id : Nat) (a b c p : Int), id ≤ 8 →
    0 ≤ a → a ≤ 255 → 0 ≤ b → b ≤ 255 → 0 ≤ c → c ≤ 255 → 0 ≤ p → p ≤ 255 →
    (id = 0 → predict id a b c = 0 ∧ 0 ≤ p - predict id a b c ∧ p - predict id a b c ≤ 255) ∧
    (id = 1 ∨ id = 2 ∨ id = 3 ∨ id = 7 ∨ id = 8 → 0 ≤ predict id a b c ∧ predict id a b c ≤ 255 ∧
      -255 ≤ p - predict id a b c ∧ p - predict id a b c ≤ 255) ∧
    (id = 4 → -255 ≤ predict id a b c ∧ predict id a b c ≤ 510 ∧
      -510 ≤ p - predict id a b c ∧ p - predict id a b c ≤ 510) ∧
    (id = 5 ∨ id = 6 → -127 ≤ predict id a b c ∧ predict id a b c ≤ 382 ∧
      -382 ≤ p - predict id a b c ∧ p - predict id a b c ≤ 382)

/-- The lockstep law that the spec infers in 43_image_predictor.md section 3 from R106, R107, R108, R112 and R113: an
encoder and a decoder whose scans agree. IENC of any pixel gives a residual; IDEC of that residual gives the pixel back,
and the scans agree again. -/
def Obligations.ImageEncoderAndDecoderStayInStep : Prop :=
  ∀ (e d : State) (r r' : OperandSource),
    e.err = 0 → d.err = 0 → e.scanAgrees d → e.iw ≠ 0 → e.ix.toNat < e.iw.toNat → e.ipid.toNat ≤ 8 →
    (e.operand r).toNat ≤ 255 →
    ∃ e', exec (.ienc r) e = .next e' ∧ e'.err = 0 ∧ e'.ipid = e.ipid ∧ e'.iw = e.iw ∧ e'.ix.toNat < e'.iw.toNat ∧
      (d.operand r' = e'.res → ∃ d', exec (.idec r') d = .next d' ∧ d'.err = 0 ∧
        d'.res = e.operand r ∧ e'.scanAgrees d')

/-- The law that the spec infers in 43_image_predictor.md section 3 from R107 (and R42): LB's contents before an image
are unobservable. ISETW makes any two scans of one mode agree, whatever their LB held; and from agreeing scans IENC and
IDEC of the same operand give the same RES and scans that agree again. -/
def Obligations.LineBufferResetContentsAreUnobservable : Prop :=
  (∀ (s t : State) (r r' : OperandSource), s.err = 0 → t.err = 0 → s.ipid = t.ipid → s.operand r = t.operand r' →
    s.params.legal = true → s.params.imgMaxW = t.params.imgMaxW →
    1 ≤ (s.operand r).toNat → (s.operand r).toNat ≤ s.params.imgMaxW →
    ∃ s' t', exec (.isetw r) s = .next s' ∧ exec (.isetw r') t = .next t' ∧
      s'.err = 0 ∧ t'.err = 0 ∧ s'.scanAgrees t' ∧ s'.iw ≠ 0 ∧ s'.ix.toNat < s'.iw.toNat) ∧
  (∀ (s t : State) (r r' : OperandSource), s.err = 0 → t.err = 0 → s.scanAgrees t → s.operand r = t.operand r' →
    s.iw ≠ 0 → s.ix.toNat < s.iw.toNat →
    (∃ s' t', exec (.idec r) s = .next s' ∧ exec (.idec r') t = .next t' ∧ s'.err = 0 ∧ t'.err = 0 ∧
      s'.res = t'.res ∧ s'.scanAgrees t' ∧ s'.iw = s.iw ∧ s'.ix.toNat < s'.iw.toNat) ∧
    ((s.operand r).toNat ≤ 255 → ∃ s' t', exec (.ienc r) s = .next s' ∧ exec (.ienc r') t = .next t' ∧
      s'.err = 0 ∧ t'.err = 0 ∧ s'.res = t'.res ∧ s'.scanAgrees t' ∧ s'.iw = s.iw ∧ s'.ix.toNat < s'.iw.toNat))

/-! ## The block parameter (44_block_param.md) -/

/-- R116, R117: MCLR clears MSUM and MCNT; MACC adds |sint64(X)| to MSUM modulo 2^64 and 1 to MCNT modulo 2^32. Nothing
else changes. -/
def Obligations.MclrAndMaccAccumulate : Prop :=
  decode 0x00000050 = .ok .mclr ∧
  wordsDecodeTo 0x7FFFFFFF 0x00000051 (fun w => .macc (rField w)) ∧
  ∀ (s : State) (r : OperandSource), s.err = 0 →
    exec .mclr s = .next { s with msum := 0, mcnt := 0 } ∧
    ∃ t, exec (.macc r) s = .next t ∧ t = { s with msum := t.msum, mcnt := t.mcnt } ∧
      t.msum.toNat = (s.msum.toNat + (s.operand r).toInt.natAbs) % 2 ^ 64 ∧
      t.mcnt.toNat = (s.mcnt.toNat + 1) % 2 ^ 32

/-- R115, R118: the least m ≥ 1 with 2·S^m ≤ (S + N)^m exists (m = 1 for N = 0), and MCALC puts min(m, X) in RES for
every maximum X in 1 .. 2^32 − 1; any other X raises InvalidParameter with no effect. Nothing else changes. -/
def Obligations.McalcGivesTheClampedParameter : Prop :=
  wordsDecodeTo 0x7FFFFFFF 0x00000052 (fun w => .mcalc (rField w)) ∧
  ∀ (s : State) (r : OperandSource), s.err = 0 →
    ((s.operand r).toNat = 0 ∨ 2 ^ 32 - 1 < (s.operand r).toNat →
      exec (.mcalc r) s = .next { s with err := 3, errcmd := encode (.mcalc r) }) ∧
    (1 ≤ (s.operand r).toNat → (s.operand r).toNat ≤ 2 ^ 32 - 1 → ∃ m x,
      isBlockParameter s.params.meanRounding s.msum.toNat s.mcnt.toNat m ∧
      exec (.mcalc r) s = .next { s with res := x } ∧ x.toNat = min m (s.operand r).toNat)

/-- The monotone law that the spec infers in 44_block_param.md section 3 from R115: for a fixed N and either rounding of
the mean, the block parameter does not decrease as S grows; nor does the RES that MCALC gives for it, for the same maximum. -/
def Obligations.BlockParameterIsMonotone : Prop :=
  (∀ (rounding : Config.MeanRounding) (S S' N m m' : Nat), S ≤ S' →
    isBlockParameter rounding S N m → isBlockParameter rounding S' N m' → m ≤ m') ∧
  (∀ (s s' : State) (r r' : OperandSource), s.err = 0 → s'.err = 0 →
    s.params.meanRounding = s'.params.meanRounding → s.mcnt = s'.mcnt → s.msum.toNat ≤ s'.msum.toNat →
    s.operand r = s'.operand r' → 1 ≤ (s.operand r).toNat → (s.operand r).toNat ≤ 2 ^ 32 - 1 →
    ∃ t t', exec (.mcalc r) s = .next t ∧ exec (.mcalc r') s' = .next t' ∧ t.res.toNat ≤ t'.res.toNat)

/-- The equivalence that the spec infers in 44_block_param.md section 3 from R115: for N ≥ 1 and S ≥ 1 the criterion of
R115 gives ⌈−1 / log₂ α⌉ with α = S / (S + N), RCG's formula. -/
def Obligations.BlockParameterIsTheLogarithmFormula : Prop :=
  ∀ (S N m : Nat), 1 ≤ S → 1 ≤ N →
    (isBlockParameter .exact S N m ↔ (m : Int) = ⌈-1 / Real.logb 2 ((S : ℝ) / ((S : ℝ) + (N : ℝ)))⌉)

/-! ## The whole machine -/

/-- R125, R126, R24: a command that raises an error sets ERRCMD to its own word and writes neither RES nor OPD; and after
a precise error (any but IO from PutBit, TruncatedCode and CorruptCode) every element but ERR and ERRCMD is as before. -/
def Obligations.FailedCommandsLeaveTheirRecord : Prop :=
  ∀ (i : Instr) (s t : State), s.err = 0 → exec i s = .next t → t.err ≠ 0 →
    t.errcmd = encode i ∧ t.res = s.res ∧ t.opd = s.opd ∧ t.err ∈ [1, 3, 4, 5, 7, 8, 9] ∧
    (t.err ∈ [3, 7, 8, 9] ∨ i = .wclose → t = { s with err := t.err, errcmd := t.errcmd }) ∧
    (t.err ∈ [4, 5] → i = .gdec ∨ i = .gdecs)

/-- Which commands other than SRST (R121) write which register (R23, R24, R31-R43, R49, R51, R52): each element of the state
is as before after any command that is not named for it, but for ERR and ERRCMD, which any failing command writes (R125). No
command changes the parameters, IBUF, or the model's own pending, busData and powerUps (entries 1, 4 and 10). -/
def Obligations.RegistersAreWrittenByTheirCommandsOnly : Prop :=
  ∀ (i : Instr) (s t : State), exec i s = .next t → i ≠ .srst →
    t.params = s.params ∧ t.opd = s.opd ∧ t.ibuf = s.ibuf ∧
    t.pending = s.pending ∧ t.busData = s.busData ∧ t.powerUps = s.powerUps ∧
    (t.res ≠ s.res → writesRes i = true) ∧
    (t.gm ≠ s.gm ∨ t.gb ≠ s.gb ∨ t.gt ≠ s.gt ∨ t.bforce ≠ s.bforce → ∃ f r, i = .gsetm f r) ∧
    (t.wacc ≠ s.wacc ∨ t.wcnt ≠ s.wcnt ∨ t.olen ≠ s.olen →
      i = .wopen ∨ i = .wclose ∨ (∃ r, i = .wbit r ∨ i = .genc r ∨ i = .gencs r) ∨ ∃ f r, i = .wbits f r) ∧
    (t.obuf ≠ s.obuf → i = .wclose ∨ (∃ r, i = .wbit r ∨ i = .genc r ∨ i = .gencs r) ∨ ∃ f r, i = .wbits f r) ∧
    (t.wclosed ≠ s.wclosed → i = .wopen ∨ i = .wclose) ∧
    (t.ilen ≠ s.ilen → ∃ r, i = .ropen r) ∧
    (t.rpos ≠ s.rpos → (∃ r, i = .ropen r) ∨ i = .rbit ∨ (∃ f, i = .rbits f) ∨ i = .gdec ∨ i = .gdecs) ∧
    (t.aord ≠ s.aord → ∃ f, i = .asetord f) ∧
    (t.hist0 ≠ s.hist0 ∨ t.hist1 ≠ s.hist1 → i = .ahclr ∨ ∃ ch r, i = .aenc ch r ∨ i = .adec ch r) ∧
    (t.ipid ≠ s.ipid → ∃ f, i = .isetp f) ∧
    (t.iw ≠ s.iw → ∃ r, i = .isetw r) ∧
    (t.ix ≠ s.ix ∨ t.iy ≠ s.iy ∨ t.cul ≠ s.cul → ∃ r, i = .isetw r ∨ i = .ienc r ∨ i = .idec r) ∧
    (t.lb ≠ s.lb → ∃ r, i = .ienc r ∨ i = .idec r) ∧
    (t.msum ≠ s.msum ∨ t.mcnt ≠ s.mcnt → i = .mclr ∨ ∃ r, i = .macc r)

/-- The ranges and invariants of 10_state.md hold after every step from every state in which they hold: ERR holds a code
the core raises (R29, R131), WCNT, WACC and OLEN are in range (R34, R35), RPOS is at most 8·ILEN (R37), GB and GT belong to
GM (R32, R33), IPID, IW and IX are in range and LB holds what Nbr can read (R40, R41, R107), and the byte stores are
canonical and inside their sizes (R50-R52). -/
def Obligations.EveryStepKeepsTheStateLegal : Prop :=
  ∀ s t : State, s.legal → step s = .next t → t.legal

/-- The reset state is legal, for the model's reset parameters (entry 2) and for every other legal instance (R48). -/
def Obligations.TheResetStateIsLegal : Prop :=
  State.reset.legal ∧ ∀ p : Config.Params, p.legal = true → (State.resetWith p).legal
end

