-- ==== Sys2Proof/Laws/State.lean ====
section
/-! SUPPORT. One lemma per field per named update of the state, so that no later proof unfolds a record update. -/

namespace Sys2Proof.Machine

/-! ## latch -/

@[simp] theorem State.latch_params (s : State) (e : ErrorKind) (w : Word32) : (s.latch e w).params = s.params := rfl

@[simp] theorem State.latch_opd (s : State) (e : ErrorKind) (w : Word32) : (s.latch e w).opd = s.opd := rfl

@[simp] theorem State.latch_res (s : State) (e : ErrorKind) (w : Word32) : (s.latch e w).res = s.res := rfl

@[simp] theorem State.latch_err (s : State) (e : ErrorKind) (w : Word32) : (s.latch e w).err = e.code := rfl

@[simp] theorem State.latch_errcmd (s : State) (e : ErrorKind) (w : Word32) : (s.latch e w).errcmd = w := rfl

@[simp] theorem State.latch_gm (s : State) (e : ErrorKind) (w : Word32) : (s.latch e w).gm = s.gm := rfl

@[simp] theorem State.latch_gb (s : State) (e : ErrorKind) (w : Word32) : (s.latch e w).gb = s.gb := rfl

@[simp] theorem State.latch_gt (s : State) (e : ErrorKind) (w : Word32) : (s.latch e w).gt = s.gt := rfl

@[simp] theorem State.latch_bforce (s : State) (e : ErrorKind) (w : Word32) : (s.latch e w).bforce = s.bforce := rfl

@[simp] theorem State.latch_wacc (s : State) (e : ErrorKind) (w : Word32) : (s.latch e w).wacc = s.wacc := rfl

@[simp] theorem State.latch_wcnt (s : State) (e : ErrorKind) (w : Word32) : (s.latch e w).wcnt = s.wcnt := rfl

@[simp] theorem State.latch_wclosed (s : State) (e : ErrorKind) (w : Word32) : (s.latch e w).wclosed = s.wclosed := rfl

@[simp] theorem State.latch_olen (s : State) (e : ErrorKind) (w : Word32) : (s.latch e w).olen = s.olen := rfl

@[simp] theorem State.latch_obuf (s : State) (e : ErrorKind) (w : Word32) : (s.latch e w).obuf = s.obuf := rfl

@[simp] theorem State.latch_ilen (s : State) (e : ErrorKind) (w : Word32) : (s.latch e w).ilen = s.ilen := rfl

@[simp] theorem State.latch_rpos (s : State) (e : ErrorKind) (w : Word32) : (s.latch e w).rpos = s.rpos := rfl

@[simp] theorem State.latch_ibuf (s : State) (e : ErrorKind) (w : Word32) : (s.latch e w).ibuf = s.ibuf := rfl

@[simp] theorem State.latch_aord (s : State) (e : ErrorKind) (w : Word32) : (s.latch e w).aord = s.aord := rfl

@[simp] theorem State.latch_hist0 (s : State) (e : ErrorKind) (w : Word32) : (s.latch e w).hist0 = s.hist0 := rfl

@[simp] theorem State.latch_hist1 (s : State) (e : ErrorKind) (w : Word32) : (s.latch e w).hist1 = s.hist1 := rfl

@[simp] theorem State.latch_ipid (s : State) (e : ErrorKind) (w : Word32) : (s.latch e w).ipid = s.ipid := rfl

@[simp] theorem State.latch_iw (s : State) (e : ErrorKind) (w : Word32) : (s.latch e w).iw = s.iw := rfl

@[simp] theorem State.latch_ix (s : State) (e : ErrorKind) (w : Word32) : (s.latch e w).ix = s.ix := rfl

@[simp] theorem State.latch_iy (s : State) (e : ErrorKind) (w : Word32) : (s.latch e w).iy = s.iy := rfl

@[simp] theorem State.latch_cul (s : State) (e : ErrorKind) (w : Word32) : (s.latch e w).cul = s.cul := rfl

@[simp] theorem State.latch_lb (s : State) (e : ErrorKind) (w : Word32) : (s.latch e w).lb = s.lb := rfl

@[simp] theorem State.latch_msum (s : State) (e : ErrorKind) (w : Word32) : (s.latch e w).msum = s.msum := rfl

@[simp] theorem State.latch_mcnt (s : State) (e : ErrorKind) (w : Word32) : (s.latch e w).mcnt = s.mcnt := rfl

@[simp] theorem State.latch_draws (s : State) (e : ErrorKind) (w : Word32) : (s.latch e w).draws = s.draws := rfl

@[simp] theorem State.latch_powerUps (s : State) (e : ErrorKind) (w : Word32) : (s.latch e w).powerUps = s.powerUps := rfl

@[simp] theorem State.latch_pending (s : State) (e : ErrorKind) (w : Word32) : (s.latch e w).pending = s.pending := rfl

@[simp] theorem State.latch_busData (s : State) (e : ErrorKind) (w : Word32) : (s.latch e w).busData = s.busData := rfl

/-! ## drawWriter -/

@[simp] theorem State.drawWriter_params (s : State) : (s.drawWriter).params = s.params := rfl

@[simp] theorem State.drawWriter_opd (s : State) : (s.drawWriter).opd = s.opd := rfl

@[simp] theorem State.drawWriter_res (s : State) : (s.drawWriter).res = s.res := rfl

@[simp] theorem State.drawWriter_err (s : State) : (s.drawWriter).err = s.err := rfl

@[simp] theorem State.drawWriter_errcmd (s : State) : (s.drawWriter).errcmd = s.errcmd := rfl

@[simp] theorem State.drawWriter_gm (s : State) : (s.drawWriter).gm = s.gm := rfl

@[simp] theorem State.drawWriter_gb (s : State) : (s.drawWriter).gb = s.gb := rfl

@[simp] theorem State.drawWriter_gt (s : State) : (s.drawWriter).gt = s.gt := rfl

@[simp] theorem State.drawWriter_bforce (s : State) : (s.drawWriter).bforce = s.bforce := rfl

@[simp] theorem State.drawWriter_wacc (s : State) : (s.drawWriter).wacc = Config.drawnWacc s.draws := rfl

@[simp] theorem State.drawWriter_wcnt (s : State) : (s.drawWriter).wcnt = BitVec.ofNat 4 (Config.drawnWcnt s.draws % 9) := rfl

@[simp] theorem State.drawWriter_wclosed (s : State) : (s.drawWriter).wclosed = s.wclosed := rfl

@[simp] theorem State.drawWriter_olen (s : State) : (s.drawWriter).olen = BitVec.ofNat 32 (s.olen.toNat + Config.drawnOlen s.draws % (s.params.obufCap - s.olen.toNat + 1)) := rfl

@[simp] theorem State.drawWriter_obuf (s : State) : (s.drawWriter).obuf = s.obuf.forgetFrom s.olen.toNat := rfl

@[simp] theorem State.drawWriter_ilen (s : State) : (s.drawWriter).ilen = s.ilen := rfl

@[simp] theorem State.drawWriter_rpos (s : State) : (s.drawWriter).rpos = s.rpos := rfl

@[simp] theorem State.drawWriter_ibuf (s : State) : (s.drawWriter).ibuf = s.ibuf := rfl

@[simp] theorem State.drawWriter_aord (s : State) : (s.drawWriter).aord = s.aord := rfl

@[simp] theorem State.drawWriter_hist0 (s : State) : (s.drawWriter).hist0 = s.hist0 := rfl

@[simp] theorem State.drawWriter_hist1 (s : State) : (s.drawWriter).hist1 = s.hist1 := rfl

@[simp] theorem State.drawWriter_ipid (s : State) : (s.drawWriter).ipid = s.ipid := rfl

@[simp] theorem State.drawWriter_iw (s : State) : (s.drawWriter).iw = s.iw := rfl

@[simp] theorem State.drawWriter_ix (s : State) : (s.drawWriter).ix = s.ix := rfl

@[simp] theorem State.drawWriter_iy (s : State) : (s.drawWriter).iy = s.iy := rfl

@[simp] theorem State.drawWriter_cul (s : State) : (s.drawWriter).cul = s.cul := rfl

@[simp] theorem State.drawWriter_lb (s : State) : (s.drawWriter).lb = s.lb := rfl

@[simp] theorem State.drawWriter_msum (s : State) : (s.drawWriter).msum = s.msum := rfl

@[simp] theorem State.drawWriter_mcnt (s : State) : (s.drawWriter).mcnt = s.mcnt := rfl

@[simp] theorem State.drawWriter_draws (s : State) : (s.drawWriter).draws = s.draws + 1 := rfl

@[simp] theorem State.drawWriter_powerUps (s : State) : (s.drawWriter).powerUps = s.powerUps := rfl

@[simp] theorem State.drawWriter_pending (s : State) : (s.drawWriter).pending = s.pending := rfl

@[simp] theorem State.drawWriter_busData (s : State) : (s.drawWriter).busData = s.busData := rfl

/-! ## drawCursor -/

@[simp] theorem State.drawCursor_params (s : State) : (s.drawCursor).params = s.params := rfl

@[simp] theorem State.drawCursor_opd (s : State) : (s.drawCursor).opd = s.opd := rfl

@[simp] theorem State.drawCursor_res (s : State) : (s.drawCursor).res = s.res := rfl

@[simp] theorem State.drawCursor_err (s : State) : (s.drawCursor).err = s.err := rfl

@[simp] theorem State.drawCursor_errcmd (s : State) : (s.drawCursor).errcmd = s.errcmd := rfl

@[simp] theorem State.drawCursor_gm (s : State) : (s.drawCursor).gm = s.gm := rfl

@[simp] theorem State.drawCursor_gb (s : State) : (s.drawCursor).gb = s.gb := rfl

@[simp] theorem State.drawCursor_gt (s : State) : (s.drawCursor).gt = s.gt := rfl

@[simp] theorem State.drawCursor_bforce (s : State) : (s.drawCursor).bforce = s.bforce := rfl

@[simp] theorem State.drawCursor_wacc (s : State) : (s.drawCursor).wacc = s.wacc := rfl

@[simp] theorem State.drawCursor_wcnt (s : State) : (s.drawCursor).wcnt = s.wcnt := rfl

@[simp] theorem State.drawCursor_wclosed (s : State) : (s.drawCursor).wclosed = s.wclosed := rfl

@[simp] theorem State.drawCursor_olen (s : State) : (s.drawCursor).olen = s.olen := rfl

@[simp] theorem State.drawCursor_obuf (s : State) : (s.drawCursor).obuf = s.obuf := rfl

@[simp] theorem State.drawCursor_ilen (s : State) : (s.drawCursor).ilen = s.ilen := rfl

@[simp] theorem State.drawCursor_rpos (s : State) : (s.drawCursor).rpos = BitVec.ofNat 35 (s.rpos.toNat + Config.drawnRpos s.draws % (8 * s.ilen.toNat - s.rpos.toNat + 1)) := rfl

@[simp] theorem State.drawCursor_ibuf (s : State) : (s.drawCursor).ibuf = s.ibuf := rfl

@[simp] theorem State.drawCursor_aord (s : State) : (s.drawCursor).aord = s.aord := rfl

@[simp] theorem State.drawCursor_hist0 (s : State) : (s.drawCursor).hist0 = s.hist0 := rfl

@[simp] theorem State.drawCursor_hist1 (s : State) : (s.drawCursor).hist1 = s.hist1 := rfl

@[simp] theorem State.drawCursor_ipid (s : State) : (s.drawCursor).ipid = s.ipid := rfl

@[simp] theorem State.drawCursor_iw (s : State) : (s.drawCursor).iw = s.iw := rfl

@[simp] theorem State.drawCursor_ix (s : State) : (s.drawCursor).ix = s.ix := rfl

@[simp] theorem State.drawCursor_iy (s : State) : (s.drawCursor).iy = s.iy := rfl

@[simp] theorem State.drawCursor_cul (s : State) : (s.drawCursor).cul = s.cul := rfl

@[simp] theorem State.drawCursor_lb (s : State) : (s.drawCursor).lb = s.lb := rfl

@[simp] theorem State.drawCursor_msum (s : State) : (s.drawCursor).msum = s.msum := rfl

@[simp] theorem State.drawCursor_mcnt (s : State) : (s.drawCursor).mcnt = s.mcnt := rfl

@[simp] theorem State.drawCursor_draws (s : State) : (s.drawCursor).draws = s.draws + 1 := rfl

@[simp] theorem State.drawCursor_powerUps (s : State) : (s.drawCursor).powerUps = s.powerUps := rfl

@[simp] theorem State.drawCursor_pending (s : State) : (s.drawCursor).pending = s.pending := rfl

@[simp] theorem State.drawCursor_busData (s : State) : (s.drawCursor).busData = s.busData := rfl

/-! ## softReset -/

@[simp] theorem State.softReset_params (s : State) : (s.softReset).params = s.params := rfl

@[simp] theorem State.softReset_opd (s : State) : (s.softReset).opd = 0 := rfl

@[simp] theorem State.softReset_res (s : State) : (s.softReset).res = 0 := rfl

@[simp] theorem State.softReset_err (s : State) : (s.softReset).err = 0 := rfl

@[simp] theorem State.softReset_errcmd (s : State) : (s.softReset).errcmd = 0 := rfl

@[simp] theorem State.softReset_gm (s : State) : (s.softReset).gm = 0 := rfl

@[simp] theorem State.softReset_gb (s : State) : (s.softReset).gb = 0 := rfl

@[simp] theorem State.softReset_gt (s : State) : (s.softReset).gt = 0 := rfl

@[simp] theorem State.softReset_bforce (s : State) : (s.softReset).bforce = false := rfl

@[simp] theorem State.softReset_wacc (s : State) : (s.softReset).wacc = 0 := rfl

@[simp] theorem State.softReset_wcnt (s : State) : (s.softReset).wcnt = 0 := rfl

@[simp] theorem State.softReset_wclosed (s : State) : (s.softReset).wclosed = false := rfl

@[simp] theorem State.softReset_olen (s : State) : (s.softReset).olen = 0 := rfl

@[simp] theorem State.softReset_obuf (s : State) : (s.softReset).obuf = s.obuf := rfl

@[simp] theorem State.softReset_ilen (s : State) : (s.softReset).ilen = 0 := rfl

@[simp] theorem State.softReset_rpos (s : State) : (s.softReset).rpos = 0 := rfl

@[simp] theorem State.softReset_ibuf (s : State) : (s.softReset).ibuf = s.ibuf := rfl

@[simp] theorem State.softReset_aord (s : State) : (s.softReset).aord = 0 := rfl

@[simp] theorem State.softReset_hist0 (s : State) : (s.softReset).hist0 = History.zero := rfl

@[simp] theorem State.softReset_hist1 (s : State) : (s.softReset).hist1 = History.zero := rfl

@[simp] theorem State.softReset_ipid (s : State) : (s.softReset).ipid = 0 := rfl

@[simp] theorem State.softReset_iw (s : State) : (s.softReset).iw = 0 := rfl

@[simp] theorem State.softReset_ix (s : State) : (s.softReset).ix = 0 := rfl

@[simp] theorem State.softReset_iy (s : State) : (s.softReset).iy = 0 := rfl

@[simp] theorem State.softReset_cul (s : State) : (s.softReset).cul = 0 := rfl

@[simp] theorem State.softReset_lb (s : State) : (s.softReset).lb = s.lb := rfl

@[simp] theorem State.softReset_msum (s : State) : (s.softReset).msum = 0 := rfl

@[simp] theorem State.softReset_mcnt (s : State) : (s.softReset).mcnt = 0 := rfl

@[simp] theorem State.softReset_draws (s : State) : (s.softReset).draws = s.draws := rfl

@[simp] theorem State.softReset_powerUps (s : State) : (s.softReset).powerUps = s.powerUps := rfl

@[simp] theorem State.softReset_pending (s : State) : (s.softReset).pending = s.pending := rfl

@[simp] theorem State.softReset_busData (s : State) : (s.softReset).busData = s.busData := rfl

/-! ## hardReset -/

@[simp] theorem State.hardReset_params (s : State) : (s.hardReset).params = s.params := rfl

@[simp] theorem State.hardReset_opd (s : State) : (s.hardReset).opd = 0 := rfl

@[simp] theorem State.hardReset_res (s : State) : (s.hardReset).res = 0 := rfl

@[simp] theorem State.hardReset_err (s : State) : (s.hardReset).err = 0 := rfl

@[simp] theorem State.hardReset_errcmd (s : State) : (s.hardReset).errcmd = 0 := rfl

@[simp] theorem State.hardReset_gm (s : State) : (s.hardReset).gm = 0 := rfl

@[simp] theorem State.hardReset_gb (s : State) : (s.hardReset).gb = 0 := rfl

@[simp] theorem State.hardReset_gt (s : State) : (s.hardReset).gt = 0 := rfl

@[simp] theorem State.hardReset_bforce (s : State) : (s.hardReset).bforce = false := rfl

@[simp] theorem State.hardReset_wacc (s : State) : (s.hardReset).wacc = 0 := rfl

@[simp] theorem State.hardReset_wcnt (s : State) : (s.hardReset).wcnt = 0 := rfl

@[simp] theorem State.hardReset_wclosed (s : State) : (s.hardReset).wclosed = false := rfl

@[simp] theorem State.hardReset_olen (s : State) : (s.hardReset).olen = 0 := rfl

@[simp] theorem State.hardReset_obuf (s : State) : (s.hardReset).obuf = [] := rfl

@[simp] theorem State.hardReset_ilen (s : State) : (s.hardReset).ilen = 0 := rfl

@[simp] theorem State.hardReset_rpos (s : State) : (s.hardReset).rpos = 0 := rfl

@[simp] theorem State.hardReset_ibuf (s : State) : (s.hardReset).ibuf = [] := rfl

@[simp] theorem State.hardReset_aord (s : State) : (s.hardReset).aord = 0 := rfl

@[simp] theorem State.hardReset_hist0 (s : State) : (s.hardReset).hist0 = History.zero := rfl

@[simp] theorem State.hardReset_hist1 (s : State) : (s.hardReset).hist1 = History.zero := rfl

@[simp] theorem State.hardReset_ipid (s : State) : (s.hardReset).ipid = 0 := rfl

@[simp] theorem State.hardReset_iw (s : State) : (s.hardReset).iw = 0 := rfl

@[simp] theorem State.hardReset_ix (s : State) : (s.hardReset).ix = 0 := rfl

@[simp] theorem State.hardReset_iy (s : State) : (s.hardReset).iy = 0 := rfl

@[simp] theorem State.hardReset_cul (s : State) : (s.hardReset).cul = 0 := rfl

@[simp] theorem State.hardReset_lb (s : State) : (s.hardReset).lb = [] := rfl

@[simp] theorem State.hardReset_msum (s : State) : (s.hardReset).msum = 0 := rfl

@[simp] theorem State.hardReset_mcnt (s : State) : (s.hardReset).mcnt = 0 := rfl

@[simp] theorem State.hardReset_draws (s : State) : (s.hardReset).draws = s.draws := rfl

@[simp] theorem State.hardReset_powerUps (s : State) : (s.hardReset).powerUps = s.powerUps + 1 := rfl

@[simp] theorem State.hardReset_pending (s : State) : (s.hardReset).pending = s.pending := rfl

@[simp] theorem State.hardReset_busData (s : State) : (s.hardReset).busData = s.busData := rfl

/-! ## advance -/

@[simp] theorem State.advance_params (s : State) (p : Byte) : (s.advance p).params = s.params := rfl

@[simp] theorem State.advance_opd (s : State) (p : Byte) : (s.advance p).opd = s.opd := rfl

@[simp] theorem State.advance_res (s : State) (p : Byte) : (s.advance p).res = s.res := rfl

@[simp] theorem State.advance_err (s : State) (p : Byte) : (s.advance p).err = s.err := rfl

@[simp] theorem State.advance_errcmd (s : State) (p : Byte) : (s.advance p).errcmd = s.errcmd := rfl

@[simp] theorem State.advance_gm (s : State) (p : Byte) : (s.advance p).gm = s.gm := rfl

@[simp] theorem State.advance_gb (s : State) (p : Byte) : (s.advance p).gb = s.gb := rfl

@[simp] theorem State.advance_gt (s : State) (p : Byte) : (s.advance p).gt = s.gt := rfl

@[simp] theorem State.advance_bforce (s : State) (p : Byte) : (s.advance p).bforce = s.bforce := rfl

@[simp] theorem State.advance_wacc (s : State) (p : Byte) : (s.advance p).wacc = s.wacc := rfl

@[simp] theorem State.advance_wcnt (s : State) (p : Byte) : (s.advance p).wcnt = s.wcnt := rfl

@[simp] theorem State.advance_wclosed (s : State) (p : Byte) : (s.advance p).wclosed = s.wclosed := rfl

@[simp] theorem State.advance_olen (s : State) (p : Byte) : (s.advance p).olen = s.olen := rfl

@[simp] theorem State.advance_obuf (s : State) (p : Byte) : (s.advance p).obuf = s.obuf := rfl

@[simp] theorem State.advance_ilen (s : State) (p : Byte) : (s.advance p).ilen = s.ilen := rfl

@[simp] theorem State.advance_rpos (s : State) (p : Byte) : (s.advance p).rpos = s.rpos := rfl

@[simp] theorem State.advance_ibuf (s : State) (p : Byte) : (s.advance p).ibuf = s.ibuf := rfl

@[simp] theorem State.advance_aord (s : State) (p : Byte) : (s.advance p).aord = s.aord := rfl

@[simp] theorem State.advance_hist0 (s : State) (p : Byte) : (s.advance p).hist0 = s.hist0 := rfl

@[simp] theorem State.advance_hist1 (s : State) (p : Byte) : (s.advance p).hist1 = s.hist1 := rfl

@[simp] theorem State.advance_ipid (s : State) (p : Byte) : (s.advance p).ipid = s.ipid := rfl

@[simp] theorem State.advance_iw (s : State) (p : Byte) : (s.advance p).iw = s.iw := rfl

@[simp] theorem State.advance_ix (s : State) (p : Byte) : (s.advance p).ix = BitVec.ofNat 32 (nextPosition s.iw.toNat s.ix.toNat s.iy.toNat).1 := rfl

@[simp] theorem State.advance_iy (s : State) (p : Byte) : (s.advance p).iy = BitVec.ofNat 32 (nextPosition s.iw.toNat s.ix.toNat s.iy.toNat).2 := rfl

@[simp] theorem State.advance_cul (s : State) (p : Byte) : (s.advance p).cul = if s.iy.toNat > 0 then s.lbAt s.ix.toNat else 0 := rfl

@[simp] theorem State.advance_lb (s : State) (p : Byte) : (s.advance p).lb = s.lb.setByte s.ix.toNat p := rfl

@[simp] theorem State.advance_msum (s : State) (p : Byte) : (s.advance p).msum = s.msum := rfl

@[simp] theorem State.advance_mcnt (s : State) (p : Byte) : (s.advance p).mcnt = s.mcnt := rfl

@[simp] theorem State.advance_draws (s : State) (p : Byte) : (s.advance p).draws = s.draws := rfl

@[simp] theorem State.advance_powerUps (s : State) (p : Byte) : (s.advance p).powerUps = s.powerUps := rfl

@[simp] theorem State.advance_pending (s : State) (p : Byte) : (s.advance p).pending = s.pending := rfl

@[simp] theorem State.advance_busData (s : State) (p : Byte) : (s.advance p).busData = s.busData := rfl

/-! ## setHist -/

@[simp] theorem State.setHist_params (s : State) (ch : Channel) (h : History) : (s.setHist ch h).params = s.params := by cases ch <;> rfl

@[simp] theorem State.setHist_opd (s : State) (ch : Channel) (h : History) : (s.setHist ch h).opd = s.opd := by cases ch <;> rfl

@[simp] theorem State.setHist_res (s : State) (ch : Channel) (h : History) : (s.setHist ch h).res = s.res := by cases ch <;> rfl

@[simp] theorem State.setHist_err (s : State) (ch : Channel) (h : History) : (s.setHist ch h).err = s.err := by cases ch <;> rfl

@[simp] theorem State.setHist_errcmd (s : State) (ch : Channel) (h : History) : (s.setHist ch h).errcmd = s.errcmd := by cases ch <;> rfl

@[simp] theorem State.setHist_gm (s : State) (ch : Channel) (h : History) : (s.setHist ch h).gm = s.gm := by cases ch <;> rfl

@[simp] theorem State.setHist_gb (s : State) (ch : Channel) (h : History) : (s.setHist ch h).gb = s.gb := by cases ch <;> rfl

@[simp] theorem State.setHist_gt (s : State) (ch : Channel) (h : History) : (s.setHist ch h).gt = s.gt := by cases ch <;> rfl

@[simp] theorem State.setHist_bforce (s : State) (ch : Channel) (h : History) : (s.setHist ch h).bforce = s.bforce := by cases ch <;> rfl

@[simp] theorem State.setHist_wacc (s : State) (ch : Channel) (h : History) : (s.setHist ch h).wacc = s.wacc := by cases ch <;> rfl

@[simp] theorem State.setHist_wcnt (s : State) (ch : Channel) (h : History) : (s.setHist ch h).wcnt = s.wcnt := by cases ch <;> rfl

@[simp] theorem State.setHist_wclosed (s : State) (ch : Channel) (h : History) : (s.setHist ch h).wclosed = s.wclosed := by cases ch <;> rfl

@[simp] theorem State.setHist_olen (s : State) (ch : Channel) (h : History) : (s.setHist ch h).olen = s.olen := by cases ch <;> rfl

@[simp] theorem State.setHist_obuf (s : State) (ch : Channel) (h : History) : (s.setHist ch h).obuf = s.obuf := by cases ch <;> rfl

@[simp] theorem State.setHist_ilen (s : State) (ch : Channel) (h : History) : (s.setHist ch h).ilen = s.ilen := by cases ch <;> rfl

@[simp] theorem State.setHist_rpos (s : State) (ch : Channel) (h : History) : (s.setHist ch h).rpos = s.rpos := by cases ch <;> rfl

@[simp] theorem State.setHist_ibuf (s : State) (ch : Channel) (h : History) : (s.setHist ch h).ibuf = s.ibuf := by cases ch <;> rfl

@[simp] theorem State.setHist_aord (s : State) (ch : Channel) (h : History) : (s.setHist ch h).aord = s.aord := by cases ch <;> rfl

@[simp] theorem State.setHist_ipid (s : State) (ch : Channel) (h : History) : (s.setHist ch h).ipid = s.ipid := by cases ch <;> rfl

@[simp] theorem State.setHist_iw (s : State) (ch : Channel) (h : History) : (s.setHist ch h).iw = s.iw := by cases ch <;> rfl

@[simp] theorem State.setHist_ix (s : State) (ch : Channel) (h : History) : (s.setHist ch h).ix = s.ix := by cases ch <;> rfl

@[simp] theorem State.setHist_iy (s : State) (ch : Channel) (h : History) : (s.setHist ch h).iy = s.iy := by cases ch <;> rfl

@[simp] theorem State.setHist_cul (s : State) (ch : Channel) (h : History) : (s.setHist ch h).cul = s.cul := by cases ch <;> rfl

@[simp] theorem State.setHist_lb (s : State) (ch : Channel) (h : History) : (s.setHist ch h).lb = s.lb := by cases ch <;> rfl

@[simp] theorem State.setHist_msum (s : State) (ch : Channel) (h : History) : (s.setHist ch h).msum = s.msum := by cases ch <;> rfl

@[simp] theorem State.setHist_mcnt (s : State) (ch : Channel) (h : History) : (s.setHist ch h).mcnt = s.mcnt := by cases ch <;> rfl

@[simp] theorem State.setHist_draws (s : State) (ch : Channel) (h : History) : (s.setHist ch h).draws = s.draws := by cases ch <;> rfl

@[simp] theorem State.setHist_powerUps (s : State) (ch : Channel) (h : History) : (s.setHist ch h).powerUps = s.powerUps := by cases ch <;> rfl

@[simp] theorem State.setHist_pending (s : State) (ch : Channel) (h : History) : (s.setHist ch h).pending = s.pending := by cases ch <;> rfl

@[simp] theorem State.setHist_busData (s : State) (ch : Channel) (h : History) : (s.setHist ch h).busData = s.busData := by cases ch <;> rfl

@[simp] theorem State.setHist_hist_same (s : State) (ch : Channel) (h : History) : (s.setHist ch h).hist ch = h := by
  cases ch <;> rfl

theorem State.setHist_hist_other (s : State) (ch ch' : Channel) (h : History) (hne : ch' ≠ ch) :
    (s.setHist ch h).hist ch' = s.hist ch' := by
  cases ch <;> cases ch' <;> first | rfl | exact absurd rfl hne

/-! ## writeOpdLo -/

@[simp] theorem State.writeOpdLo_params (s : State) (v : Word32) : (s.writeOpdLo v).params = s.params := rfl

@[simp] theorem State.writeOpdLo_res (s : State) (v : Word32) : (s.writeOpdLo v).res = s.res := rfl

@[simp] theorem State.writeOpdLo_err (s : State) (v : Word32) : (s.writeOpdLo v).err = s.err := rfl

@[simp] theorem State.writeOpdLo_errcmd (s : State) (v : Word32) : (s.writeOpdLo v).errcmd = s.errcmd := rfl

@[simp] theorem State.writeOpdLo_gm (s : State) (v : Word32) : (s.writeOpdLo v).gm = s.gm := rfl

@[simp] theorem State.writeOpdLo_gb (s : State) (v : Word32) : (s.writeOpdLo v).gb = s.gb := rfl

@[simp] theorem State.writeOpdLo_gt (s : State) (v : Word32) : (s.writeOpdLo v).gt = s.gt := rfl

@[simp] theorem State.writeOpdLo_bforce (s : State) (v : Word32) : (s.writeOpdLo v).bforce = s.bforce := rfl

@[simp] theorem State.writeOpdLo_wacc (s : State) (v : Word32) : (s.writeOpdLo v).wacc = s.wacc := rfl

@[simp] theorem State.writeOpdLo_wcnt (s : State) (v : Word32) : (s.writeOpdLo v).wcnt = s.wcnt := rfl

@[simp] theorem State.writeOpdLo_wclosed (s : State) (v : Word32) : (s.writeOpdLo v).wclosed = s.wclosed := rfl

@[simp] theorem State.writeOpdLo_olen (s : State) (v : Word32) : (s.writeOpdLo v).olen = s.olen := rfl

@[simp] theorem State.writeOpdLo_obuf (s : State) (v : Word32) : (s.writeOpdLo v).obuf = s.obuf := rfl

@[simp] theorem State.writeOpdLo_ilen (s : State) (v : Word32) : (s.writeOpdLo v).ilen = s.ilen := rfl

@[simp] theorem State.writeOpdLo_rpos (s : State) (v : Word32) : (s.writeOpdLo v).rpos = s.rpos := rfl

@[simp] theorem State.writeOpdLo_ibuf (s : State) (v : Word32) : (s.writeOpdLo v).ibuf = s.ibuf := rfl

@[simp] theorem State.writeOpdLo_aord (s : State) (v : Word32) : (s.writeOpdLo v).aord = s.aord := rfl

@[simp] theorem State.writeOpdLo_hist0 (s : State) (v : Word32) : (s.writeOpdLo v).hist0 = s.hist0 := rfl

@[simp] theorem State.writeOpdLo_hist1 (s : State) (v : Word32) : (s.writeOpdLo v).hist1 = s.hist1 := rfl

@[simp] theorem State.writeOpdLo_ipid (s : State) (v : Word32) : (s.writeOpdLo v).ipid = s.ipid := rfl

@[simp] theorem State.writeOpdLo_iw (s : State) (v : Word32) : (s.writeOpdLo v).iw = s.iw := rfl

@[simp] theorem State.writeOpdLo_ix (s : State) (v : Word32) : (s.writeOpdLo v).ix = s.ix := rfl

@[simp] theorem State.writeOpdLo_iy (s : State) (v : Word32) : (s.writeOpdLo v).iy = s.iy := rfl

@[simp] theorem State.writeOpdLo_cul (s : State) (v : Word32) : (s.writeOpdLo v).cul = s.cul := rfl

@[simp] theorem State.writeOpdLo_lb (s : State) (v : Word32) : (s.writeOpdLo v).lb = s.lb := rfl

@[simp] theorem State.writeOpdLo_msum (s : State) (v : Word32) : (s.writeOpdLo v).msum = s.msum := rfl

@[simp] theorem State.writeOpdLo_mcnt (s : State) (v : Word32) : (s.writeOpdLo v).mcnt = s.mcnt := rfl

@[simp] theorem State.writeOpdLo_draws (s : State) (v : Word32) : (s.writeOpdLo v).draws = s.draws := rfl

@[simp] theorem State.writeOpdLo_powerUps (s : State) (v : Word32) : (s.writeOpdLo v).powerUps = s.powerUps := rfl

@[simp] theorem State.writeOpdLo_pending (s : State) (v : Word32) : (s.writeOpdLo v).pending = s.pending := rfl

@[simp] theorem State.writeOpdLo_busData (s : State) (v : Word32) : (s.writeOpdLo v).busData = s.busData := rfl

/-! ## writeOpdHi -/

@[simp] theorem State.writeOpdHi_params (s : State) (v : Word32) : (s.writeOpdHi v).params = s.params := rfl

@[simp] theorem State.writeOpdHi_res (s : State) (v : Word32) : (s.writeOpdHi v).res = s.res := rfl

@[simp] theorem State.writeOpdHi_err (s : State) (v : Word32) : (s.writeOpdHi v).err = s.err := rfl

@[simp] theorem State.writeOpdHi_errcmd (s : State) (v : Word32) : (s.writeOpdHi v).errcmd = s.errcmd := rfl

@[simp] theorem State.writeOpdHi_gm (s : State) (v : Word32) : (s.writeOpdHi v).gm = s.gm := rfl

@[simp] theorem State.writeOpdHi_gb (s : State) (v : Word32) : (s.writeOpdHi v).gb = s.gb := rfl

@[simp] theorem State.writeOpdHi_gt (s : State) (v : Word32) : (s.writeOpdHi v).gt = s.gt := rfl

@[simp] theorem State.writeOpdHi_bforce (s : State) (v : Word32) : (s.writeOpdHi v).bforce = s.bforce := rfl

@[simp] theorem State.writeOpdHi_wacc (s : State) (v : Word32) : (s.writeOpdHi v).wacc = s.wacc := rfl

@[simp] theorem State.writeOpdHi_wcnt (s : State) (v : Word32) : (s.writeOpdHi v).wcnt = s.wcnt := rfl

@[simp] theorem State.writeOpdHi_wclosed (s : State) (v : Word32) : (s.writeOpdHi v).wclosed = s.wclosed := rfl

@[simp] theorem State.writeOpdHi_olen (s : State) (v : Word32) : (s.writeOpdHi v).olen = s.olen := rfl

@[simp] theorem State.writeOpdHi_obuf (s : State) (v : Word32) : (s.writeOpdHi v).obuf = s.obuf := rfl

@[simp] theorem State.writeOpdHi_ilen (s : State) (v : Word32) : (s.writeOpdHi v).ilen = s.ilen := rfl

@[simp] theorem State.writeOpdHi_rpos (s : State) (v : Word32) : (s.writeOpdHi v).rpos = s.rpos := rfl

@[simp] theorem State.writeOpdHi_ibuf (s : State) (v : Word32) : (s.writeOpdHi v).ibuf = s.ibuf := rfl

@[simp] theorem State.writeOpdHi_aord (s : State) (v : Word32) : (s.writeOpdHi v).aord = s.aord := rfl

@[simp] theorem State.writeOpdHi_hist0 (s : State) (v : Word32) : (s.writeOpdHi v).hist0 = s.hist0 := rfl

@[simp] theorem State.writeOpdHi_hist1 (s : State) (v : Word32) : (s.writeOpdHi v).hist1 = s.hist1 := rfl

@[simp] theorem State.writeOpdHi_ipid (s : State) (v : Word32) : (s.writeOpdHi v).ipid = s.ipid := rfl

@[simp] theorem State.writeOpdHi_iw (s : State) (v : Word32) : (s.writeOpdHi v).iw = s.iw := rfl

@[simp] theorem State.writeOpdHi_ix (s : State) (v : Word32) : (s.writeOpdHi v).ix = s.ix := rfl

@[simp] theorem State.writeOpdHi_iy (s : State) (v : Word32) : (s.writeOpdHi v).iy = s.iy := rfl

@[simp] theorem State.writeOpdHi_cul (s : State) (v : Word32) : (s.writeOpdHi v).cul = s.cul := rfl

@[simp] theorem State.writeOpdHi_lb (s : State) (v : Word32) : (s.writeOpdHi v).lb = s.lb := rfl

@[simp] theorem State.writeOpdHi_msum (s : State) (v : Word32) : (s.writeOpdHi v).msum = s.msum := rfl

@[simp] theorem State.writeOpdHi_mcnt (s : State) (v : Word32) : (s.writeOpdHi v).mcnt = s.mcnt := rfl

@[simp] theorem State.writeOpdHi_draws (s : State) (v : Word32) : (s.writeOpdHi v).draws = s.draws := rfl

@[simp] theorem State.writeOpdHi_powerUps (s : State) (v : Word32) : (s.writeOpdHi v).powerUps = s.powerUps := rfl

@[simp] theorem State.writeOpdHi_pending (s : State) (v : Word32) : (s.writeOpdHi v).pending = s.pending := rfl

@[simp] theorem State.writeOpdHi_busData (s : State) (v : Word32) : (s.writeOpdHi v).busData = s.busData := rfl

/-! ## readObuf -/

@[simp] theorem State.readObuf_params (s : State) (i : Nat) : (s.readObuf i).params = s.params := rfl

@[simp] theorem State.readObuf_res (s : State) (i : Nat) : (s.readObuf i).res = s.res := rfl

@[simp] theorem State.readObuf_err (s : State) (i : Nat) : (s.readObuf i).err = s.err := rfl

@[simp] theorem State.readObuf_errcmd (s : State) (i : Nat) : (s.readObuf i).errcmd = s.errcmd := rfl

@[simp] theorem State.readObuf_gm (s : State) (i : Nat) : (s.readObuf i).gm = s.gm := rfl

@[simp] theorem State.readObuf_gb (s : State) (i : Nat) : (s.readObuf i).gb = s.gb := rfl

@[simp] theorem State.readObuf_gt (s : State) (i : Nat) : (s.readObuf i).gt = s.gt := rfl

@[simp] theorem State.readObuf_bforce (s : State) (i : Nat) : (s.readObuf i).bforce = s.bforce := rfl

@[simp] theorem State.readObuf_wacc (s : State) (i : Nat) : (s.readObuf i).wacc = s.wacc := rfl

@[simp] theorem State.readObuf_wcnt (s : State) (i : Nat) : (s.readObuf i).wcnt = s.wcnt := rfl

@[simp] theorem State.readObuf_wclosed (s : State) (i : Nat) : (s.readObuf i).wclosed = s.wclosed := rfl

@[simp] theorem State.readObuf_olen (s : State) (i : Nat) : (s.readObuf i).olen = s.olen := rfl

@[simp] theorem State.readObuf_obuf (s : State) (i : Nat) : (s.readObuf i).obuf = s.obuf := rfl

@[simp] theorem State.readObuf_ilen (s : State) (i : Nat) : (s.readObuf i).ilen = s.ilen := rfl

@[simp] theorem State.readObuf_rpos (s : State) (i : Nat) : (s.readObuf i).rpos = s.rpos := rfl

@[simp] theorem State.readObuf_ibuf (s : State) (i : Nat) : (s.readObuf i).ibuf = s.ibuf := rfl

@[simp] theorem State.readObuf_aord (s : State) (i : Nat) : (s.readObuf i).aord = s.aord := rfl

@[simp] theorem State.readObuf_hist0 (s : State) (i : Nat) : (s.readObuf i).hist0 = s.hist0 := rfl

@[simp] theorem State.readObuf_hist1 (s : State) (i : Nat) : (s.readObuf i).hist1 = s.hist1 := rfl

@[simp] theorem State.readObuf_ipid (s : State) (i : Nat) : (s.readObuf i).ipid = s.ipid := rfl

@[simp] theorem State.readObuf_iw (s : State) (i : Nat) : (s.readObuf i).iw = s.iw := rfl

@[simp] theorem State.readObuf_ix (s : State) (i : Nat) : (s.readObuf i).ix = s.ix := rfl

@[simp] theorem State.readObuf_iy (s : State) (i : Nat) : (s.readObuf i).iy = s.iy := rfl

@[simp] theorem State.readObuf_cul (s : State) (i : Nat) : (s.readObuf i).cul = s.cul := rfl

@[simp] theorem State.readObuf_lb (s : State) (i : Nat) : (s.readObuf i).lb = s.lb := rfl

@[simp] theorem State.readObuf_msum (s : State) (i : Nat) : (s.readObuf i).msum = s.msum := rfl

@[simp] theorem State.readObuf_mcnt (s : State) (i : Nat) : (s.readObuf i).mcnt = s.mcnt := rfl

@[simp] theorem State.readObuf_draws (s : State) (i : Nat) : (s.readObuf i).draws = s.draws := rfl

@[simp] theorem State.readObuf_powerUps (s : State) (i : Nat) : (s.readObuf i).powerUps = s.powerUps := rfl

@[simp] theorem State.readObuf_pending (s : State) (i : Nat) : (s.readObuf i).pending = s.pending := rfl

@[simp] theorem State.readObuf_busData (s : State) (i : Nat) : (s.readObuf i).busData = (s.obufByte i).zeroExtend 32 := rfl

/-- A read of OBUF leaves what the next one returns (R56). -/
@[simp] theorem State.obufByte_readObuf (s : State) (i j : Nat) : (s.readObuf i).obufByte j = s.obufByte j := rfl

/-! ## Reset -/

@[simp] theorem State.reset_err : State.reset.err = 0 := rfl
@[simp] theorem State.reset_pending : State.reset.pending = [] := rfl
@[simp] theorem State.reset_params : State.reset.params = Config.Params.default := rfl
@[simp] theorem State.resetWith_params (p : Config.Params) : (State.resetWith p).params = p := rfl

/-- What `latched` tests (R127). -/
@[simp] theorem State.latched_iff (s : State) : s.latched = true ↔ s.err ≠ 0 := by simp [State.latched]

end Sys2Proof.Machine
end

