-- ==== Sys2Proof/Laws/BlockParam.lean ====
section
/-! SUPPORT. The block parameter's search (R115, R118; entry 12). -/

namespace Sys2Proof.Machine

/-- The search finds the least value that meets R115's criterion, or stops `fuel` values on. -/
theorem searchParameter_eq_min (S T fuel m m0 : Nat) (h0 : 2 * S ^ m0 ≤ T ^ m0)
    (hmin : ∀ k, 1 ≤ k → k < m0 → T ^ k < 2 * S ^ k) (hm : 1 ≤ m) (hle : m ≤ m0) :
    searchParameter S T fuel m (S ^ m) (T ^ m) = min m0 (m + fuel) := by
  induction fuel generalizing m with
  | zero =>
    show m = min m0 (m + 0)
    omega
  | succ n ih =>
    simp only [searchParameter]
    split
    · rename_i hcrit
      have : ¬ m < m0 := fun hlt => absurd (hmin m hm hlt) (by omega)
      omega
    · rename_i hcrit
      have hne : m ≠ m0 := by
        rintro rfl
        exact hcrit h0
      rw [← pow_succ, ← pow_succ, ih (m + 1) (by omega) (by omega)]
      omega

/-- Bernoulli's inequality, on natural numbers. -/
theorem pow_add_le_add_pow (S N n : Nat) : S ^ (n + 1) + (n + 1) * S ^ n * N ≤ (S + N) ^ (n + 1) := by
  induction n with
  | zero => simp
  | succ n ih =>
    calc S ^ (n + 1 + 1) + (n + 1 + 1) * S ^ (n + 1) * N
        ≤ (S ^ (n + 1) + (n + 1) * S ^ n * N) * (S + N) := by
          ring_nf
          nlinarith [Nat.zero_le (S ^ n * N ^ 2), Nat.zero_le (n * S ^ n * N ^ 2)]
      _ ≤ (S + N) ^ (n + 1 + 1) := by
          rw [pow_succ (S + N)]
          exact Nat.mul_le_mul_right _ ih

/-- R115's criterion is met by some m: the set it takes the least of is not empty. -/
theorem criterion_met (S N : Nat) (hN : 1 ≤ N) : ∃ m, 1 ≤ m ∧ 2 * S ^ m ≤ (S + N) ^ m := by
  cases S with
  | zero => exact ⟨1, Nat.le_refl 1, by simp⟩
  | succ k =>
    refine ⟨k + 1, Nat.le_add_left 1 k, ?_⟩
    have hb := pow_add_le_add_pow (k + 1) N k
    rw [show (k + 1) * (k + 1) ^ k = (k + 1) ^ (k + 1) by rw [pow_succ']] at hb
    have : (k + 1) ^ (k + 1) * 1 ≤ (k + 1) ^ (k + 1) * N := Nat.mul_le_mul_left _ hN
    omega

end Sys2Proof.Machine
end

