-- ==== Sys2Proof/Laws/Decode.lean ====
section
/-! SUPPORT. The decoder, said once: which words decode, and to what (R63, R68). -/

namespace Sys2Proof

/-- Each opcode of R68 is in one row only. -/
theorem rowOf_opcode (row : OpcodeRow) (h : row ∈ opcodeMap) : rowOf row.opcode = some row := by
  fin_cases h <;> rfl

/-- A word that matches a row has the row's opcode. -/
theorem opField_of_match (row : OpcodeRow) (w : Word32) (h : w &&& row.format.mask = row.matchWord) :
    opField w = row.opcode := by
  have hmask : row.format.mask.extractLsb' 0 8 = BitVec.allOnes 8 := by cases row.format <;> rfl
  have hlow := congrArg (fun x => x.extractLsb' 0 8) h
  simp only [BitVec.extractLsb'_and, hmask, BitVec.and_allOnes] at hlow
  refine hlow.trans (BitVec.eq_of_getLsbD_eq fun i hi => ?_)
  simp only [OpcodeRow.matchWord, BitVec.getLsbD_extractLsb', BitVec.getLsbD_setWidth, hi, decide_true, Bool.true_and,
    Nat.zero_add]
  have : i < 32 := by omega
  simp [this]

/-- R63: a word with (w AND mask) = match is the row's command. -/
theorem decode_of_match (row : OpcodeRow) (hrow : row ∈ opcodeMap) (w : Word32)
    (h : w &&& row.format.mask = row.matchWord) : decode w = .ok (row.build w) := by
  have hop : rowOf (opField w) = some row := by rw [opField_of_match row w h, rowOf_opcode row hrow]
  simp [decode, hop, OpcodeRow.selects, h]

/-- Every word that decodes matches a row, whose command it is. -/
theorem match_of_decode (w : Word32) (i : Instr) (h : decode w = .ok i) :
    ∃ row ∈ opcodeMap, w &&& row.format.mask = row.matchWord ∧ i = row.build w := by
  unfold decode at h
  split at h
  · cases h
  · rename_i row hrow
    split at h
    · rename_i hsel
      refine ⟨row, List.mem_of_find?_eq_some hrow, by simpa [OpcodeRow.selects] using hsel, ?_⟩
      cases h
      rfl
    · split at h <;> cases h

/-- The row at a place of the opcode map, as a statement about all its words. -/
theorem decode_of_row (k : Nat) (hk : k < opcodeMap.length) (w : Word32)
    (h : w &&& opcodeMap[k].format.mask = opcodeMap[k].matchWord) : decode w = .ok (opcodeMap[k].build w) :=
  decode_of_match _ (List.getElem_mem _) w h

end Sys2Proof
end

