-- ==== Sys2Proof/Laws/Flags.lean ====
section
/-! SUPPORT. The packed words of the register window, field by field (R29, R32, R34). -/

namespace Sys2Proof.Machine

/-- Every bit of STATUS (R29). -/
theorem State.getLsbD_statusWord (s : State) (k : Nat) :
    s.statusWord.getLsbD k =
      if k < 4 then s.err.getLsbD k else if k < 8 then false else if k = 8 then s.wclosed else
        if k = 9 then s.reof else if k = 10 then s.gmv else if k = 11 then s.iwv else
          if k = 12 then s.params.hasMidside else false := by
  simp only [State.statusWord, BitVec.getLsbD_cast, BitVec.getLsbD_append, BitVec.getLsbD_ofBool, BitVec.getLsbD_zero]
  by_cases h : k < 13
  · interval_cases k <;> simp
  · simp (disch := omega) only [if_neg]

/-- STATUS as a number (R29). -/
theorem State.toNat_statusWord (s : State) :
    s.statusWord.toNat = s.err.toNat + 2 ^ 8 * s.wclosed.toNat + 2 ^ 9 * s.reof.toNat + 2 ^ 10 * s.gmv.toNat +
      2 ^ 11 * s.iwv.toNat + 2 ^ 12 * s.params.hasMidside.toNat := by
  have herr := s.err.isLt
  simp only [State.statusWord, BitVec.toNat_cast, BitVec.toNat_append, BitVec.toNat_ofBool]
  cases s.wclosed <;> cases s.reof <;> cases s.gmv <;> cases s.iwv <;> cases s.params.hasMidside <;>
    simp only [Bool.toNat_true, Bool.toNat_false] <;>
    (rw [← Nat.shiftLeft_add_eq_or_of_lt herr]; simp <;> omega)

/-- GPARAM as a number (R32). -/
theorem State.toNat_gparamWord (s : State) : s.gparamWord.toNat = s.gb.toNat + 256 * s.bforce.toNat := by
  have hgb := s.gb.isLt
  simp only [State.gparamWord, BitVec.toNat_cast, BitVec.toNat_append, BitVec.toNat_ofBool]
  cases s.bforce
  · simp
  · simp only [BitVec.toNat_zero, Nat.zero_shiftLeft, Nat.zero_or, Nat.or_zero, Bool.toNat_true]
    rw [← Nat.shiftLeft_add_eq_or_of_lt hgb, Nat.add_comm]
    rfl

/-- WSTATE as a number (R34). -/
theorem State.toNat_wstateWord (s : State) : s.wstateWord.toNat = s.wacc.toNat + 256 * s.wcnt.toNat := by
  have hacc := s.wacc.isLt
  have hcnt := s.wcnt.isLt
  simp only [State.wstateWord, BitVec.toNat_cast, BitVec.toNat_append, BitVec.toNat_zero, Nat.zero_shiftLeft, Nat.zero_or]
  rw [← Nat.shiftLeft_add_eq_or_of_lt hacc, Nat.shiftLeft_eq]
  omega

/-- A read of an aligned offset at the full width gives the window's word (R44, R45). -/
theorem State.readWindow_aligned (s : State) (o : BitVec 12) (h : o.toNat % 4 = 0) :
    s.readWindow 32 o = s.windowWord o.toNat := by
  simp [State.readWindow, windowAccess, h]

end Sys2Proof.Machine
end

