-- ==== Sys2Proof/Laws/Ops.lean ====
section
/-! SUPPORT. The shared operations: what each can do, said once. -/

namespace Sys2Proof.Machine

/-! ## The byte stores -/

@[simp] theorem Memory.byteAt?_nil (i : Nat) : Memory.byteAt? [] i = none := rfl

theorem Memory.byteAt?_setByte (m : Memory) (i : Nat) (v : Byte) (j : Nat) :
    (m.setByte i v).byteAt? j = if j = i then some v else m.byteAt? j := by
  induction m with
  | nil => simp only [Memory.setByte, Memory.byteAt?]; split <;> simp_all [eq_comm]
  | cons c m ih =>
    obtain ⟨a, w⟩ := c
    simp only [Memory.setByte]
    split
    · simp only [Memory.byteAt?]; split <;> simp_all [eq_comm]
    · split
      · subst i; simp only [Memory.byteAt?]; split <;> simp_all [eq_comm]
      · simp only [Memory.byteAt?, ih]; split
        · split
          · omega
          · rfl
        · rfl

@[simp] theorem Memory.byteAt?_setByte_same (m : Memory) (i : Nat) (v : Byte) :
    (m.setByte i v).byteAt? i = some v := by simp [Memory.byteAt?_setByte]

theorem Memory.byteAt?_setByte_other (m : Memory) {i j : Nat} (v : Byte) (h : j ≠ i) :
    (m.setByte i v).byteAt? j = m.byteAt? j := by simp [Memory.byteAt?_setByte, h]

theorem Memory.byteAt?_forgetFrom (m : Memory) (i j : Nat) :
    (m.forgetFrom i).byteAt? j = if j < i then m.byteAt? j else none := by
  induction m with
  | nil => simp [Memory.forgetFrom, Memory.byteAt?]
  | cons c m ih =>
    obtain ⟨a, w⟩ := c
    unfold Memory.forgetFrom at ih ⊢
    by_cases ha : a < i
    · simp only [List.filter_cons, ha, decide_true, if_true, Memory.byteAt?, ih]
      by_cases haj : a = j
      · subst j; simp [ha]
      · simp [haj]
    · rw [List.filter_cons_of_neg (by simpa using ha), ih, Memory.byteAt?]
      by_cases haj : a = j
      · subst j; simp [ha]
      · simp [haj]

/-- A store is in canonical form exactly when its indexes rise strictly. -/
theorem Memory.wf_iff_pairwise (m : Memory) : m.wf = true ↔ m.Pairwise (fun x y => x.1 < y.1) := by
  induction m with
  | nil => simp [Memory.wf]
  | cons c m ih =>
    cases m with
    | nil => simp [Memory.wf]
    | cons d m =>
      obtain ⟨a, v⟩ := c
      obtain ⟨b, w⟩ := d
      rw [Memory.wf, Bool.and_eq_true, ih, decide_eq_true_eq, List.pairwise_cons (a := (a, v))]
      constructor
      · rintro ⟨hab, hm⟩
        refine ⟨fun e he => ?_, hm⟩
        rcases List.mem_cons.mp he with rfl | he
        · exact hab
        · exact hab.trans ((List.pairwise_cons.mp hm).1 e he)
      · rintro ⟨h1, hm⟩
        exact ⟨h1 (b, w) (by simp), hm⟩

theorem Memory.mem_setByte (m : Memory) (i : Nat) (v : Byte) (c : Host.Cell) (h : c ∈ m.setByte i v) :
    c = (i, v) ∨ c ∈ m := by
  induction m with
  | nil => simpa [Memory.setByte] using h
  | cons d m ih =>
    obtain ⟨a, w⟩ := d
    simp only [Memory.setByte] at h
    split at h
    · simpa using h
    · split at h
      · rcases List.mem_cons.mp h with h | h
        · exact .inl h
        · exact .inr (by simp [h])
      · rcases List.mem_cons.mp h with h | h
        · exact .inr (by simp [h])
        · rcases ih h with h | h
          · exact .inl h
          · exact .inr (by simp [h])

/-- A write keeps the canonical form. -/
theorem Memory.wf_setByte (m : Memory) (i : Nat) (v : Byte) (h : m.wf = true) : (m.setByte i v).wf = true := by
  rw [Memory.wf_iff_pairwise] at h ⊢
  induction m with
  | nil => simp [Memory.setByte]
  | cons d m ih =>
    obtain ⟨a, w⟩ := d
    obtain ⟨h1, h2⟩ := List.pairwise_cons.mp h
    simp only [Memory.setByte]
    split
    · rename_i hia
      refine List.pairwise_cons.mpr ⟨fun e he => ?_, h⟩
      rcases List.mem_cons.mp he with rfl | he
      · exact hia
      · exact Nat.lt_trans hia (h1 e he)
    · split
      · rename_i hia
        subst hia
        exact List.pairwise_cons.mpr ⟨h1, h2⟩
      · refine List.pairwise_cons.mpr ⟨fun e he => ?_, ih h2⟩
        rcases Memory.mem_setByte m i v e he with rfl | he
        · show a < i
          omega
        · exact h1 e he

/-- Forgetting keeps the canonical form. -/
theorem Memory.wf_forgetFrom (m : Memory) (i : Nat) (h : m.wf = true) : (m.forgetFrom i).wf = true := by
  rw [Memory.wf_iff_pairwise] at h ⊢
  exact h.sublist List.filter_sublist

@[simp] theorem Memory.wf_nil : Memory.wf [] = true := rfl

/-- The stores of the reset state are in canonical form. -/
theorem reset_stores_wf (p : Config.Params) :
    (State.resetWith p).ibuf.wf = true ∧ (State.resetWith p).obuf.wf = true ∧ (State.resetWith p).lb.wf = true :=
  ⟨rfl, rfl, rfl⟩

/-! ## Running a command -/

theorem runCommand_done {i : Instr} {s t : State} (h : s.err = 0) : runCommand i s (.done t) = .next t := by
  simp [runCommand, State.latched, h]

theorem runCommand_raised {i : Instr} {s t : State} {e : ErrorKind} (h : s.err = 0) :
    runCommand i s (.raised e t) = .next (t.latch e (encode i)) := by
  simp [runCommand, State.latched, h]

theorem runCommand_latched {i : Instr} {s : State} {k : Ending} (h : s.err ≠ 0) : runCommand i s k = .next s := by
  unfold runCommand
  exact if_pos (by simpa using h)

/-- A command's run answers a next state, in one of three ways. -/
theorem runCommand_cases (i : Instr) (s : State) (k : Ending) :
    (s.err ≠ 0 ∧ runCommand i s k = .next s) ∨
    (s.err = 0 ∧ ∃ t, k = .done t ∧ runCommand i s k = .next t) ∨
    (s.err = 0 ∧ ∃ e t, k = .raised e t ∧ runCommand i s k = .next (t.latch e (encode i))) := by
  by_cases h : s.err = 0
  · cases k with
    | done t => exact .inr (.inl ⟨h, t, rfl, runCommand_done h⟩)
    | raised e t => exact .inr (.inr ⟨h, e, t, rfl, runCommand_raised h⟩)
  · exact .inl ⟨h, runCommand_latched h⟩

/-- Every error code is non-zero (R122). -/
theorem ErrorKind.code_ne_zero (e : ErrorKind) : e.code ≠ 0 := by cases e <;> decide

/-! ## Bits of a number -/

@[simp] theorem bitsOf_zero (v : Nat) : bitsOf 0 v = [] := rfl

@[simp] theorem bitsOf_length (n v : Nat) : (bitsOf n v).length = n := by simp [bitsOf]

theorem bitsOf_succ (n v : Nat) : bitsOf (n + 1) v = v.testBit n :: bitsOf n v := by
  simp only [bitsOf, List.range_succ_eq_map, List.map_cons, List.map_map]
  refine congrArg₂ _ (by simp) (List.map_congr_left fun k _ => ?_)
  simp only [Function.comp]
  congr 1
  omega

theorem bitsOf_congr {n v w : Nat} (h : ∀ k, k < n → v.testBit k = w.testBit k) : bitsOf n v = bitsOf n w := by
  induction n with
  | zero => rfl
  | succ n ih =>
    rw [bitsOf_succ, bitsOf_succ, h n (by omega), ih fun k hk => h k (by omega)]

/-- A bit appended at the least significant end. -/
theorem bitsOf_snoc (n v : Nat) (b : Bool) : bitsOf (n + 1) (2 * v + b.toNat) = bitsOf n v ++ [b] := by
  induction n generalizing v with
  | zero => cases b <;> simp [bitsOf_succ, Nat.testBit_zero]
  | succ n ih =>
    rw [bitsOf_succ, ih, bitsOf_succ]
    congr 1
    rw [Nat.testBit_succ]
    congr 1
    cases b
    · simp
    · simp
      omega

/-! ## The bit writer -/

/-- PutBit of a list of bits, first one first. -/
def putList : List Bool → State → Option State
  | [], s => some s
  | b :: bs, s => (putBit b s).bind (putList bs)

theorem putList_append (a b : List Bool) (s : State) : putList (a ++ b) s = (putList a s).bind (putList b) := by
  induction a generalizing s with
  | nil => rfl
  | cons x a ih =>
    simp only [List.cons_append, putList]
    cases putBit x s with
    | none => rfl
    | some t => simp [ih]

theorem putNat_eq_putList (n v : Nat) (s : State) : putNat n v s = putList (bitsOf n v) s := by
  induction n generalizing s with
  | zero => rfl
  | succ n ih =>
    simp only [putNat, bitsOf_succ, putList]
    congr 1
    funext t
    exact ih t

theorem putZeros_eq_putList (q : Nat) (s : State) : putZeros q s = putList (List.replicate q false) s := by
  induction q generalizing s with
  | zero => rfl
  | succ q ih =>
    simp only [putZeros, List.replicate_succ, putList]
    congr 1
    funext t
    exact ih t

theorem putBit_eq_putList (b : Bool) (s : State) : putBit b s = putList [b] s := by
  simp only [putList]
  cases putBit b s <;> rfl

/-- What one PutBit does where it succeeds (R75). -/
theorem putBit_appends (b : Bool) (s : State) (h : s.hasRoom 1) : ∃ t, putBit b s = some t ∧ s.appends t [b] := by
  obtain ⟨h1, h2, h3⟩ := h
  by_cases hw : s.wcnt.toNat = 7
  · have hne : s.olen.toNat ≠ s.params.obufCap := by rw [hw] at h2; omega
    have hol : (s.olen.toNat + 1) % 2 ^ 32 = s.olen.toNat + 1 := Nat.mod_eq_of_lt (by rw [hw] at h2; omega)
    refine ⟨_, by simp only [putBit, hw, if_neg hne]; rfl, ?_, ?_, ?_, ?_, rfl⟩
    · simp only [State.outputBits, BitVec.toNat_ofNat, hol, hw, List.range_succ, List.flatMap_append, List.append_assoc]
      congr 1
      · refine List.flatMap_congr fun i hi => ?_
        rw [Memory.byteAt?_setByte_other _ _ (by have := List.mem_range.mp hi; omega)]
      · simp only [List.flatMap_cons, List.flatMap_nil, Memory.byteAt?_setByte_same, Option.getD_some, BitVec.toNat_ofNat]
        rw [show (0 : BitVec 4).toNat = 0 from rfl, bitsOf_zero, List.append_nil, List.append_nil, ← bitsOf_snoc 7]
        refine bitsOf_congr fun k hk => ?_
        rw [Nat.testBit_mod_two_pow]
        simp [hk]
    · simp only [BitVec.toNat_ofNat, hol, hw, List.length_singleton]
    · simp [hw]
    · intro i hi
      simp only [BitVec.toNat_ofNat, hol] at hi
      exact Memory.byteAt?_setByte_other _ _ (by omega)
  · have hw' : s.wcnt.toNat + 1 ≠ 8 := by omega
    have hm : (s.wcnt.toNat + 1) % 2 ^ 4 = s.wcnt.toNat + 1 := Nat.mod_eq_of_lt (by omega)
    refine ⟨_, by simp only [putBit, if_neg hw']; rfl, ?_, ?_, ?_, ?_, rfl⟩
    · simp only [State.outputBits, BitVec.toNat_ofNat, hm, List.append_assoc]
      congr 1
      rw [← bitsOf_snoc]
      refine bitsOf_congr fun k hk => ?_
      rw [Nat.testBit_mod_two_pow]
      have : k < 8 := by omega
      simp [this]
    · simp only [List.length_singleton]; omega
    · simp only [BitVec.toNat_ofNat, hm, List.length_singleton]; omega
    · exact fun i _ => rfl

/-- PutBit fails exactly where the byte it completes finds OBUF full (R75). -/
theorem putBit_eq_none (b : Bool) (s : State) :
    putBit b s = none ↔ s.wcnt.toNat = 7 ∧ s.olen.toNat = s.params.obufCap := by
  simp only [putBit]
  split
  · rename_i h
    split
    · rename_i h'
      simp only [true_iff]
      exact ⟨by omega, h'⟩
    · rename_i h'
      simp only [reduceCtorEq, false_iff, not_and]
      exact fun _ => h'
  · rename_i h
    simp only [reduceCtorEq, false_iff, not_and]
    intro h'
    omega

theorem State.appends_refl (s : State) (h : s.wcnt.toNat ≤ 7) : s.appends s [] :=
  ⟨by simp, by simp only [List.length_nil]; omega, by simp only [List.length_nil]; omega, fun _ _ => rfl, rfl⟩

theorem State.appends_trans {s t u : State} {a b : List Bool} (h1 : s.appends t a) (h2 : t.appends u b) :
    s.appends u (a ++ b) := by
  obtain ⟨o1, l1, c1, m1, f1⟩ := h1
  obtain ⟨o2, l2, c2, m2, f2⟩ := h2
  refine ⟨by rw [o2, o1, List.append_assoc], ?_, ?_, fun i hi => ?_, ?_⟩
  · rw [l2, l1, c1, List.length_append]; omega
  · rw [c2, c1, List.length_append]; omega
  · rw [m2 i (by omega), m1 i (by omega)]
  · rw [f2, f1]

theorem State.appends_wcnt_le {s t : State} {a : List Bool} (h : s.appends t a) : t.wcnt.toNat ≤ 7 := by
  have := h.2.2.1; omega

theorem State.appends_params {s t : State} {a : List Bool} (h : s.appends t a) : t.params = s.params := by
  rw [h.2.2.2.2]

/-- A list of PutBits appends its bits where there is room for them (R75). -/
theorem putList_appends (bs : List Bool) (s : State) (h : s.hasRoom bs.length) :
    ∃ t, putList bs s = some t ∧ s.appends t bs := by
  induction bs generalizing s with
  | nil => exact ⟨s, rfl, s.appends_refl h.1⟩
  | cons b bs ih =>
    obtain ⟨h1, h2, h3⟩ := h
    rw [List.length_cons] at h2
    obtain ⟨t, ht, ha⟩ := putBit_appends b s ⟨h1, by omega, h3⟩
    have hl : t.olen.toNat = s.olen.toNat + (s.wcnt.toNat + 1) / 8 := ha.2.1
    have hc : t.wcnt.toNat = (s.wcnt.toNat + 1) % 8 := ha.2.2.1
    have hp := State.appends_params ha
    obtain ⟨u, hu, hb⟩ := ih t ⟨by omega, by rw [hp, hl, hc]; omega, by rw [hp]; exact h3⟩
    exact ⟨u, by simp [putList, ht, hu], State.appends_trans ha hb⟩

/-- A list of PutBits raises IO where there is no room for its bits (R75). -/
theorem putList_eq_none (bs : List Bool) (s : State) (h : s.lacksRoom bs.length) : putList bs s = none := by
  induction bs generalizing s with
  | nil => have := h.2.2.1; have := h.1; have := h.2.1; simp only [List.length_nil] at *; omega
  | cons b bs ih =>
    obtain ⟨h1, h2, h3, h4⟩ := h
    rw [List.length_cons] at h3
    by_cases hn : putBit b s = none
    · simp [putList, hn]
    · have hr : s.hasRoom 1 := by
        rw [putBit_eq_none] at hn
        refine ⟨h1, ?_, h4⟩
        by_cases hw : s.wcnt.toNat = 7
        · have : s.olen.toNat ≠ s.params.obufCap := fun hh => hn ⟨hw, hh⟩
          rw [hw]; omega
        · omega
      obtain ⟨t, ht, ha⟩ := putBit_appends b s hr
      have hl : t.olen.toNat = s.olen.toNat + (s.wcnt.toNat + 1) / 8 := ha.2.1
      have hc : t.wcnt.toNat = (s.wcnt.toNat + 1) % 8 := ha.2.2.1
      have hp := State.appends_params ha
      have h2' := hr.2.1
      rw [putList, ht, Option.bind_some]
      exact ih t ⟨by omega, by rw [hp, hl]; exact h2', by rw [hp, hl, hc]; omega, by rw [hp]; exact h4⟩

/-- GENC's bits are Code(u) (R86, R88). -/
theorem putGolomb_eq_putList (u : Nat) (s : State) : putGolomb u s = putList (s.codeOf u) s := by
  simp only [putGolomb, State.codeOf, golombCode, putZeros_eq_putList, putList_append, Option.bind_assoc]
  cases putList (List.replicate (u / s.gm.toNat) false) s with
  | none => rfl
  | some s1 =>
    simp only [Option.bind_some, ← putBit_eq_putList]
    cases putBit true s1 with
    | none => rfl
    | some s2 =>
      simp only [Option.bind_some, remainderBits, putNat_eq_putList]
      by_cases hb : s.gb.toNat = 0
      · simp [hb, putList]
      · have : s.gb.toNat ≥ 1 := by omega
        simp only [hb, this, if_true, if_false]
        split <;> rfl

/-- The writer's commands where the writer is open and there is room: the bits are appended (R78, R79, R88). -/
theorem writeBits_done (s : State) (bs : List Bool) (put : State → Option State) (hput : put s = putList bs s)
    (hc : s.wclosed = false) (hr : s.hasRoom bs.length) : ∃ t, writeBits s put = .done t ∧ s.appends t bs := by
  obtain ⟨t, ht, ha⟩ := putList_appends bs s hr
  exact ⟨t, by simp [writeBits, hc, hput, ht], ha⟩

/-- The writer's commands where there is no room: IO (R75, R126). -/
theorem writeBits_io (s : State) (bs : List Bool) (put : State → Option State) (hput : put s = putList bs s)
    (hc : s.wclosed = false) (hr : s.lacksRoom bs.length) : writeBits s put = .raised .io s.drawWriter := by
  simp [writeBits, hc, hput, putList_eq_none bs s hr]

/-- The state R126 allows after IO (entry 6). -/
theorem drawWriter_failedWrite (s : State) (w : Word32) (h : s.olen.toNat ≤ s.params.obufCap)
    (hcap : s.params.obufCap ≤ 2 ^ 32 - 1) : s.failedWrite (s.drawWriter.latch .io w) w := by
  have hmod : Config.drawnOlen s.draws % (s.params.obufCap - s.olen.toNat + 1) < s.params.obufCap - s.olen.toNat + 1 :=
    Nat.mod_lt _ (by omega)
  refine ⟨rfl, rfl, ?_, ?_, ?_, ?_, ?_, rfl⟩
  · simp only [State.latch_wcnt, State.drawWriter_wcnt, BitVec.toNat_ofNat]; omega
  · simp only [State.latch_olen, State.drawWriter_olen, BitVec.toNat_ofNat]; omega
  · simp only [State.latch_olen, State.drawWriter_olen, BitVec.toNat_ofNat]; omega
  · intro i hi
    simp [Memory.byteAt?_forgetFrom, hi]
  · intro i hi
    simp [Memory.byteAt?_forgetFrom, Nat.not_lt.mpr hi]

/-! ## The bit reader -/

/-- What GetBit does (R76). -/
theorem getBit_cases (s : State) :
    (s.rpos.toNat = 8 * s.ilen.toNat ∧ getBit s = none) ∨
    (s.rpos.toNat ≠ 8 * s.ilen.toNat ∧
      getBit s = some (s.inputBit s.rpos.toNat, { s with rpos := BitVec.ofNat 35 (s.rpos.toNat + 1) })) := by
  by_cases h : s.rpos.toNat = 8 * s.ilen.toNat
  · exact .inl ⟨h, by simp [getBit, h]⟩
  · exact .inr ⟨h, by simp [getBit, h]⟩

/-- `s` with `n` more bits consumed. -/
def State.skipBits (s : State) (n : Nat) : State := { s with rpos := BitVec.ofNat 35 (s.rpos.toNat + n) }

theorem State.skipBits_zero (s : State) : s.skipBits 0 = s := by simp [State.skipBits]

theorem State.rpos_skipBits (s : State) (n : Nat) (h : s.rpos.toNat + n ≤ 8 * s.ilen.toNat) :
    (s.skipBits n).rpos.toNat = s.rpos.toNat + n := by
  simp only [State.skipBits, BitVec.toNat_ofNat]
  exact Nat.mod_eq_of_lt (by have := s.ilen.isLt; omega)

theorem State.skipBits_skipBits (s : State) (n k : Nat) (h : s.rpos.toNat + n ≤ 8 * s.ilen.toNat) :
    (s.skipBits n).skipBits k = s.skipBits (n + k) := by
  have := s.rpos_skipBits n h
  rw [State.skipBits, this]
  simp only [State.skipBits, Nat.add_assoc]

theorem State.unreadBits_length (s : State) : s.unreadBits.length = 8 * s.ilen.toNat - s.rpos.toNat := by
  simp [State.unreadBits]

/-- The unread bits after consuming `n`. -/
theorem State.unreadBits_skipBits (s : State) (n : Nat) (h : s.rpos.toNat + n ≤ 8 * s.ilen.toNat) :
    (s.skipBits n).unreadBits = s.unreadBits.drop n := by
  have hr := s.rpos_skipBits n h
  apply List.ext_getElem
  · simp only [State.unreadBits_length, List.length_drop, hr]
    show 8 * s.ilen.toNat - _ = _
    omega
  · intro k h1 h2
    simp only [State.unreadBits, List.getElem_map, List.getElem_range, List.getElem_drop, hr]
    show s.inputBit _ = s.inputBit _
    congr 1
    omega

/-- GetBit takes the first unread bit (R76). -/
theorem getBit_unread (s : State) (b : Bool) (bs : List Bool) (h : s.unreadBits = b :: bs) :
    getBit s = some (b, s.skipBits 1) ∧ (s.skipBits 1).unreadBits = bs ∧ s.rpos.toNat + 1 ≤ 8 * s.ilen.toNat := by
  have hl : 8 * s.ilen.toNat - s.rpos.toNat = bs.length + 1 := by
    rw [← s.unreadBits_length, h]; rfl
  have hb : s.inputBit s.rpos.toNat = b := by
    have : s.unreadBits[0]'(by rw [h]; simp) = b := by simp [h]
    simpa [State.unreadBits] using this
  refine ⟨?_, ?_, by omega⟩
  · have hne : s.rpos.toNat ≠ 8 * s.ilen.toNat := by omega
    simp [getBit, hne, hb, State.skipBits]
  · rw [s.unreadBits_skipBits 1 (by omega), h]; rfl

/-- Reading n bits takes the first n unread bits, most significant first (R83). -/
theorem getNat_unread (e : ErrorKind) (n w v : Nat) (s : State) (rest : List Bool)
    (h : s.unreadBits = bitsOf n w ++ rest) :
    getNat e n v s = .ok (v * 2 ^ n + w % 2 ^ n, s.skipBits n) ∧ (s.skipBits n).unreadBits = rest ∧
      (0 < n → s.rpos.toNat + n ≤ 8 * s.ilen.toNat) := by
  induction n generalizing v s with
  | zero => exact ⟨by simp [getNat, Nat.mod_one, s.skipBits_zero], by simpa [s.skipBits_zero] using h, by omega⟩
  | succ n ih =>
    rw [bitsOf_succ, List.cons_append] at h
    obtain ⟨hg, hu, hl⟩ := getBit_unread s _ _ h
    obtain ⟨ih1, ih2, ih3⟩ := ih (2 * v + (w.testBit n).toNat) (s.skipBits 1) hu
    have hlen : s.rpos.toNat + (n + 1) ≤ 8 * s.ilen.toNat := by
      have := congrArg List.length h
      rw [s.unreadBits_length, List.length_cons, List.length_append, bitsOf_length] at this
      omega
    have hs : (s.skipBits 1).skipBits n = s.skipBits (n + 1) := by
      rw [s.skipBits_skipBits 1 n hl, Nat.add_comm]
    refine ⟨?_, by rw [← hs]; exact ih2, fun _ => hlen⟩
    rw [getNat, getBitOr, hg]
    simp only [Except.bind]
    rw [ih1, hs]
    congr 2
    rw [Nat.mod_pow_succ, ← Nat.toNat_testBit, pow_succ]
    ring

/-- The unary part of a code (R86, R89). -/
theorem getUnary_unread (q k allow : Nat) (s : State) (rest : List Bool) (hq : q ≤ allow)
    (h : s.unreadBits = List.replicate q false ++ [true] ++ rest) :
    getUnary allow k s = .ok (k + q, s.skipBits (q + 1)) ∧ (s.skipBits (q + 1)).unreadBits = rest ∧
      s.rpos.toNat + (q + 1) ≤ 8 * s.ilen.toNat := by
  induction q generalizing k allow s with
  | zero =>
    obtain ⟨hg, hu, hl⟩ := getBit_unread s true rest (by simpa using h)
    refine ⟨?_, hu, hl⟩
    rw [getUnary.eq_def]
    simp only [getBitOr, hg]
    rfl
  | succ q ih =>
    obtain ⟨hg, hu, hl⟩ := getBit_unread s false (List.replicate q false ++ [true] ++ rest)
      (by rw [h, List.replicate_succ]; rfl)
    obtain ⟨allow, rfl⟩ : ∃ a, allow = a + 1 := ⟨allow - 1, by omega⟩
    obtain ⟨ih1, ih2, ih3⟩ := ih (k + 1) allow (s.skipBits 1) (by omega) hu
    have hr := s.rpos_skipBits 1 hl
    have hil : (s.skipBits 1).ilen = s.ilen := rfl
    rw [hr, hil] at ih3
    have hs : (s.skipBits 1).skipBits (q + 1) = s.skipBits (q + 1 + 1) := by
      rw [s.skipBits_skipBits 1 _ hl]; congr 1; omega
    refine ⟨?_, by rw [← hs]; exact ih2, by omega⟩
    rw [getUnary.eq_def]
    simp only [getBitOr, hg, ih1, hs]
    congr 2
    omega

/-! ## What the host reads of OBUF -/

/-- A read of OBUF (R52, R56): 0 at or beyond OBUF_CAP, the stream's byte below OLEN where it is known, and never anything
that an earlier read has changed. -/
theorem obufByte_spec (s : State) (i : Nat) :
    (s.params.obufCap ≤ i → s.obufByte i = 0) ∧
    (∀ v, i < s.params.obufCap → i < s.olen.toNat → s.obuf.byteAt? i = some v → s.obufByte i = v) ∧
    ∀ x rest, ({ s with busData := x, pending := rest } : State).obufByte i = s.obufByte i := by
  refine ⟨fun h => if_pos h, fun v h1 h2 h3 => ?_, fun _ _ => rfl⟩
  unfold State.obufByte
  rw [if_neg (by omega), if_pos h2, h3]
  rfl

end Sys2Proof.Machine
end

