-- ==== Sys2Proof/Laws/Frames.lean ====
section
/-! SUPPORT. What a command can do to the state: one inversion lemma per shared operation, and `exec_change`, one for all
the commands, so that no later proof unfolds the meanings to find what they leave unchanged. -/

namespace Sys2Proof.Machine

/-! ## Results of the readers -/

theorem bind_ok {ε α β : Type} {x : Except ε α} {f : α → Except ε β} {b : β} (h : x.bind f = .ok b) :
    ∃ a, x = .ok a ∧ f a = .ok b := by
  cases x with
  | error e => cases h
  | ok a => exact ⟨a, rfl, h⟩

theorem bind_error {ε α β : Type} {x : Except ε α} {f : α → Except ε β} {e : ε} (h : x.bind f = .error e) :
    x = .error e ∨ ∃ a, x = .ok a ∧ f a = .error e := by
  cases x with
  | error e' => cases h; exact .inl rfl
  | ok a => exact .inr ⟨a, rfl, h⟩

/-! ## The bit writer -/

theorem putBit_frame {b : Bool} {s t : State} (h : putBit b s = some t) :
    t = { s with wacc := t.wacc, wcnt := t.wcnt, olen := t.olen, obuf := t.obuf } := by
  simp only [putBit] at h
  split at h
  · split at h <;> cases h
    rfl
  · cases h
    rfl

theorem putList_frame {l : List Bool} {s t : State} (h : putList l s = some t) :
    t = { s with wacc := t.wacc, wcnt := t.wcnt, olen := t.olen, obuf := t.obuf } := by
  induction l generalizing s with
  | nil => cases h; rfl
  | cons b l ih =>
    simp only [putList, Option.bind_eq_some_iff] at h
    obtain ⟨u, hu, h⟩ := h
    rw [ih h, putBit_frame hu]

/-- The writer's commands end in one of three ways (R78, R79, R88). -/
theorem writeBits_cases (l : List Bool) (s : State) (put : State → Option State) (hput : put s = putList l s) :
    writeBits s put = .raised .closedStream s ∨
    (∃ t, writeBits s put = .done t ∧ putList l s = some t) ∨
    writeBits s put = .raised .io s.drawWriter := by
  unfold writeBits
  split
  · exact .inl rfl
  · split
    · rename_i t ht
      exact .inr (.inl ⟨t, rfl, hput ▸ ht⟩)
    · exact .inr (.inr rfl)

/-- GENC's rule ends in one of four ways (R88). -/
theorem encodeGolomb_cases (u : Nat) (s : State) :
    encodeGolomb u s = .raised .invalidParameter s ∨
    encodeGolomb u s = .raised .closedStream s ∨
    (∃ t, encodeGolomb u s = .done t ∧ putList (s.codeOf u) s = some t) ∨
    encodeGolomb u s = .raised .io s.drawWriter := by
  unfold encodeGolomb
  split
  · exact .inl rfl
  · exact .inr (writeBits_cases _ s _ (putGolomb_eq_putList u s))

/-! ## The bit reader -/

/-- The cursor lies in the stream (R37). -/
def State.cursorOk (s : State) : Prop := s.rpos.toNat ≤ 8 * s.ilen.toNat

/-- A reader moves the cursor only, and keeps it in the stream. -/
def movesCursor (s t : State) : Prop := t = { s with rpos := t.rpos } ∧ (s.cursorOk → t.cursorOk)

theorem movesCursor_refl (s : State) : movesCursor s s := ⟨rfl, id⟩

theorem movesCursor_trans {s t u : State} (h : movesCursor s t) (h' : movesCursor t u) : movesCursor s u :=
  ⟨by rw [h'.1, h.1], fun hs => h'.2 (h.2 hs)⟩

theorem getBitOr_moves {e : ErrorKind} {s t : State} {b : Bool} (h : getBitOr e s = .ok (b, t)) : movesCursor s t := by
  rcases getBit_cases s with ⟨_, hg⟩ | ⟨hne, hg⟩ <;> rw [getBitOr, hg] at h <;> cases h
  refine ⟨rfl, fun hs => ?_⟩
  have hil := s.ilen.isLt
  unfold State.cursorOk at *
  simp only [BitVec.toNat_ofNat]
  omega

theorem getBitOr_error {e e' : ErrorKind} {s : State} (h : getBitOr e s = .error e') : e' = e := by
  rcases getBit_cases s with ⟨_, hg⟩ | ⟨_, hg⟩ <;> rw [getBitOr, hg] at h <;> cases h
  rfl

theorem getNat_moves {e : ErrorKind} {n v : Nat} {s t : State} {w : Nat} (h : getNat e n v s = .ok (w, t)) :
    movesCursor s t := by
  induction n generalizing v s with
  | zero => cases h; exact movesCursor_refl _
  | succ n ih =>
    obtain ⟨⟨b, u⟩, hu, h⟩ := bind_ok (by rwa [getNat] at h)
    exact movesCursor_trans (getBitOr_moves hu) (ih h)

theorem getNat_error {e e' : ErrorKind} {n v : Nat} {s : State} (h : getNat e n v s = .error e') : e' = e := by
  induction n generalizing v s with
  | zero => cases h
  | succ n ih =>
    rcases bind_error (by rwa [getNat] at h) with h | ⟨⟨b, u⟩, _, h⟩
    · exact getBitOr_error h
    · exact ih h

theorem getUnary_moves {a q : Nat} {s t : State} {w : Nat} (h : getUnary a q s = .ok (w, t)) : movesCursor s t := by
  induction a generalizing q s with
  | zero =>
    rw [getUnary.eq_def] at h
    dsimp only at h
    split at h <;> cases h
    exact getBitOr_moves ‹_›
  | succ a ih =>
    rw [getUnary.eq_def] at h
    dsimp only at h
    split at h
    · cases h
    · cases h
      exact getBitOr_moves ‹_›
    · rename_i hu
      exact movesCursor_trans (getBitOr_moves hu) (ih h)

theorem getUnary_error {a q : Nat} {s : State} {e : ErrorKind} (h : getUnary a q s = .error e) :
    e = .truncatedCode ∨ e = .corruptCode := by
  induction a generalizing q s with
  | zero =>
    rw [getUnary.eq_def] at h
    dsimp only at h
    split at h <;> cases h
    · exact .inl (getBitOr_error ‹_›)
    · exact .inr rfl
  | succ a ih =>
    rw [getUnary.eq_def] at h
    dsimp only at h
    split at h
    · cases h
      exact .inl (getBitOr_error ‹_›)
    · cases h
    · exact ih h

theorem getRemainder_moves {s t : State} {w : Nat} (h : getRemainder s = .ok (w, t)) : movesCursor s t := by
  unfold getRemainder at h
  split at h
  · obtain ⟨⟨r, u⟩, hu, h⟩ := bind_ok h
    dsimp only at h
    split at h
    · obtain ⟨⟨b, u'⟩, hu', h⟩ := bind_ok h
      cases h
      exact movesCursor_trans (getNat_moves hu) (getBitOr_moves hu')
    · cases h
      exact getNat_moves hu
  · cases h
    exact movesCursor_refl _

theorem getRemainder_error {s : State} {e : ErrorKind} (h : getRemainder s = .error e) : e = .truncatedCode := by
  unfold getRemainder at h
  split at h
  · rcases bind_error h with h | ⟨⟨r, u⟩, _, h⟩
    · exact getNat_error h
    · dsimp only at h
      split at h
      · rcases bind_error h with h | ⟨⟨b, u'⟩, _, h⟩
        · exact getBitOr_error h
        · cases h
      · cases h
  · cases h

theorem getGolomb_moves {s t : State} {u : Nat} (h : getGolomb s = .ok (u, t)) : movesCursor s t := by
  obtain ⟨⟨q, t1⟩, h1, h⟩ := bind_ok (by rwa [getGolomb] at h)
  obtain ⟨⟨r, t2⟩, h2, h⟩ := bind_ok h
  cases h
  exact movesCursor_trans (getUnary_moves h1) (getRemainder_moves h2)

theorem getGolomb_error {s : State} {e : ErrorKind} (h : getGolomb s = .error e) :
    e = .truncatedCode ∨ e = .corruptCode := by
  rcases bind_error (by rwa [getGolomb] at h) with h | ⟨⟨q, t1⟩, _, h⟩
  · exact getUnary_error h
  · rcases bind_error h with h | ⟨⟨r, t2⟩, _, h⟩
    · exact .inl (getRemainder_error h)
    · cases h

/-- GDEC's rule ends in one of three ways (R89). -/
theorem decodeGolomb_cases (toRes : Nat → Word64) (s : State) :
    decodeGolomb toRes s = .raised .invalidParameter s ∨
    (∃ e, (e = .truncatedCode ∨ e = .corruptCode) ∧ decodeGolomb toRes s = .raised e s.drawCursor) ∨
    ∃ u t, decodeGolomb toRes s = .done { t with res := toRes u } ∧ movesCursor s t := by
  unfold decodeGolomb
  split
  · exact .inl rfl
  · cases hg : getGolomb s with
    | error e => exact .inr (.inl ⟨e, getGolomb_error hg, rfl⟩)
    | ok r => exact .inr (.inr ⟨r.1, r.2, rfl, getGolomb_moves hg⟩)

/-- RPOS lies in the range of R126 after the draw (entry 6). -/
theorem drawCursor_failedRead (s : State) (e : ErrorKind) (w : Word32) (h : s.cursorOk) :
    s.failedRead (s.drawCursor.latch e w) e w := by
  have hmod : Config.drawnRpos s.draws % (8 * s.ilen.toNat - s.rpos.toNat + 1) < 8 * s.ilen.toNat - s.rpos.toNat + 1 :=
    Nat.mod_lt _ (by omega)
  have hil := s.ilen.isLt
  unfold State.cursorOk at h
  refine ⟨rfl, rfl, ?_, ?_, rfl⟩
  · simp only [State.latch_rpos, State.drawCursor_rpos, BitVec.toNat_ofNat]
    omega
  · simp only [State.latch_rpos, State.drawCursor_rpos, BitVec.toNat_ofNat]
    omega

/-! ## The commands -/

/-- The kinds of next state that a command other than SRST can answer, with the commands that answer them. -/
inductive Change (i : Instr) (s : State) : State → Prop
  /-- Nothing changes: a word dropped under the latch (R127), NOP, or WCLOSE on a closed writer. -/
  | same : Change i s s
  /-- A precise error (R126). -/
  | precise (e : ErrorKind)
      (he : e = .invalidParameter ∨ e = .endOfStream ∨ e = .closedStream ∨ (e = .io ∧ i = .wclose) ∨
        (e = .illegalCommand ∧ s.params.hasMidside = false ∧ ∃ r, i = .msfwd r ∨ i = .msinv r)) :
      Change i s (s.latch e (encode i))
  /-- IO from PutBit (R126). -/
  | imprecise (hi : (∃ r, i = .wbit r) ∨ (∃ f r, i = .wbits f r) ∨ (∃ r, i = .genc r) ∨ ∃ r, i = .gencs r) :
      Change i s (s.drawWriter.latch .io (encode i))
  /-- TruncatedCode or CorruptCode (R126). -/
  | badCode (e : ErrorKind) (he : e = .truncatedCode ∨ e = .corruptCode) (hi : i = .gdec ∨ i = .gdecs) :
      Change i s (s.drawCursor.latch e (encode i))
  /-- Bits are put. -/
  | put (l : List Bool) (t : State)
      (hi : (∃ r, i = .wbit r) ∨ (∃ f r, i = .wbits f r) ∨ (∃ r, i = .genc r) ∨ ∃ r, i = .gencs r)
      (ht : putList l s = some t) : Change i s t
  /-- The output stream is opened. -/
  | openedWriter (hi : i = .wopen) : Change i s { s with olen := 0, wacc := 0, wcnt := 0, wclosed := false }
  /-- The output stream is closed. -/
  | closedWriter (t : State) (hi : i = .wclose)
      (ht : t = { s with wacc := t.wacc, wcnt := t.wcnt, olen := t.olen, obuf := t.obuf, wclosed := t.wclosed }) : Change i s t
  /-- Bits are read into RES. -/
  | read (x : Word64) (t : State) (hi : i = .rbit ∨ (∃ f, i = .rbits f) ∨ i = .gdec ∨ i = .gdecs)
      (ht : movesCursor s t) : Change i s { t with res := x }
  /-- RES alone is written. -/
  | result (x : Word64) (hi : writesRes i = true) : Change i s { s with res := x }
  /-- The input stream is opened. -/
  | opened (r : OperandSource) (hi : i = .ropen r) (n : BitVec 32) : Change i s { s with ilen := n, rpos := 0 }
  /-- The Golomb parameters are set. -/
  | golomb (f : BitVec 7) (r : OperandSource) (hi : i = .gsetm f r) (m : BitVec 32) (b : BitVec 6) (t : BitVec 32)
      (force : Bool) : Change i s { s with gm := m, gb := b, gt := t, bforce := force }
  /-- The audio predictor's order is set. -/
  | order (f : BitVec 7) (hi : i = .asetord f) (k : BitVec 2) : Change i s { s with aord := k }
  /-- The image predictor's mode is set. -/
  | mode (f : BitVec 7) (hi : i = .isetp f) (k : BitVec 4) : Change i s { s with ipid := k }
  /-- An image is started. -/
  | width (r : OperandSource) (hi : i = .isetw r) (n : BitVec 32) : Change i s { s with iw := n, ix := 0, iy := 0, cul := 0 }
  /-- The history is cleared. -/
  | cleared (hi : i = .ahclr) (h0 h1 : History) : Change i s { s with hist0 := h0, hist1 := h1 }
  /-- A sample is recorded. -/
  | history (hi : ∃ ch r, i = .aenc ch r ∨ i = .adec ch r) (x : Word64) (h0 h1 : History) :
      Change i s { s with res := x, hist0 := h0, hist1 := h1 }
  /-- The image scan moves on. -/
  | pixel (r : OperandSource) (hi : i = .ienc r ∨ i = .idec r) (hw : s.iw ≠ 0) (p : Byte) (x : Word64) :
      Change i s { s.advance p with res := x }
  /-- The block accumulators change. -/
  | block (hi : i = .mclr ∨ ∃ r, i = .macc r) (a : BitVec 64) (n : BitVec 32) : Change i s { s with msum := a, mcnt := n }

/-- With an error latched every command but SRST does nothing (R127). -/
theorem exec_latched (i : Instr) (s : State) (hs : s.err ≠ 0) (hi : i ≠ .srst) : exec i s = .next s := by
  cases i <;>
    simp only [exec, execNop, execWopen, execWbit, execWbits, execWclose, execRopen, execRbit, execRbits, execGsetm,
      execGenc, execGdec, execGencs, execGdecs, execFold, execUnfold, execAsetord, execAhclr, execApred, execAenc,
      execAdec, execMsfwd, execMsinv, execIsetp, execIsetw, execIpred, execIenc, execIdec, execMclr, execMacc, execMcalc] <;>
    first | exact runCommand_latched hs | exact absurd rfl hi

theorem writeBits_change {i : Instr} {s t : State} (l : List Bool) (put : State → Option State)
    (hput : put s = putList l s) (hs : s.err = 0) (h : runCommand i s (writeBits s put) = .next t)
    (hi : (∃ r, i = .wbit r) ∨ (∃ f r, i = .wbits f r) ∨ (∃ r, i = .genc r) ∨ ∃ r, i = .gencs r) : Change i s t := by
  rcases writeBits_cases l s put hput with hw | ⟨u, hw, hu⟩ | hw <;> rw [hw] at h
  · rw [runCommand_raised hs] at h
    cases h
    exact .precise _ (by simp)
  · rw [runCommand_done hs] at h
    cases h
    exact .put l _ hi hu
  · rw [runCommand_raised hs] at h
    cases h
    exact .imprecise hi

theorem encodeGolomb_change {i : Instr} {s t : State} (u : Nat) (hs : s.err = 0)
    (h : runCommand i s (encodeGolomb u s) = .next t) (hi : (∃ r, i = .genc r) ∨ ∃ r, i = .gencs r) : Change i s t := by
  unfold encodeGolomb at h
  split at h
  · rw [runCommand_raised hs] at h
    cases h
    exact .precise _ (by simp)
  · exact writeBits_change _ _ (putGolomb_eq_putList u s) hs h (.inr (.inr hi))

theorem decodeGolomb_change {i : Instr} {s t : State} (toRes : Nat → Word64) (hs : s.err = 0)
    (h : runCommand i s (decodeGolomb toRes s) = .next t) (hi : i = .gdec ∨ i = .gdecs) : Change i s t := by
  rcases decodeGolomb_cases toRes s with hw | ⟨e, he, hw⟩ | ⟨u, v, hw, hv⟩ <;> rw [hw] at h
  · rw [runCommand_raised hs] at h
    cases h
    exact .precise _ (by simp)
  · rw [runCommand_raised hs] at h
    cases h
    exact .badCode _ he hi
  · rw [runCommand_done hs] at h
    cases h
    exact .read _ v (by rcases hi with h | h <;> simp [h]) hv

/-- What a command other than SRST can answer. -/
theorem exec_change {i : Instr} {s t : State} (h : exec i s = .next t) (hi : i ≠ .srst) : Change i s t := by
  by_cases hs : s.err = 0
  case neg =>
    rw [exec_latched i s hs hi] at h
    cases h
    exact .same
  have done : ∀ {i : Instr} {u : State}, runCommand i s (.done u) = .next t → t = u := by
    intro i u h
    rw [runCommand_done hs] at h
    cases h
    rfl
  have raised : ∀ {i : Instr} {e : ErrorKind} {u : State},
      runCommand i s (.raised e u) = .next t → t = u.latch e (encode i) := by
    intro i e u h
    rw [runCommand_raised hs] at h
    cases h
    rfl
  cases i with
  | nop => cases done (i := .nop) h; exact .same
  | srst => exact absurd rfl hi
  | wopen => cases done (i := .wopen) h; exact .openedWriter rfl
  | wbit r => exact writeBits_change _ _ (putBit_eq_putList _ s) hs h (by simp)
  | wbits f r =>
    simp only [exec, execWbits] at h
    split at h
    · cases raised h; exact .precise _ (by simp)
    · exact writeBits_change _ _ (putNat_eq_putList _ _ s) hs h (by simp)
  | wclose =>
    simp only [exec, execWclose, closeWriter] at h
    split at h
    · cases done h; exact .same
    split at h
    · split at h
      · cases raised h; exact .precise _ (by simp)
      · cases done h; exact .closedWriter _ rfl rfl
    · cases done h; exact .closedWriter _ rfl rfl
  | ropen r =>
    simp only [exec, execRopen] at h
    split at h
    · cases raised h; exact .precise _ (by simp)
    · cases done h; exact .opened r rfl _
  | rbit =>
    simp only [exec, execRbit] at h
    split at h
    · rename_i e he
      cases getBitOr_error he
      cases raised h
      exact .precise _ (by simp)
    · rename_i hu
      cases done h
      exact .read _ _ (.inl rfl) (getBitOr_moves hu)
  | rbits f =>
    simp only [exec, execRbits] at h
    split at h
    · cases raised h; exact .precise _ (by simp)
    split at h
    · cases raised h; exact .precise _ (by simp)
    split at h
    · rename_i e he
      cases getNat_error he
      cases raised h
      exact .precise _ (by simp)
    · rename_i hu
      cases done h
      exact .read _ _ (by simp) (getNat_moves hu)
  | gsetm f r =>
    simp only [exec, execGsetm] at h
    split at h
    · cases raised h; exact .precise _ (by simp)
    split at h
    · cases raised h; exact .precise _ (by simp)
    · cases done h; exact .golomb f r rfl _ _ _ _
  | genc r => exact encodeGolomb_change _ hs h (by simp)
  | gdec => exact decodeGolomb_change _ hs h (.inl rfl)
  | gencs r => exact encodeGolomb_change _ hs h (by simp)
  | gdecs => exact decodeGolomb_change _ hs h (.inr rfl)
  | fold r => cases done (i := .fold r) h; exact .result _ rfl
  | unfold r => cases done (i := .unfold r) h; exact .result _ rfl
  | asetord f =>
    simp only [exec, execAsetord] at h
    split at h
    · cases raised h; exact .precise _ (by simp)
    · cases done h; exact .order f rfl _
  | ahclr => cases done (i := .ahclr) h; exact .cleared rfl _ _
  | apred ch => cases done (i := .apred ch) h; exact .result _ rfl
  | aenc ch r =>
    simp only [exec, execAenc] at h
    split at h
    · cases raised h; exact .precise _ (by simp)
    · cases done h
      cases ch
      · exact .history (by simp) _ _ s.hist1
      · exact .history (by simp) _ s.hist0 _
  | adec ch r =>
    simp only [exec, execAdec] at h
    cases done h
    cases ch
    · exact .history (by simp) _ _ s.hist1
    · exact .history (by simp) _ s.hist0 _
  | msfwd r =>
    simp only [exec, execMsfwd] at h
    split at h
    · cases done h; exact .result _ rfl
    · cases raised h; exact .precise _ (by simp_all)
  | msinv r =>
    simp only [exec, execMsinv] at h
    split at h
    · cases done h; exact .result _ rfl
    · cases raised h; exact .precise _ (by simp_all)
  | isetp f =>
    simp only [exec, execIsetp] at h
    split at h
    · cases raised h; exact .precise _ (by simp)
    · cases done h; exact .mode f rfl _
  | isetw r =>
    simp only [exec, execIsetw] at h
    split at h
    · cases raised h; exact .precise _ (by simp)
    · cases done h; exact .width r rfl _
  | ipred r => cases done (i := .ipred r) h; exact .result _ rfl
  | ienc r =>
    simp only [exec, execIenc] at h
    split at h
    · cases raised h; exact .precise _ (by simp)
    split at h
    · cases raised h; exact .precise _ (by simp)
    · rename_i hw _
      cases done h
      exact .pixel r (by simp) hw _ _
  | idec r =>
    simp only [exec, execIdec] at h
    split at h
    · cases raised h; exact .precise _ (by simp)
    · rename_i hw
      cases done h
      exact .pixel r (by simp) hw _ _
  | mclr => cases done (i := .mclr) h; exact .block (.inl rfl) _ _
  | macc r => cases done (i := .macc r) h; exact .block (by simp) _ _
  | mcalc r =>
    simp only [exec, execMcalc] at h
    split at h
    · cases raised h; exact .precise _ (by simp)
    · cases done h; exact .result _ rfl

end Sys2Proof.Machine
end

