-- ==== Sys2Proof/Laws/Golomb.lean ====
section
/-! SUPPORT. The Golomb coder's shared operations: ceil_log2 (R19), and the reader on a whole code, a corrupt code and a
truncated code (R86, R89). -/

namespace Sys2Proof.Machine

theorem ceilLog2From_spec (m fuel b : Nat) (h : m ≤ 2 ^ (b + fuel)) :
    b ≤ ceilLog2From m fuel b ∧ m ≤ 2 ^ ceilLog2From m fuel b ∧ ∀ k, b ≤ k → k < ceilLog2From m fuel b → 2 ^ k < m := by
  induction fuel generalizing b with
  | zero => exact ⟨Nat.le_refl _, h, fun k h1 h2 => absurd h2 (Nat.not_lt.mpr h1)⟩
  | succ n ih =>
    simp only [ceilLog2From]
    split
    · rename_i hm
      exact ⟨Nat.le_refl _, hm, fun k h1 h2 => by omega⟩
    · obtain ⟨i1, i2, i3⟩ := ih (b + 1) (by rw [show b + 1 + n = b + (n + 1) by omega]; exact h)
      refine ⟨by omega, i2, fun k h1 h2 => ?_⟩
      by_cases hk : k = b
      · subst hk
        omega
      · exact i3 k (by omega) h2

/-- ceil_log2(m) is the least b with 2^b ≥ m (R19). -/
theorem ceilLog2_spec (m : Nat) : m ≤ 2 ^ ceilLog2 m ∧ ∀ k, k < ceilLog2 m → 2 ^ k < m := by
  obtain ⟨-, h1, h2⟩ := ceilLog2From_spec m m 0 (by simpa using Nat.lt_two_pow_self.le)
  exact ⟨h1, fun k hk => h2 k (Nat.zero_le k) hk⟩

/-- The least significant bit comes last (R53). -/
theorem bitsOf_succ_last (n v : Nat) : bitsOf (n + 1) v = bitsOf n (v / 2) ++ [decide (v % 2 = 1)] := by
  rw [← bitsOf_snoc n (v / 2) (decide (v % 2 = 1))]
  congr 1
  rcases Nat.mod_two_eq_zero_or_one v with h | h <;> simp [h] <;> omega

/-- Zero bits appended at the least significant end (R80). -/
theorem bitsOf_mul_two_pow (n k v : Nat) : bitsOf (n + k) (v * 2 ^ k) = bitsOf n v ++ List.replicate k false := by
  induction k with
  | zero => simp
  | succ k ih =>
    rw [← Nat.add_assoc, show v * 2 ^ (k + 1) = 2 * (v * 2 ^ k) + false.toNat by rw [pow_succ, Bool.toNat_false]; ring,
      bitsOf_snoc, ih, List.replicate_succ', List.append_assoc]

/-- Every list of bits is the bits of one number of that width. -/
theorem exists_bitsOf (l : List Bool) : ∃ w, w < 2 ^ l.length ∧ bitsOf l.length w = l := by
  induction l using List.reverseRecOn with
  | nil => exact ⟨0, by simp, rfl⟩
  | append_singleton l b ih =>
    obtain ⟨w, hw, h⟩ := ih
    refine ⟨2 * w + b.toNat, ?_, ?_⟩
    · rw [List.length_append, List.length_singleton, pow_succ]
      cases b <;> simp only [Bool.toNat_false, Bool.toNat_true] <;> omega
    · rw [List.length_append, List.length_singleton, bitsOf_snoc, h]

theorem bitsOf_inj (n a b : Nat) (ha : a < 2 ^ n) (hb : b < 2 ^ n) (h : bitsOf n a = bitsOf n b) : a = b := by
  induction n generalizing a b with
  | zero => simp only [pow_zero] at ha hb; omega
  | succ n ih =>
    rw [bitsOf_succ_last, bitsOf_succ_last] at h
    rw [pow_succ] at ha hb
    have hhigh := ih (a / 2) (b / 2) (by omega) (by omega) (List.append_inj_left' h rfl)
    have hlow := List.append_inj_right' h rfl
    simp only [List.cons.injEq, and_true, decide_eq_decide] at hlow
    omega

theorem outputBits_length (s : State) : s.outputBits.length = 8 * s.olen.toNat + s.wcnt.toNat := by
  simp [State.outputBits, List.length_flatMap]
  omega

/-- The bits of a run of bytes, by stream position (R16, R53). -/
theorem flatMap_bitsOf (n : Nat) (f : Nat → Nat) :
    (List.range n).flatMap (fun i => bitsOf 8 (f i)) =
      (List.range (8 * n)).map (fun p => (f (p / 8)).testBit (7 - p % 8)) := by
  induction n with
  | zero => rfl
  | succ n ih =>
    rw [List.range_succ, List.flatMap_append, ih, show 8 * (n + 1) = 8 * n + 8 by omega, List.range_add, List.map_append]
    congr 1
    simp only [List.flatMap_cons, List.flatMap_nil, List.append_nil, bitsOf, List.map_map]
    refine List.map_congr_left fun k hk => ?_
    have hk := List.mem_range.mp hk
    simp only [Function.comp]
    rw [show (8 * n + k) / 8 = n by omega, show (8 * n + k) % 8 = k by omega]

/-- A reader at the end of the stream (R76). -/
theorem getBitOr_empty (e : ErrorKind) (s : State) (h : s.unreadBits = []) (hr : s.cursorOk) :
    getBitOr e s = .error e := by
  have hlen := congrArg List.length h
  rw [s.unreadBits_length, List.length_nil] at hlen
  unfold State.cursorOk at hr
  simp only [getBitOr, getBit]
  rw [if_pos (by omega)]

theorem cursorOk_skipBits (s : State) (n : Nat) (h : s.rpos.toNat + n ≤ 8 * s.ilen.toNat) : (s.skipBits n).cursorOk := by
  unfold State.cursorOk
  rw [s.rpos_skipBits n h]
  exact h

/-- The stream ends inside a field. -/
theorem getNat_short (e : ErrorKind) (n v : Nat) (s : State) (hr : s.cursorOk) (h : s.unreadBits.length < n) :
    getNat e n v s = .error e := by
  induction n generalizing v s with
  | zero => omega
  | succ n ih =>
    rw [getNat]
    cases hb : s.unreadBits with
    | nil => rw [getBitOr_empty e s hb hr]; rfl
    | cons b l =>
      obtain ⟨g1, g2, g3⟩ := getBit_unread s b l hb
      simp only [getBitOr, g1, Except.bind]
      refine ih _ _ (cursorOk_skipBits s 1 g3) ?_
      rw [g2]
      rw [hb] at h
      simpa using h

/-- More zero bits than the cap allows (R89). -/
theorem getUnary_corrupt (a q : Nat) (s : State) (rest : List Bool)
    (h : s.unreadBits = List.replicate (a + 1) false ++ rest) :
    getUnary a q s = .error .corruptCode ∧ s.cursorOk := by
  induction a generalizing q s with
  | zero =>
    obtain ⟨g1, -, g3⟩ := getBit_unread s false rest h
    refine ⟨?_, by unfold State.cursorOk; omega⟩
    rw [getUnary.eq_def]
    simp [getBitOr, g1]
  | succ a ih =>
    obtain ⟨g1, g2, g3⟩ := getBit_unread s false (List.replicate (a + 1) false ++ rest)
      (by rw [h, List.replicate_succ]; rfl)
    refine ⟨?_, by unfold State.cursorOk; omega⟩
    rw [getUnary.eq_def]
    simp only [getBitOr, g1]
    exact (ih _ _ g2).1

/-- The stream ends inside the unary part (R89). -/
theorem getUnary_short (a q k : Nat) (s : State) (hr : s.cursorOk) (h : s.unreadBits = List.replicate k false)
    (hk : k ≤ a) : getUnary a q s = .error .truncatedCode := by
  induction a generalizing q s k with
  | zero =>
    obtain rfl : k = 0 := by omega
    rw [getUnary.eq_def]
    dsimp only
    rw [getBitOr_empty _ s h hr]
  | succ a ih =>
    cases k with
    | zero =>
      rw [getUnary.eq_def]
      dsimp only
      rw [getBitOr_empty _ s h hr]
    | succ k =>
      obtain ⟨g1, g2, g3⟩ := getBit_unread s false (List.replicate k false) (by rw [h, List.replicate_succ])
      rw [getUnary.eq_def]
      simp only [getBitOr, g1]
      exact ih _ k _ (cursorOk_skipBits s 1 g3) g2 (by omega)

/-- The registers GB and GT fit the remainder r: what R85 makes sure of for every r below the parameter. -/
def State.fitsRemainder (s : State) (r : Nat) : Prop :=
  if s.gb.toNat = 0 then r = 0
  else s.gt.toNat ≤ 2 ^ (s.gb.toNat - 1) ∧ r + s.gt.toNat < 2 ^ s.gb.toNat

/-- The remainder part of a code (R86, R89). -/
theorem getRemainder_unread (s : State) (r : Nat) (rest : List Bool) (hfit : s.fitsRemainder r)
    (h : s.unreadBits = remainderBits s.gb.toNat s.gt.toNat r ++ rest) :
    getRemainder s = .ok (r, s.skipBits (remainderBits s.gb.toNat s.gt.toNat r).length) ∧
      (s.skipBits (remainderBits s.gb.toNat s.gt.toNat r).length).unreadBits = rest ∧
      (s.cursorOk → s.rpos.toNat + (remainderBits s.gb.toNat s.gt.toNat r).length ≤ 8 * s.ilen.toNat) := by
  unfold getRemainder remainderBits at *
  unfold State.fitsRemainder at hfit
  by_cases hb : s.gb.toNat = 0
  · simp only [hb, if_true, List.nil_append, List.length_nil, s.skipBits_zero] at h hfit ⊢
    subst hfit
    exact ⟨rfl, h, id⟩
  · have hb1 : s.gb.toNat ≥ 1 := by omega
    rw [if_neg hb] at hfit
    obtain ⟨hgt, hsum⟩ := hfit
    simp only [hb, hb1, if_true, if_false] at h ⊢
    by_cases hrt : r < s.gt.toNat
    · simp only [hrt, if_true] at h ⊢
      obtain ⟨g1, g2, g3⟩ := getNat_unread .truncatedCode _ _ 0 s _ h
      have hm : r % 2 ^ (s.gb.toNat - 1) = r := Nat.mod_eq_of_lt (lt_of_lt_of_le hrt hgt)
      rw [g1]
      simp only [Except.bind, Nat.zero_mul, Nat.zero_add, hm, bitsOf_length]
      rw [if_neg (by omega)]
      refine ⟨rfl, g2, fun hc => ?_⟩
      unfold State.cursorOk at hc
      rcases Nat.eq_zero_or_pos (s.gb.toNat - 1) with h0 | h0
      · omega
      · exact g3 h0
    · simp only [hrt, if_false] at h ⊢
      obtain ⟨n, hn⟩ : ∃ n, s.gb.toNat = n + 1 := ⟨s.gb.toNat - 1, by omega⟩
      rw [hn, bitsOf_succ_last, List.append_assoc] at h
      obtain ⟨g1, g2, g3⟩ := getNat_unread .truncatedCode _ _ 0 s _ h
      rw [hn, pow_succ] at hsum
      rw [hn, Nat.add_sub_cancel] at hgt
      rw [hn]
      simp only [Nat.add_sub_cancel]
      have hm : (r + s.gt.toNat) / 2 % 2 ^ n = (r + s.gt.toNat) / 2 := Nat.mod_eq_of_lt (by omega)
      rw [g1]
      simp only [Except.bind, Nat.zero_mul, Nat.zero_add, hm, bitsOf_length]
      rw [if_pos (by omega)]
      obtain ⟨k1, k2, k3⟩ := getBit_unread _ _ _ g2
      have hn' : s.rpos.toNat + n ≤ 8 * s.ilen.toNat := by
        rcases Nat.eq_zero_or_pos n with h0 | h0
        · rw [h0, s.skipBits_zero] at k3
          omega
        · exact g3 h0
      have hil : (s.skipBits n).ilen = s.ilen := rfl
      rw [s.rpos_skipBits n hn', hil] at k3
      simp only [getBitOr, k1, s.skipBits_skipBits n 1 hn'] at k2 ⊢
      refine ⟨?_, k2, fun _ => by omega⟩
      simp only [Except.ok.injEq, Prod.mk.injEq, and_true]
      rcases Nat.mod_two_eq_zero_or_one (r + s.gt.toNat) with h | h <;> simp [h] <;> omega

/-- The stream ends inside the remainder (R89). -/
theorem getRemainder_short (s : State) (r : Nat) (rest : List Bool) (hr : s.cursorOk) (hfit : s.fitsRemainder r)
    (hne : rest ≠ []) (h : s.unreadBits ++ rest = remainderBits s.gb.toNat s.gt.toNat r) :
    getRemainder s = .error .truncatedCode := by
  have hrl : 1 ≤ rest.length := List.length_pos_iff.mpr hne
  have hlen := congrArg List.length h
  rw [List.length_append] at hlen
  unfold getRemainder
  unfold remainderBits at h hlen
  unfold State.fitsRemainder at hfit
  by_cases hb : s.gb.toNat = 0
  · simp only [hb, if_true, List.length_nil] at hlen
    omega
  · have hb1 : s.gb.toNat ≥ 1 := by omega
    rw [if_neg hb] at hfit
    obtain ⟨hgt, hsum⟩ := hfit
    simp only [hb, hb1, if_true, if_false] at h hlen ⊢
    by_cases hrt : r < s.gt.toNat
    · simp only [hrt, if_true, bitsOf_length] at hlen
      rw [getNat_short _ _ _ s hr (by omega)]
      rfl
    · simp only [hrt, if_false, bitsOf_length] at h hlen
      by_cases hn : s.unreadBits.length < s.gb.toNat - 1
      · rw [getNat_short _ _ _ s hr (by omega)]
        rfl
      · obtain ⟨n, hn'⟩ : ∃ n, s.gb.toNat = n + 1 := ⟨s.gb.toNat - 1, by omega⟩
        rw [hn', bitsOf_succ_last] at h
        have hbits := List.append_inj_left h (by rw [bitsOf_length]; omega)
        obtain ⟨g1, g2, g3⟩ := getNat_unread .truncatedCode n ((r + s.gt.toNat) / 2) 0 s [] (by rw [hbits, List.append_nil])
        have hcur : (s.skipBits n).cursorOk := by
          rcases Nat.eq_zero_or_pos n with h0 | h0
          · rw [h0, s.skipBits_zero]
            exact hr
          · exact cursorOk_skipBits s n (g3 h0)
        rw [hn', pow_succ] at hsum
        rw [hn', Nat.add_sub_cancel] at hgt
        rw [hn']
        simp only [Nat.add_sub_cancel]
        have hm : (r + s.gt.toNat) / 2 % 2 ^ n = (r + s.gt.toNat) / 2 := Nat.mod_eq_of_lt (by omega)
        rw [g1]
        simp only [Except.bind, Nat.zero_mul, Nat.zero_add, hm]
        rw [if_pos (by omega), getBitOr_empty _ _ g2 hcur]

/-- GDEC's reading of a whole code (R86, R89). -/
theorem getGolomb_unread (s : State) (u : Nat) (rest : List Bool) (hfit : s.fitsRemainder (u % s.gm.toNat))
    (hq : u / s.gm.toNat ≤ s.params.qcap) (h : s.unreadBits = s.codeOf u ++ rest) :
    getGolomb s = .ok (u, s.skipBits (s.codeOf u).length) ∧ (s.skipBits (s.codeOf u).length).unreadBits = rest ∧
      s.rpos.toNat + (s.codeOf u).length ≤ 8 * s.ilen.toNat := by
  have hlen : (s.codeOf u).length =
      u / s.gm.toNat + 1 + (remainderBits s.gb.toNat s.gt.toNat (u % s.gm.toNat)).length := by
    simp only [State.codeOf, golombCode, List.length_append, List.length_replicate, List.length_singleton]
  simp only [State.codeOf, golombCode, List.append_assoc _ _ rest] at h
  obtain ⟨a1, a2, a3⟩ := getUnary_unread (u / s.gm.toNat) 0 s.params.qcap s _ hq h
  obtain ⟨b1, b2, b3⟩ := getRemainder_unread (s.skipBits (u / s.gm.toNat + 1)) (u % s.gm.toNat) rest hfit a2
  have b3 := b3 (cursorOk_skipBits s _ a3)
  have hgb : (s.skipBits (u / s.gm.toNat + 1)).gb = s.gb := rfl
  have hgt : (s.skipBits (u / s.gm.toNat + 1)).gt = s.gt := rfl
  have hil : (s.skipBits (u / s.gm.toNat + 1)).ilen = s.ilen := rfl
  rw [hgb, hgt, s.skipBits_skipBits _ _ a3, ← hlen] at b1 b2
  rw [hgb, hgt, hil, s.rpos_skipBits _ a3] at b3
  refine ⟨?_, b2, by omega⟩
  simp only [getGolomb, a1, Except.bind, b1, Nat.zero_add]
  rw [Nat.mul_comm, Nat.div_add_mod]

/-- The one pattern that is no code and decodes (R89's corner case, U6): with m = 1, b = 1 and t = 0, a remainder bit 1. -/
theorem getGolomb_corner (s : State) (q : Nat) (rest : List Bool) (hm : s.gm = 1) (hb : s.gb = 1) (ht : s.gt = 0)
    (hq : q ≤ s.params.qcap) (h : s.unreadBits = List.replicate q false ++ [true, true] ++ rest) :
    getGolomb s = .ok (q + 1, s.skipBits (q + 2)) ∧ (s.skipBits (q + 2)).unreadBits = rest ∧
      s.rpos.toNat + (q + 2) ≤ 8 * s.ilen.toNat := by
  obtain ⟨a1, a2, a3⟩ := getUnary_unread q 0 s.params.qcap s (true :: rest) hq (by simpa using h)
  obtain ⟨b1, b2, b3⟩ := getBit_unread _ _ _ a2
  have hil : (s.skipBits (q + 1)).ilen = s.ilen := rfl
  rw [s.rpos_skipBits _ a3, hil] at b3
  rw [s.skipBits_skipBits _ _ a3] at b1 b2
  have hrem : getRemainder (s.skipBits (q + 1)) = .ok (1, s.skipBits (q + 2)) := by
    have hgb : (s.skipBits (q + 1)).gb = 1 := hb
    have hgt : (s.skipBits (q + 1)).gt = 0 := ht
    simp [getRemainder, hgb, hgt, getNat, Except.bind, getBitOr, b1]
  refine ⟨?_, b2, by omega⟩
  rw [getGolomb, a1]
  simp [Except.bind, hrem, hm]

/-- The stream ends inside a code (R89). -/
theorem getGolomb_short (s : State) (u : Nat) (rest : List Bool) (hr : s.cursorOk)
    (hfit : s.fitsRemainder (u % s.gm.toNat)) (hq : u / s.gm.toNat ≤ s.params.qcap) (hne : rest ≠ [])
    (h : s.unreadBits ++ rest = s.codeOf u) : getGolomb s = .error .truncatedCode := by
  simp only [State.codeOf, golombCode] at h
  by_cases hlt : s.unreadBits.length ≤ u / s.gm.toNat
  · have hz := congrArg (List.take s.unreadBits.length) h
    rw [List.take_left, List.append_assoc, List.take_append_of_le_length (by simpa using hlt), List.take_replicate,
      Nat.min_eq_left hlt] at hz
    rw [getGolomb, getUnary_short _ _ _ s hr hz (by omega)]
    rfl
  · have hpre : s.unreadBits =
        List.replicate (u / s.gm.toNat) false ++ [true] ++ s.unreadBits.drop (u / s.gm.toNat + 1) := by
      have ht := congrArg (List.take (u / s.gm.toNat + 1)) h
      rw [List.take_append_of_le_length (by omega), List.take_append_of_le_length (by simp),
        List.take_of_length_le (l := List.replicate (u / s.gm.toNat) false ++ [true]) (by simp)] at ht
      rw [← ht, List.take_append_drop]
    obtain ⟨a1, a2, a3⟩ := getUnary_unread (u / s.gm.toNat) 0 s.params.qcap s _ hq hpre
    rw [hpre, List.append_assoc] at h
    have hrem := List.append_cancel_left h
    rw [getGolomb, a1]
    simp only [Except.bind]
    rw [getRemainder_short (s.skipBits (u / s.gm.toNat + 1)) (u % s.gm.toNat) rest (cursorOk_skipBits s _ a3) hfit hne
      (by rw [a2]; exact hrem)]

end Sys2Proof.Machine
end

