-- ==== Sys2Proof/Laws/Image.lean ====
section
/-! SUPPORT. The image scan: IAdvance (R108), and what two agreeing scans share (R107, R114). -/

namespace Sys2Proof.Machine

/-- What IAdvance does (R108). -/
theorem advance_movedOn (s : State) (p : Byte) (x : Word64) (h : s.ix.toNat < s.iw.toNat) :
    s.movedOn { s.advance p with res := x } p := by
  have hiw := s.iw.isLt
  have hiy := s.iy.isLt
  refine ⟨rfl, fun i => Memory.byteAt?_setByte .., ?_, rfl⟩
  simp only [State.advance, nextPosition]
  split
  · refine ⟨rfl, ?_⟩
    simp only [BitVec.toNat_ofNat]
    exact Nat.mod_eq_of_lt (by omega)
  · refine ⟨?_, BitVec.eq_of_toNat_eq (by simp only [BitVec.toNat_ofNat]; exact Nat.mod_eq_of_lt hiy)⟩
    simp only [BitVec.toNat_ofNat]
    exact Nat.mod_eq_of_lt (by omega)

/-- The line buffer after IAdvance (R108). -/
theorem lbAt_advance (s : State) (p : Byte) (x : Nat) :
    (s.advance p).lbAt x = if x = s.ix.toNat then p else s.lbAt x := by
  simp only [State.lbAt, State.advance, Memory.byteAt?_setByte]
  split <;> rfl

/-- Agreeing scans see the same neighbours (R107). -/
theorem neighbours_of_scanAgrees (s t : State) (h : s.scanAgrees t) (hx : s.ix.toNat < s.iw.toNat) :
    s.neighbours = t.neighbours := by
  obtain ⟨-, -, h3, h4, h5, h6, h7⟩ := h
  simp only [State.neighbours, ← h3, ← h4, ← h5]
  refine Prod.ext ?_ (Prod.ext ?_ rfl)
  · dsimp only
    split
    · exact h6 _ (by omega)
    · rfl
  · dsimp only
    split
    · exact h7 ‹_› _ (Nat.le_refl _) hx
    · rfl

/-- Agreeing scans make the same prediction (R112, R113). -/
theorem scanPrediction_of_scanAgrees (s t : State) (h : s.scanAgrees t) (hx : s.ix.toNat < s.iw.toNat) :
    t.scanPrediction = s.scanPrediction := by
  unfold State.scanPrediction
  rw [neighbours_of_scanAgrees s t h hx, h.1]

/-- Agreeing scans that move on by the same pixel agree again (R114). -/
theorem scanAgrees_advance (s t : State) (p : Byte) (x y : Word64) (h : s.scanAgrees t) (hx : s.ix.toNat < s.iw.toNat) :
    ({ s.advance p with res := x } : State).scanAgrees { t.advance p with res := y } ∧
      (s.advance p).ix.toNat < (s.advance p).iw.toNat := by
  obtain ⟨-, -, hpos, -⟩ := advance_movedOn s p x hx
  obtain ⟨h1, h2, h3, h4, -, h6, h7⟩ := h
  have hs : ∀ k, ({ s.advance p with res := x } : State).lbAt k = if k = s.ix.toNat then p else s.lbAt k :=
    lbAt_advance s p
  have ht : ∀ k, ({ t.advance p with res := y } : State).lbAt k = if k = s.ix.toNat then p else t.lbAt k := by
    rw [h3]
    exact lbAt_advance t p
  refine ⟨⟨h1, h2, ?_, ?_, ?_, fun k hk => ?_, fun hy k hk1 hk2 => ?_⟩, ?_⟩
  · show BitVec.ofNat 32 _ = BitVec.ofNat 32 _
    rw [h2, h3, h4]
  · show BitVec.ofNat 32 _ = BitVec.ofNat 32 _
    rw [h2, h3, h4]
  · show (if s.iy.toNat > 0 then s.lbAt s.ix.toNat else 0) = if t.iy.toNat > 0 then t.lbAt t.ix.toNat else 0
    rw [← h4, ← h3]
    split
    · exact h7 ‹_› _ (Nat.le_refl _) hx
    · rfl
  · rw [hs, ht]
    split
    · rfl
    · refine h6 _ ?_
      split at hpos
      · rw [hpos.1] at hk
        exact absurd hk (Nat.not_lt_zero _)
      · rw [hpos.1] at hk
        omega
  · rw [hs, ht]
    split
    · rfl
    · change k < s.iw.toNat at hk2
      split at hpos
      · exact h6 _ (by omega)
      · rw [hpos.1] at hk1
        rw [hpos.2] at hy
        exact h7 hy _ (by omega) hk2
  · change (({ s.advance p with res := x } : State).ix).toNat < s.iw.toNat
    split at hpos
    · rw [hpos.1]
      exact Nat.lt_of_le_of_lt (Nat.zero_le _) hx
    · rw [hpos.1]
      omega

end Sys2Proof.Machine
end

