-- ==== Sys2Proof/Laws/Numbers.lean ====
section
/-! SUPPORT. The conversions of R17-R19, the fold (R90, R91), the audio prediction (R96) and the image prediction (R106),
as facts about integers. -/

namespace Sys2Proof.Machine

theorem ofInt_sub (w : Nat) (a b : Int) : BitVec.ofInt w (a - b) = BitVec.ofInt w a - BitVec.ofInt w b := by
  rw [Int.sub_eq_add_neg, BitVec.ofInt_add, BitVec.ofInt_neg, BitVec.sub_eq_add_neg]

theorem toInt_bits64 (v : Int) (h1 : -2 ^ 63 ≤ v) (h2 : v < 2 ^ 63) : (bits64 v).toInt = v := by
  unfold bits64
  rw [BitVec.toInt_ofInt, Int.bmod_eq_of_le] <;> omega

theorem toInt_bits16 (v : Int) (h1 : -2 ^ 15 ≤ v) (h2 : v < 2 ^ 15) : (bits16 v).toInt = v := by
  unfold bits16
  rw [BitVec.toInt_ofInt, Int.bmod_eq_of_le] <;> omega

theorem bits64_toInt (x : Word64) : bits64 x.toInt = x := BitVec.ofInt_toInt

theorem bits16_wrap16 (v : Int) : bits16 (wrap16 v) = bits16 v := BitVec.ofInt_toInt

/-- wrap16(v) is the i16 value congruent to v (R17). -/
theorem wrap16_spec (v : Int) : -32768 ≤ wrap16 v ∧ wrap16 v ≤ 32767 ∧ (wrap16 v - v) % 2 ^ 16 = 0 := by
  unfold wrap16 bits16
  rw [BitVec.toInt_ofInt]
  have h1 := Int.bmod_lt (x := v) (m := 2 ^ 16) (by decide)
  have h2 := Int.le_bmod (x := v) (m := 2 ^ 16) (by decide)
  have h3 := Int.bmod_emod (x := v) (m := 2 ^ 16)
  push_cast at *
  omega

theorem clampInt_eq (lo hi v : Int) (h : lo ≤ hi) : clampInt lo hi v = max lo (min hi v) := by
  unfold clampInt
  split
  · omega
  · split <;> omega

theorem halfFloor_eq (v : Int) : halfFloor v = v / 2 := by
  unfold halfFloor
  rw [Int.fdiv_eq_ediv_of_nonneg _ (by decide)]

/-- tdiv by 2 in terms of the floor quotient (R18). -/
theorem tdiv_two (x : Int) : tdiv x 2 = if 0 ≤ x then x / 2 else -(-x / 2) := by
  unfold tdiv
  split
  · rw [Int.tdiv_eq_ediv_of_nonneg ‹_›]
  · rw [← Int.neg_neg x, Int.neg_tdiv, Int.tdiv_eq_ediv_of_nonneg (by omega), Int.neg_neg]

/-- The three fields of a packed pair (R103, R104). -/
theorem packPair_fields (hi lo : Int) :
    (packPair hi lo).extractLsb' 16 16 = bits16 hi ∧ (packPair hi lo).extractLsb' 0 16 = bits16 lo ∧
      (packPair hi lo).extractLsb' 32 32 = 0 := by
  refine ⟨?_, ?_, ?_⟩ <;>
    · apply BitVec.eq_of_getLsbD_eq
      intro i hi
      simp only [packPair, BitVec.getLsbD_extractLsb', BitVec.getLsbD_setWidth, BitVec.getLsbD_append]
      grind

/-! ## The fold -/

theorem foldInt_lt (v : Int) (h1 : -2 ^ 63 ≤ v) (h2 : v < 2 ^ 63) : foldInt v < 2 ^ 64 := by
  unfold foldInt
  split <;> omega

theorem unfoldNat_foldInt (v : Int) : unfoldNat (foldInt v) = v := by
  unfold foldInt
  split
  · rw [unfoldNat, if_pos (by omega)]
    omega
  · rw [unfoldNat, if_neg (by omega)]
    omega

theorem foldInt_unfoldNat (u : Nat) : foldInt (unfoldNat u) = u := by
  unfold unfoldNat
  split
  · rw [foldInt, if_pos (by omega)]
    omega
  · rw [foldInt, if_neg (by omega)]
    omega

/-- No unfolded value of 64 bits wraps (R91). -/
theorem toInt_bits64_unfoldNat (u : Nat) (h : u < 2 ^ 64) : (bits64 (unfoldNat u)).toInt = unfoldNat u := by
  refine toInt_bits64 _ ?_ ?_ <;> unfold unfoldNat <;> split <;> omega

/-! ## Predictions -/

/-- A prediction is an i16 value (R96). -/
theorem aPredict_range (k : BitVec 2) (h : History) : -32768 ≤ aPredict k h ∧ aPredict k h ≤ 32767 := by
  unfold aPredict
  rw [clampInt_eq _ _ _ (by decide)]
  omega

/-- No image prediction of the table leaves this range (R106). -/
theorem predict_range (id : Nat) (a b c : Byte) (h : id ≤ 8) :
    -255 ≤ predict id a.toNat b.toNat c.toNat ∧ predict id a.toNat b.toNat c.toNat ≤ 510 := by
  have ha := a.isLt
  have hb := b.isLt
  have hc := c.isLt
  have h5 := tdiv_two ((b.toNat : Int) - c.toNat)
  have h6 := tdiv_two ((a.toNat : Int) - c.toNat)
  have h7 := tdiv_two ((a.toNat : Int) + b.toNat)
  interval_cases id <;> simp only [predict, med] <;> (repeat' split) <;> omega

end Sys2Proof.Machine
end

