-- ==== Sys2Proof/Laws/PerInstr.lean ====
section
/-! SUPPORT. The command word's fields, and a family of lemmas with one lemma per command: the low byte of its word is the
opcode R68 gives it. -/

namespace Sys2Proof

/-- Every bit of an assembled word (R62). -/
theorem getLsbD_commandWord (op : BitVec 8) (f : BitVec 7) (ch r : BitVec 1) (i : Nat) :
    (commandWord op f ch r).getLsbD i =
      if i < 8 then op.getLsbD i else if i < 15 then f.getLsbD (i - 8) else
        if i = 16 then ch.getLsbD 0 else if i = 31 then r.getLsbD 0 else false := by
  simp only [commandWord, BitVec.getLsbD_cast, BitVec.getLsbD_append, BitVec.getLsbD_zero]
  by_cases h8 : i < 8
  · simp [h8]
  by_cases h15 : i < 15
  · have : i - 8 < 7 := by omega
    simp [h8, h15, this]
  have h1 : ¬ i - 8 < 7 := by omega
  simp only [h8, h15, h1, if_false]
  by_cases h16 : i = 16
  · subst h16; simp
  by_cases h31 : i = 31
  · subst h31; simp
  simp only [h16, h31, if_false]
  split
  · rfl
  split
  · omega
  split
  · rfl
  · apply BitVec.getLsbD_of_ge; omega

/-- OP of an assembled word (R62). -/
@[simp] theorem opField_commandWord (op : BitVec 8) (f : BitVec 7) (ch r : BitVec 1) :
    opField (commandWord op f ch r) = op := by
  apply BitVec.eq_of_getLsbD_eq
  intro i hi
  simp [opField, getLsbD_commandWord, hi]
/-- F of an assembled word (R62). -/
@[simp] theorem fField_commandWord (op : BitVec 8) (f : BitVec 7) (ch r : BitVec 1) :
    fField (commandWord op f ch r) = f := by
  apply BitVec.eq_of_getLsbD_eq
  intro i hi
  have : 8 + i < 15 := by omega
  simp [fField, getLsbD_commandWord, hi, this]

/-- CH of an assembled word (R62, R67). -/
@[simp] theorem chField_commandWord (op : BitVec 8) (f : BitVec 7) (ch : Channel) (r : BitVec 1) :
    chField (commandWord op f ch.bit r) = ch := by
  cases ch <;> simp only [chField, getLsbD_commandWord, Channel.bit] <;> rfl

/-- R of an assembled word (R62, R64). -/
@[simp] theorem rField_commandWord (op : BitVec 8) (f : BitVec 7) (ch : BitVec 1) (r : OperandSource) :
    rField (commandWord op f ch r.bit) = r := by
  cases r <;> simp only [rField, getLsbD_commandWord, OperandSource.bit] <;> rfl
end Sys2Proof

namespace Sys2Proof.Laws.OpcodeByte

/-- The opcode of a command (R68, first column). -/
def opcode : Instr → BitVec 8
  | .nop => 0x00
  | .srst => 0x01
  | .wopen => 0x10
  | .wbit _ => 0x11
  | .wbits _ _ => 0x12
  | .wclose => 0x13
  | .ropen _ => 0x18
  | .rbit => 0x19
  | .rbits _ => 0x1A
  | .gsetm _ _ => 0x20
  | .genc _ => 0x21
  | .gdec => 0x22
  | .gencs _ => 0x23
  | .gdecs => 0x24
  | .fold _ => 0x25
  | .unfold _ => 0x26
  | .asetord _ => 0x30
  | .ahclr => 0x31
  | .apred _ => 0x32
  | .aenc _ _ => 0x33
  | .adec _ _ => 0x34
  | .msfwd _ => 0x35
  | .msinv _ => 0x36
  | .isetp _ => 0x40
  | .isetw _ => 0x41
  | .ipred _ => 0x42
  | .ienc _ => 0x43
  | .idec _ => 0x44
  | .mclr => 0x50
  | .macc _ => 0x51
  | .mcalc _ => 0x52

/-- The low byte of the command's word is its opcode (R62, R68). -/
def Statement (i : Instr) : Prop := opField (encode i) = opcode i

theorem nop : Statement (.nop) := opField_commandWord ..

theorem srst : Statement (.srst) := opField_commandWord ..

theorem wopen : Statement (.wopen) := opField_commandWord ..

theorem wbit (r : OperandSource) : Statement (.wbit r) := opField_commandWord ..

theorem wbits (f : BitVec 7) (r : OperandSource) : Statement (.wbits f r) := opField_commandWord ..

theorem wclose : Statement (.wclose) := opField_commandWord ..

theorem ropen (r : OperandSource) : Statement (.ropen r) := opField_commandWord ..

theorem rbit : Statement (.rbit) := opField_commandWord ..

theorem rbits (f : BitVec 7) : Statement (.rbits f) := opField_commandWord ..

theorem gsetm (f : BitVec 7) (r : OperandSource) : Statement (.gsetm f r) := opField_commandWord ..

theorem genc (r : OperandSource) : Statement (.genc r) := opField_commandWord ..

theorem gdec : Statement (.gdec) := opField_commandWord ..

theorem gencs (r : OperandSource) : Statement (.gencs r) := opField_commandWord ..

theorem gdecs : Statement (.gdecs) := opField_commandWord ..

theorem fold (r : OperandSource) : Statement (.fold r) := opField_commandWord ..

theorem unfold (r : OperandSource) : Statement (.unfold r) := opField_commandWord ..

theorem asetord (f : BitVec 7) : Statement (.asetord f) := opField_commandWord ..

theorem ahclr : Statement (.ahclr) := opField_commandWord ..

theorem apred (ch : Channel) : Statement (.apred ch) := opField_commandWord ..

theorem aenc (ch : Channel) (r : OperandSource) : Statement (.aenc ch r) := opField_commandWord ..

theorem adec (ch : Channel) (r : OperandSource) : Statement (.adec ch r) := opField_commandWord ..

theorem msfwd (r : OperandSource) : Statement (.msfwd r) := opField_commandWord ..

theorem msinv (r : OperandSource) : Statement (.msinv r) := opField_commandWord ..

theorem isetp (f : BitVec 7) : Statement (.isetp f) := opField_commandWord ..

theorem isetw (r : OperandSource) : Statement (.isetw r) := opField_commandWord ..

theorem ipred (r : OperandSource) : Statement (.ipred r) := opField_commandWord ..

theorem ienc (r : OperandSource) : Statement (.ienc r) := opField_commandWord ..

theorem idec (r : OperandSource) : Statement (.idec r) := opField_commandWord ..

theorem mclr : Statement (.mclr) := opField_commandWord ..

theorem macc (r : OperandSource) : Statement (.macc r) := opField_commandWord ..

theorem mcalc (r : OperandSource) : Statement (.mcalc r) := opField_commandWord ..

end Sys2Proof.Laws.OpcodeByte
end

