-- ==== Sys2Proof/Machine/Assembler.lean ====
section
/-! DEFINITION. The assembler line (R73) and the pseudo-instructions (R74): host software that turns a source line into the
actions by which the host drives the core. -/

namespace Sys2Proof.Machine

/-- OPD <- v, as two word writes, OPD_LO then OPD_HI (R73). -/
def loadOpdActions (v : Int) : List HostAction :=
  [.writeReg 32 0x008 ((bits64 v).extractLsb' 0 32), .writeReg 32 0x00C ((bits64 v).extractLsb' 32 32)]

/-- The operand of a source line (R73). -/
inductive LineOperand where
  /-- `#v`: the host writes OPD first, then CMD with R = 0. -/
  | imm (v : Int)
  /-- `RES`: CMD with R = 1. -/
  | res
  /-- `OPD`: CMD with R = 0 and OPD as it stands. -/
  | opd
deriving DecidableEq, Repr

/-- The R field an operand asks for (R73). -/
def LineOperand.source : LineOperand → OperandSource
  | .imm _ => .opd
  | .res => .res
  | .opd => .opd

/-- The write of OPD an operand asks for (R73). -/
def LineOperand.prelude : LineOperand → List HostAction
  | .imm v => loadOpdActions v
  | .res => []
  | .opd => []

/-- The actions of a command without an operand (R73). -/
def commandActions (i : Instr) : List HostAction := [cmdWrite (encode i)]

/-- The actions of a command with an operand (R73). -/
def operandActions (i : OperandSource → Instr) (x : LineOperand) : List HostAction :=
  x.prelude ++ commandActions (i x.source)

/-- The pseudo-instructions of R74. -/
inductive Pseudo where
  | ldopd (v : Int)
  | rdres
  | encpix (p : Int)
  | decpix
  | encsmp (ch : Channel) (v : Int)
  | decsmp (ch : Channel)
  | setblkm (maxm : Int)
  | setblkmF (maxm : Int)
deriving DecidableEq, Repr

/-- The expansion of a pseudo-instruction (R74). -/
def Pseudo.expand : Pseudo → List HostAction
  | .ldopd v => loadOpdActions v
  | .rdres => [.readReg 32 0x010, .readReg 32 0x014]
  | .encpix p => operandActions .ienc (.imm p) ++ operandActions .gencs .res
  | .decpix => commandActions .gdecs ++ operandActions .idec .res
  | .encsmp ch v => operandActions (.aenc ch) (.imm v) ++ operandActions .gencs .res
  | .decsmp ch => commandActions .gdecs ++ operandActions (.adec ch) .res
  | .setblkm maxm => operandActions .mcalc (.imm maxm) ++ operandActions (.gsetm 0) .res
  | .setblkmF maxm => operandActions .mcalc (.imm maxm) ++ operandActions (.gsetm 1) .res

/-! ## Reading a source line -/

/-- The value of a hexadecimal digit. -/
def hexDigit (c : Char) : Option Nat :=
  if '0' ≤ c ∧ c ≤ '9' then some (c.toNat - '0'.toNat)
  else if 'a' ≤ c ∧ c ≤ 'f' then some (c.toNat - 'a'.toNat + 10)
  else if 'A' ≤ c ∧ c ≤ 'F' then some (c.toNat - 'A'.toNat + 10)
  else none

/-- The value of a string of digits in `base`; an underscore between digits separates groups (entry 13). -/
def digitsValue (base : Nat) : List Char → Nat → Bool → Option Nat
  | [], v, seen => if seen then some v else none
  | '_' :: cs, v, seen => if seen then digitsValue base cs v false else none
  | c :: cs, v, _ =>
    match hexDigit c with
    | some d => if d < base then digitsValue base cs (base * v + d) true else none
    | none => none

/-- An unsigned integer of R73: decimal, or hexadecimal with the 0x mark. DESIGN CHOICE (entry 15): the mark is lower case, the
digits after it are of either case. -/
def naturalOf : List Char → Option Nat
  | '0' :: 'x' :: cs => digitsValue 16 cs 0 false
  | cs => digitsValue 10 cs 0 false

/-- An integer of R73, with an optional minus sign. -/
def integerOf : List Char → Option Int
  | '-' :: cs => (naturalOf cs).map (fun n => -(n : Int))
  | cs => (naturalOf cs).map (fun n => (n : Int))

/-- The operand of a line (R73). -/
def operandOf (cs : List Char) : Option LineOperand :=
  if cs = ['R', 'E', 'S'] then some .res
  else if cs = ['O', 'P', 'D'] then some .opd
  else match cs with
    | '#' :: v => (integerOf v).map .imm
    | _ => none

/-- The channel of a line (R73). -/
def channelOf (cs : List Char) : Option Channel :=
  if cs = ['c', 'h', '0'] then some .ch0 else if cs = ['c', 'h', '1'] then some .ch1 else none

/-- The F field of a line (R73): a decimal number. DESIGN CHOICE (entry 15): one that does not fit F's seven bits makes no
line. -/
def fieldOf (cs : List Char) : Option (BitVec 7) :=
  (digitsValue 10 cs 0 false).bind (fun n => if n < 128 then some (BitVec.ofNat 7 n) else none)

/-- The line's parts (R73). `cur` is the part being read, reversed. DESIGN CHOICE (entry 15): the grammar gives no blanks and
puts its one optional comma before the operand; here any run of spaces and commas, anywhere in the line, separates two parts
or is dropped at an end of the line, and no other character, a tab included, separates anything. -/
def partsOf : List Char → List Char → List (List Char)
  | [], cur => if cur = [] then [] else [cur.reverse]
  | c :: cs, cur =>
    if c = ' ' ∨ c = ',' then (if cur = [] then partsOf cs [] else cur.reverse :: partsOf cs [])
    else partsOf cs (c :: cur)

/-- The command a row makes of its fields (R62, R63). -/
def rowCommand (row : OpcodeRow) (f : BitVec 7) (ch : Channel) (r : OperandSource) : Instr :=
  row.build (commandWord row.opcode f ch.bit r.bit)

/-- The actions of a line whose mnemonic is the row's, from the parts after it; `force` is the `.F` of GSETM.F (R73). -/
def rowActions (row : OpcodeRow) (force : Bool) (args : List (List Char)) : Option (List HostAction) :=
  match row.format, force, args with
  | .Z, false, [] => some (commandActions (rowCommand row 0 .ch0 .opd))
  | .O, false, [x] => (operandOf x).map (operandActions (rowCommand row 0 .ch0))
  | .F, false, [f] => (fieldOf f).map (fun f => commandActions (rowCommand row f .ch0 .opd))
  | .FO, false, [f, x] =>
    (fieldOf f).bind (fun f => (operandOf x).map (operandActions (rowCommand row f .ch0)))
  | .FO, force, [x] =>
    if row.opcode = 0x20 then (operandOf x).map (operandActions (rowCommand row (if force then 1 else 0) .ch0)) else none
  | .C, false, [c] => (channelOf c).map (fun c => commandActions (rowCommand row 0 c .opd))
  | .CO, false, [c, x] =>
    (channelOf c).bind (fun c => (operandOf x).map (operandActions (rowCommand row 0 c)))
  | _, _, _ => none

/-- The integer of an immediate operand, `#v`. -/
def immediateOf (cs : List Char) : Option Int :=
  match operandOf cs with
  | some (.imm v) => some v
  | _ => none

/-- A pseudo-instruction line (R74). -/
def pseudoOf (name : List Char) (force : Bool) (args : List (List Char)) : Option Pseudo :=
  if name = "LDOPD".toList ∧ force = false then
    match args with
    | [x] => (immediateOf x).map .ldopd
    | _ => none
  else if name = "RDRES".toList ∧ force = false ∧ args = [] then some .rdres
  else if name = "ENCPIX".toList ∧ force = false then
    match args with
    | [x] => (immediateOf x).map .encpix
    | _ => none
  else if name = "DECPIX".toList ∧ force = false ∧ args = [] then some .decpix
  else if name = "ENCSMP".toList ∧ force = false then
    match args with
    | [c, x] => (channelOf c).bind (fun c => (immediateOf x).map (.encsmp c))
    | _ => none
  else if name = "DECSMP".toList ∧ force = false then
    match args with
    | [c] => (channelOf c).map .decsmp
    | _ => none
  else if name = "SETBLKM".toList then
    match args with
    | [x] => (immediateOf x).map (fun v => if force then .setblkmF v else .setblkm v)
    | _ => none
  else none

/-- A mnemonic without its `.F`, and whether it had one (R73). -/
def splitForce (cs : List Char) : List Char × Bool :=
  match cs.reverse with
  | 'F' :: '.' :: rest => (rest.reverse, true)
  | _ => (cs, false)

/-- The host actions of one source line (R73, R74); `none` where the reader knows no such line. What separates a line's parts,
the letter case and the parts a mnemonic takes are the model's DESIGN CHOICE (entry 15). -/
def assemble (line : List Char) : Option (List HostAction) :=
  match partsOf line [] with
  | [] => none
  | head :: args =>
    let nf := splitForce head
    match opcodeMap.find? (fun row => row.mnemonic.toList == nf.1) with
    | some row => rowActions row nf.2 args
    | none => (pseudoOf nf.1 nf.2 args).map Pseudo.expand

end Sys2Proof.Machine
end

