-- ==== Sys2Proof/Machine/HostPrograms.lean ====
section
/-! DEFINITION. The host programs of 80_host_usage.md: the audio and image containers and their pipelines, which drive the
core by its commands. They bind a host, not the core (R150), and `step` does not use them. -/

namespace Sys2Proof.Machine

/-- Why a host program stops (R150). -/
inductive HostStop where
  /-- Host check, code 2 (R150, R162). -/
  | unsupportedFormat
  /-- Host check, code 3 (R150). -/
  | invalidParameter
  /-- Host check, code 5 (R150, R162). -/
  | corruptCode
  /-- A command failed: the core's ERR (R150). -/
  | core (err : BitVec 4)
deriving DecidableEq, Repr

/-- The number a host program reports (R122, R150). -/
def HostStop.code : HostStop → BitVec 4
  | .unsupportedFormat => 2
  | .invalidParameter => 3
  | .corruptCode => 5
  | .core e => e

/-- A host program: it changes the core's state and gives a value or stops (R150: it reports and stops). -/
abbrev HostM := EStateM HostStop State

/-- The state after an action. No action of the host stops the machine, so the other outcomes do not occur. -/
def afterAction (s : State) : Result → State
  | .next t => t
  | .fault _ => s
  | .refused _ => s

/-- One action of the host. -/
def perform (a : HostAction) : HostM Unit := modify (fun s => afterAction s (act a s))

/-- A command, and the look at ERR after it (R150: when a command fails the host reports ERR and stops). -/
def issue (i : Instr) : HostM Unit := do
  perform (cmdWrite (encode i))
  let s ← get
  if s.err ≠ 0 then throw (.core s.err)

/-- `i #v` (R73). -/
def issueOn (i : OperandSource → Instr) (v : Int) : HostM Unit := do
  for a in loadOpdActions v do perform a
  issue (i .opd)

/-- `i RES` (R73). -/
def issueRes (i : OperandSource → Instr) : HostM Unit := issue (i .res)

/-- RDRES (R74): the host reads RES_LO and RES_HI. -/
def readRes : HostM Word64 := do
  perform (.readReg 32 0x010)
  let lo := (← get).busData
  perform (.readReg 32 0x014)
  let hi := (← get).busData
  return ((hi ++ lo).cast (by decide))

/-- `WBITS n, #v`. -/
def putField (n : Nat) (v : Int) : HostM Unit := issueOn (.wbits (BitVec.ofNat 7 n)) v

/-- `RBITS n → v`. -/
def getField (n : Nat) : HostM Nat := do
  issue (.rbits (BitVec.ofNat 7 n))
  return (← readRes).toNat

/-- A predictor order or id as an F field (R66). A value above 127 does not fit F; 127 stands for it, and the core refuses
both alike, with InvalidParameter (entry 14). -/
def predictorField (id : Nat) : BitVec 7 := BitVec.ofNat 7 (min id 127)

/-- `GENCS #r` for each residual of a block (R153, R158). -/
def putResiduals : List Int → HostM Unit
  | [] => pure ()
  | r :: rs => do
    issueOn .gencs r
    putResiduals rs

/-- The bytes of the output stream from index `i` on, `n` of them, read one by one (R52, R145). -/
def readStream : Nat → Nat → HostM (List Byte)
  | 0, _ => pure []
  | n + 1, i => do
    perform (.readObuf (BitVec.ofNat 32 i))
    let b := (← get).busData.extractLsb' 0 8
    return b :: (← readStream n (i + 1))

/-- The complete stream OBUF[0 .. OLEN−1] (R145). -/
def takeStream : HostM (List Byte) := do
  perform (.readReg 32 0x030)
  let n := (← get).busData.toNat
  readStream n 0

/-- IBUF[i ..] gets the bytes (R143 step 1). -/
def loadIbuf : List Byte → Nat → HostM Unit
  | [], _ => pure ()
  | b :: bs, i => do
    perform (.writeIbuf (BitVec.ofNat 32 i) b)
    loadIbuf bs (i + 1)

/-- zext16(lo) | zext16(hi) << 16 as an operand value (R153, R154). -/
def pairOperand (lo hi : Int) : Int := (packPair hi lo).toNat

/-! ## Audio (R151-R155) -/

/-- The inputs of the audio encoder (R153): the rate, C, the frames of C i16 samples each, B ≥ 1, k and the fixed m (0 =
adaptive). The rate and B have the widths of their header fields (R151); C, k and m are checked when the encoder runs. -/
structure AudioInput where
  rate : BitVec 32
  channels : Nat
  frames : List (List (BitVec 16))
  block : BitVec 32
  order : Nat
  fixedM : Nat
deriving DecidableEq, Repr

/-- The audio file header (R151). -/
def putAudioHeader (x : AudioInput) : HostM Unit := do
  putField 32 x.rate.toNat
  putField 16 x.channels
  putField 64 x.frames.length
  putField 32 x.block.toNat
  putField 8 x.order

/-- (mid, side) of a frame (R153): by MSFWD, or by the host itself where the core has no mid/side unit. -/
def midSideOf (left right : Int) : HostM (List Int) := do
  if (← get).params.hasMidside then
    issueOn .msfwd (pairOperand left right)
    let x ← readRes
    return [pairLo x, pairHi x]
  else
    let x := midSide left right
    return [pairLo x, pairHi x]

/-- The coded samples of a frame (R153): mid and side for stereo, the sample itself for mono. -/
def codedSamples (channels : Nat) (frame : List (BitVec 16)) : HostM (List Int) :=
  let sample := fun ch => (frame.getD ch 0).toInt
  if channels = 2 then midSideOf (sample 0) (sample 1) else pure [sample 0]

/-- AENC, then MACC of the residual, for one coded sample; the residual (R153). -/
def encodeSample (ch : Channel) (v : Int) : HostM Int := do
  issueOn (.aenc ch) v
  let r := (← readRes).toInt
  issueRes .macc
  return r

/-- The residuals of a frame's coded samples, channel 0 first (R153). -/
def frameResiduals : List Int → HostM (List Int)
  | [] => pure []
  | [a] => do return [← encodeSample .ch0 a]
  | a :: b :: _ => do
    let r0 ← encodeSample .ch0 a
    let r1 ← encodeSample .ch1 b
    return [r0, r1]

/-- The residuals of a block's frames, in frame-major, channel-minor order (R152, R153). -/
def blockResiduals (channels : Nat) : List (List (BitVec 16)) → HostM (List Int)
  | [] => pure []
  | f :: fs => do
    let coded ← codedSamples channels f
    let rs ← frameResiduals coded
    return rs ++ (← blockResiduals channels fs)

/-- One audio block (R152, R153). -/
def putAudioBlock (x : AudioInput) (frames : List (List (BitVec 16))) : HostM Unit := do
  issue .mclr
  let res ← blockResiduals x.channels frames
  let m ← if x.fixedM = 0 then (do issueOn .mcalc 65535; return (← readRes).toNat) else pure x.fixedM
  issueOn (.gsetm 0) m
  putField 16 m
  putField 32 res.length
  putResiduals res

/-- The blocks of B frames until no frame is left (R153); `fuel` is at least the number of frames. -/
def putAudioBlocks (x : AudioInput) : Nat → List (List (BitVec 16)) → HostM Unit
  | 0, _ => pure ()
  | _ + 1, [] => pure ()
  | fuel + 1, f :: fs => do
    putAudioBlock x ((f :: fs).take x.block.toNat)
    putAudioBlocks x fuel ((f :: fs).drop x.block.toNat)

/-- AudioEncode (R153): the output is OBUF[0 .. OLEN−1]. An order outside 0..3 ends it with the core's InvalidParameter. -/
def audioEncode (x : AudioInput) : HostM Unit := do
  if x.channels ≠ 1 ∧ x.channels ≠ 2 then throw .unsupportedFormat
  if x.fixedM > 65535 then throw .invalidParameter
  issue .srst
  issue (.asetord (predictorField x.order))
  putAudioHeader x
  putAudioBlocks x x.frames.length x.frames
  issue .wclose

/-- The header fields an audio decoder reads (R151). -/
structure AudioHeader where
  rate : Nat
  channels : Nat
  frames : Nat
  block : Nat
  order : Nat
deriving DecidableEq, Repr

/-- GDECS and ADEC of one sample (R154). -/
def decodeSample (ch : Channel) : HostM Int := do
  issue .gdecs
  issueRes (.adec ch)
  return pairLo (← readRes)

/-- (L, R) of (mid, side) (R154): by MSINV, or by the host itself where the core has no mid/side unit. -/
def leftRightOf (mid side : Int) : HostM (List Int) := do
  if (← get).params.hasMidside then
    issueOn .msinv (pairOperand mid side)
    let x ← readRes
    return [pairLo x, pairHi x]
  else
    let x := leftRight mid side
    return [pairLo x, pairHi x]

/-- `n` frames of a block (R154): sample k belongs to channel k mod C. -/
def decodeFrames (channels : Nat) : Nat → HostM (List (List Int))
  | 0 => pure []
  | n + 1 => do
    let a ← decodeSample .ch0
    let frame ← if channels = 2 then (do let b ← decodeSample .ch1; leftRightOf a b) else pure [a]
    return frame :: (← decodeFrames channels n)

/-- The blocks until `left` samples are emitted (R154), with the checks of R155 on each block's count; `fuel` is at least
the number of samples. -/
def getAudioBlocks (channels : Nat) : Nat → Nat → HostM (List (List Int))
  | 0, _ => pure []
  | fuel + 1, left =>
    if left = 0 then pure []
    else do
      let m ← getField 16
      let n ← getField 32
      if n = 0 ∨ n > left ∨ n % channels ≠ 0 then throw .corruptCode
      issueOn (.gsetm 0) m
      let frames ← decodeFrames channels (n / channels)
      return frames ++ (← getAudioBlocks channels fuel (left - n))

/-- AudioDecode (R154) of a file of `n` bytes that stands in IBUF. -/
def audioDecode (n : BitVec 32) : HostM (AudioHeader × List (List Int)) := do
  issue .srst
  issueOn .ropen n.toNat
  let rate ← getField 32
  let channels ← getField 16
  let frames ← getField 64
  let block ← getField 32
  let order ← getField 8
  if channels ≠ 1 ∧ channels ≠ 2 then throw .unsupportedFormat
  issue (.asetord (predictorField order))
  let out ← getAudioBlocks channels (frames * channels) (frames * channels)
  return (⟨rate, channels, frames, block, order⟩, out)

/-! ## Image (R156-R162) -/

/-- The inputs of the image encoder (R158): W, H, the W·H pixels in row-major order, the predictor id, the m-flag (0 =
adaptive) and the caller's block size (0 = row-sized). W, H and the block size have the widths of their header fields (R156);
the id and the m-flag are checked when the encoder runs. -/
structure ImageInput where
  width : BitVec 32
  height : BitVec 32
  pixels : List Byte
  predictor : Nat
  mflag : Nat
  block : BitVec 32
deriving DecidableEq, Repr

/-- The block size the encoder resolves (R156). -/
def ImageInput.resolvedBlock (x : ImageInput) : Nat := if x.block = 0 then x.width.toNat else x.block.toNat

/-- The image magic (R156). -/
def imageMagic : Nat := 0x47494D47

/-- The image file header (R156). -/
def putImageHeader (x : ImageInput) : HostM Unit := do
  putField 32 imageMagic
  putField 32 x.width.toNat
  putField 32 x.height.toNat
  putField 8 x.predictor
  putField 8 x.mflag
  putField 32 x.resolvedBlock

/-- IENC, then MACC of the residual, for each pixel of a block (R158). -/
def pixelResiduals : List Byte → HostM (List Int)
  | [] => pure []
  | p :: ps => do
    issueOn .ienc p.toNat
    let r := (← readRes).toInt
    issueRes .macc
    return r :: (← pixelResiduals ps)

/-- One image block (R157, R158); the adaptive m is clamped to a byte (R160). -/
def putImageBlock (x : ImageInput) (pixels : List Byte) : HostM Unit := do
  issue .mclr
  let res ← pixelResiduals pixels
  if x.mflag = 0 then
    issueOn .mcalc 255
    let m ← readRes
    issueOn (.gsetm 1) m.toNat
    putField 8 m.toNat
  putResiduals res

/-- The blocks until no pixel is left (R158); `fuel` is at least the number of pixels. -/
def putImageBlocks (x : ImageInput) : Nat → List Byte → HostM Unit
  | 0, _ => pure ()
  | _ + 1, [] => pure ()
  | fuel + 1, p :: ps => do
    putImageBlock x ((p :: ps).take x.resolvedBlock)
    putImageBlocks x fuel ((p :: ps).drop x.resolvedBlock)

/-- ImageEncode (R158). A fixed m above 255 is a host InvalidParameter before anything is written (D43); a predictor id
outside 0..8, or a width the core does not take, ends it with the core's InvalidParameter. -/
def imageEncode (x : ImageInput) : HostM Unit := do
  if x.mflag > 255 then throw .invalidParameter
  issue .srst
  issue (.isetp (predictorField x.predictor))
  issueOn .isetw x.width.toNat
  putImageHeader x
  if x.mflag ≠ 0 then issueOn (.gsetm 1) x.mflag
  putImageBlocks x x.pixels.length x.pixels
  issue .wclose

/-- The header fields an image decoder reads (R156). -/
structure ImageHeader where
  width : Nat
  height : Nat
  predictor : Nat
  mflag : Nat
  block : Nat
deriving DecidableEq, Repr

/-- GDECS and IDEC of `n` pixels (R159). -/
def decodePixels : Nat → HostM (List Nat)
  | 0 => pure []
  | n + 1 => do
    issue .gdecs
    issueRes .idec
    let p := ((← readRes).extractLsb' 0 8).toNat
    return p :: (← decodePixels n)

/-- The blocks until `left` pixels are decoded (R159), with the check of the adaptive m byte (R162); `fuel` is at least
the number of pixels. -/
def getImageBlocks (h : ImageHeader) : Nat → Nat → HostM (List Nat)
  | 0, _ => pure []
  | fuel + 1, left =>
    if left = 0 then pure []
    else do
      let n := min h.block left
      if h.mflag = 0 then
        let m ← getField 8
        if m = 0 then throw .corruptCode
        issueOn (.gsetm 1) m
      let ps ← decodePixels n
      return ps ++ (← getImageBlocks h fuel (left - n))

/-- ImageDecode (R159) of a file of `n` bytes that stands in IBUF. -/
def imageDecode (n : BitVec 32) : HostM (ImageHeader × List Nat) := do
  issue .srst
  issueOn .ropen n.toNat
  let magic ← getField 32
  if magic ≠ imageMagic then throw .corruptCode
  let width ← getField 32
  let height ← getField 32
  let predictor ← getField 8
  let mflag ← getField 8
  let block ← getField 32
  if block = 0 then throw .corruptCode
  issue (.isetp (predictorField predictor))
  issueOn .isetw width
  if mflag ≠ 0 then issueOn (.gsetm 1) mflag
  let header : ImageHeader := ⟨width, height, predictor, mflag, block⟩
  let out ← getImageBlocks header (width * height) (width * height)
  return (header, out)

/-- The encoded candidate of one predictor id (R161): its stream, copied out of OBUF. -/
def imageCandidate (x : ImageInput) (id : Nat) : HostM (List Byte) := do
  imageEncode { x with predictor := id }
  takeStream

/-- The smaller of two candidates, the earlier one on a tie (R161). -/
def betterCandidate (a b : List Byte) : List Byte := if b.length < a.length then b else a

/-- The best of the candidates `id`, `id` + 1, … against the best so far (R161). -/
def bestCandidate (x : ImageInput) : Nat → Nat → List Byte → HostM (List Byte)
  | 0, _, best => pure best
  | n + 1, id, best => do
    let c ← imageCandidate x id
    bestCandidate x n (id + 1) (betterCandidate best c)

/-- Auto-selection of the predictor (R161): nine candidates, the smallest kept, the lowest id on a tie. -/
def imageEncodeAuto (x : ImageInput) : HostM (List Byte) := do
  let first ← imageCandidate x 0
  bestCandidate x 8 1 first

end Sys2Proof.Machine
end

