-- ==== Sys2Proof/Tests/Slice0.lean ====
section
/-! SUPPORT. Small tests. Every expected value is the spec's: a test vector of 95_test_vectors.md, an example of a command
rule, or an encoding table. After them, for every statement with hypotheses, a state and operands that meet them. -/

open Sys2Proof Sys2Proof.Machine

namespace Sys2Proof.Tests

/-! ## WellFormed (R66) -/

theorem test_bit_count_zero_is_ill_formed : (Instr.wbits 0 .opd).wellFormed = false := by decide
theorem test_bit_count_65_is_ill_formed : (Instr.rbits 65).wellFormed = false := by decide
theorem test_bit_count_64_is_well_formed : (Instr.wbits 64 .res).wellFormed = true := by decide
theorem test_force_flag_2_is_ill_formed : (Instr.gsetm 2 .opd).wellFormed = false := by decide
theorem test_order_4_is_ill_formed : (Instr.asetord 4).wellFormed = false := by decide
theorem test_mode_id_9_is_ill_formed : (Instr.isetp 9).wellFormed = false := by decide

/-! ## Decoding: a word of R68, R73 or V-L2.9 for every command, and the illegal words of V-L2.8 -/

theorem test_decode_control_and_writer :
    [0x00000000, 0x00000001, 0x00000010, 0x80000011, 0x00002012, 0x80000812, 0x00000013].map (decodeTableWord 32) =
      [some .nop, some .srst, some .wopen, some (.wbit .res), some (.wbits 32 .opd), some (.wbits 8 .res),
        some .wclose] := by decide

theorem test_decode_reader :
    [0x00000018, 0x00000019, 0x0000081A].map (decodeTableWord 32) =
      [some (.ropen .opd), some .rbit, some (.rbits 8)] := by decide

theorem test_decode_golomb :
    [0x00000120, 0x80000120, 0x00000021, 0x00000022, 0x80000023, 0x00000024, 0x00000025, 0x00000026].map
        (decodeTableWord 32) =
      [some (.gsetm 1 .opd), some (.gsetm 1 .res), some (.genc .opd), some .gdec, some (.gencs .res), some .gdecs,
        some (.fold .opd), some (.unfold .opd)] := by decide

theorem test_decode_audio :
    [0x00000230, 0x00007F30, 0x00000031, 0x00010032, 0x00010033, 0x80010034, 0x00000035, 0x80000036].map
        (decodeTableWord 32) =
      [some (.asetord 2), some (.asetord 127), some .ahclr, some (.apred .ch1), some (.aenc .ch1 .opd),
        some (.adec .ch1 .res), some (.msfwd .opd), some (.msinv .res)] := by decide

theorem test_decode_image_and_block :
    [0x00000840, 0x00000041, 0x00000042, 0x00000043, 0x80000044, 0x00000050, 0x80000051, 0x00000052].map
        (decodeTableWord 32) =
      [some (.isetp 8), some (.isetw .opd), some (.ipred .opd), some (.ienc .opd), some (.idec .res), some .mclr,
        some (.macc .res), some (.mcalc .opd)] := by decide

theorem test_decode_refuses_the_illegal_words :
    [0x00008000, 0x00000100, 0x80000010, 0x00020032, 0x000000E0, 0x00000002, 0x00010021, 0x40000021, 0x00000053,
      0x000000FF, 0x80000022, 0x00010040, 0x80000001, 0x00008012, 0x00000811].map (decodeTableWord 32) =
      List.replicate 15 none := by decide

theorem test_decode_names_the_fault_of_a_word :
    decode 0x80000022 = .error .unusedField ∧ decode 0x40000021 = .error .reservedBits ∧
      decode 0x00000053 = .error (.reservedOpcode 0x53) := by decide

/-! ## One step -/

/-- The next state of a command. -/
def after (i : Instr) (s : State) : Option State :=
  match exec i s with
  | .next t => some t
  | .fault _ => none
  | .refused _ => none

/-- The reset state with a value in OPD. -/
def withOpd (v : Word64) : State := { State.reset with opd := v }

/-- The writer in the middle of a stream: `WBITS 12, #0xABC` has run (R79). -/
def writing : State := { State.reset with opd := 0xABC, obuf := [(0, 0xAB)], olen := 1, wacc := 0x0C, wcnt := 4 }

/-- The reader on the bytes AB C0 (R81). -/
def reading : State := { State.reset with opd := 2, ibuf := [(0, 0xAB), (1, 0xC0)], ilen := 2 }

/-- The parameters of `GSETM #4` (R88), the writer empty, and one input byte. -/
def golomb4 (byte : Byte) : State := { State.reset with gm := 4, gb := 2, gt := 0, ibuf := [(0, byte)], ilen := 1 }

/-- Order 2 with the history (100, 90, 0) in channel 0 (R101). -/
def audio2 (v : Word64) : State := { State.reset with opd := v, aord := 2, hist0 := ⟨100, 90, 0⟩ }

/-- The image of RCG §8 scenario 4, mode 4, at pixel (1, 1): neighbours 40, 20 and 10 (R112). -/
def image4 (v : Word64) : State :=
  { State.reset with
    opd := v, ipid := 4, iw := 3, ix := 1, iy := 1, cul := 10, lb := [(0, 40), (1, 20), (2, 30)] }

/-- The accumulators of a block of residuals 4, −4, 2, −10 (R118). -/
def block4 (maxm : Word64) : State := { State.reset with opd := maxm, msum := 20, mcnt := 4 }

/-- A core with an error latched by GDEC (R121). -/
def failed : State := { golomb4 0x01 with err := 4, errcmd := 0x22 }

theorem test_nop_changes_nothing : after .nop writing = some writing := by decide

theorem test_srst_clears_the_error_and_keeps_ibuf :
    (after .srst failed).map (fun t => (t.err, t.errcmd, t.gm, t.ibuf)) = some (0, 0, 0, [(0, 0x01)]) := by decide

theorem test_srst_keeps_obuf :
    (after .srst writing).map (fun t => (t.wacc, t.wcnt, t.olen, t.obuf)) = some (0, 0, 0, [(0, 0xAB)]) := by decide

theorem test_wopen_restarts_the_stream :
    (after .wopen { writing with wclosed := true }).map (fun t => (t.olen, t.wcnt, t.wacc, t.wclosed)) =
      some (0, 0, 0, false) := by decide

theorem test_wbit_writes_one_bit :
    (after (.wbit .opd) (withOpd 1)).map (fun t => (t.wacc, t.wcnt, t.olen)) = some (1, 1, 0) := by decide

theorem test_wbit_ignores_the_other_bits :
    (after (.wbit .opd) (withOpd 2)).map (fun t => (t.wacc, t.wcnt, t.olen)) = some (0, 1, 0) := by decide

theorem test_wbits_12 :
    (after (.wbits 12 .opd) (withOpd 0xABC)).map (fun t => (t.obuf, t.olen, t.wacc, t.wcnt)) =
      some ([(0, 0xAB)], 1, 0x0C, 4) := by decide

theorem test_wbits_0_on_a_closed_writer :
    (after (.wbits 0 .opd) { State.reset with wclosed := true }).map (fun t => (t.err, t.errcmd)) = some (3, 0x12) := by
  decide

theorem test_wclose_pads_the_last_byte :
    (after .wclose writing).map (fun t => (t.obuf, t.olen, t.wcnt, t.wclosed)) =
      some ([(0, 0xAB), (1, 0xC0)], 2, 0, true) := by decide

theorem test_ropen_2 :
    (after (.ropen .opd) (withOpd 2)).map (fun t => (t.ilen, t.rpos, t.err)) = some (2, 0, 0) := by decide

theorem test_ropen_beyond_ibuf_cap :
    (after (.ropen .opd) (withOpd 4097)).map (fun t => (t.ilen, t.err)) = some (0, 3) := by decide

theorem test_rbit_reads_the_first_bit :
    (after .rbit reading).map (fun t => (t.res, t.rpos)) = some (1, 1) := by decide

theorem test_rbits_12 : (after (.rbits 12) reading).map (fun t => (t.res, t.rpos)) = some (0xABC, 12) := by decide

theorem test_rbits_5_past_the_end :
    (after (.rbits 5) { reading with rpos := 12 }).map (fun t => (t.err, t.errcmd, t.rpos)) = some (7, 0x51A, 12) := by
  decide

theorem test_gsetm_5 :
    (after (.gsetm 0 .opd) (withOpd 5)).map (fun t => (t.gm, t.gb, t.gt, t.bforce)) = some (5, 3, 3, false) := by decide

theorem test_gsetm_f_1 :
    (after (.gsetm 1 .opd) (withOpd 1)).map (fun t => (t.gm, t.gb, t.gt, t.bforce)) = some (1, 1, 1, true) := by decide

theorem test_genc_9 :
    (after (.genc .opd) { golomb4 0 with opd := 9 }).map (fun t => (t.wacc, t.wcnt, t.res)) =
      some (0x05, 5, 0) := by decide

theorem test_genc_without_a_parameter :
    (after (.genc .opd) { State.reset with wclosed := true }).map (fun t => (t.err, t.wcnt)) = some (3, 0) := by decide

theorem test_gdec_9 : (after .gdec (golomb4 0x28)).map (fun t => (t.res, t.rpos)) = some (9, 5) := by decide

theorem test_gencs_minus_3 :
    (after (.gencs .res) { golomb4 0 with res := 0xFFFFFFFFFFFFFFFD }).map (fun t => (t.wacc, t.wcnt, t.res)) =
      some (0x05, 4, 0xFFFFFFFFFFFFFFFD) := by decide

theorem test_gdecs_minus_3 :
    (after .gdecs (golomb4 0x50)).map (fun t => (t.res, t.rpos)) = some (0xFFFFFFFFFFFFFFFD, 4) := by decide

theorem test_fold_minus_3 : (after (.fold .opd) (withOpd 0xFFFFFFFFFFFFFFFD)).map (·.res) = some 5 := by decide

theorem test_fold_of_the_least_value :
    (after (.fold .opd) (withOpd 0x8000000000000000)).map (·.res) = some 0xFFFFFFFFFFFFFFFF := by decide

theorem test_unfold_5 : (after (.unfold .opd) (withOpd 5)).map (·.res) = some 0xFFFFFFFFFFFFFFFD := by decide

theorem test_unfold_of_the_greatest_value :
    (after (.unfold .opd) (withOpd 0xFFFFFFFFFFFFFFFF)).map (·.res) = some 0x8000000000000000 := by decide

theorem test_asetord_2 : (after (.asetord 2) State.reset).map (fun t => (t.aord, t.err)) = some (2, 0) := by decide

theorem test_ahclr_keeps_the_order :
    (after .ahclr (audio2 0)).map (fun t => (t.hist0, t.hist1, t.aord)) = some (⟨0, 0, 0⟩, ⟨0, 0, 0⟩, 2) := by decide

theorem test_apred_clamps :
    (after (.apred .ch0) { State.reset with aord := 3, hist0 := ⟨30000, -30000, 30000⟩ }).map (·.res) = some 32767 := by
  decide

theorem test_aenc_115 :
    (after (.aenc .ch0 .opd) (audio2 115)).map (fun t => (t.res, t.hist0, t.hist1)) =
      some (5, ⟨115, 100, 90⟩, ⟨0, 0, 0⟩) := by decide

theorem test_aenc_refuses_a_pattern_that_is_not_extended :
    (after (.aenc .ch0 .opd) (audio2 0xFFFF)).map (fun t => (t.err, t.hist0)) = some (3, ⟨100, 90, 0⟩) := by decide

theorem test_adec_5 :
    (after (.adec .ch0 .opd) (audio2 5)).map (fun t => (t.res, t.hist0)) = some (115, ⟨115, 100, 90⟩) := by decide

theorem test_adec_wraps :
    (after (.adec .ch1 .opd) { State.reset with opd := 1, aord := 1, hist1 := ⟨32767, 0, 0⟩ }).map (·.res) =
      some 0xFFFFFFFFFFFF8000 := by decide

theorem test_msfwd_200_100 : (after (.msfwd .opd) (withOpd 0x006400C8)).map (·.res) = some 0x00640096 := by decide

theorem test_msfwd_wraps : (after (.msfwd .opd) (withOpd 0x80007FFF)).map (·.res) = some 0xFFFF7FFF := by decide

theorem test_msinv_150_100 : (after (.msinv .opd) (withOpd 0x00640096)).map (·.res) = some 0x006400C8 := by decide

theorem test_isetp_8 : (after (.isetp 8) State.reset).map (fun t => (t.ipid, t.err)) = some (8, 0) := by decide

theorem test_isetw_3 :
    (after (.isetw .opd) { image4 3 with iw := 2 }).map (fun t => (t.iw, t.ix, t.iy, t.cul)) = some (3, 0, 0, 0) := by
  decide

theorem test_ipred_left_avg :
    (after (.ipred .opd) { withOpd 0x4B3264 with ipid := 5 }).map (·.res) = some 88 := by decide

theorem test_ienc_50 :
    (after (.ienc .opd) (image4 50)).map (fun t => (t.res, t.ix, t.cul, t.lb)) =
      some (0, 2, 20, [(0, 40), (1, 50), (2, 30)]) := by decide

theorem test_ienc_wraps_the_row :
    (after (.ienc .opd) { image4 255 with ix := 2 }).map (fun t => (t.ix, t.iy, t.err)) = some (0, 2, 0) := by decide

theorem test_idec_0 : (after (.idec .opd) (image4 0)).map (fun t => (t.res, t.ix)) = some (50, 2) := by decide

theorem test_idec_clamps :
    (after (.idec .opd) (image4 0x8000000000000000)).map (fun t => (t.res, t.lb)) =
      some (0, [(0, 40), (1, 0), (2, 30)]) := by decide

theorem test_mclr : (after .mclr (block4 0)).map (fun t => (t.msum, t.mcnt)) = some (0, 0) := by decide

theorem test_macc_minus_7 :
    (after (.macc .opd) { withOpd 0xFFFFFFFFFFFFFFF9 with msum := 3, mcnt := 1 }).map (fun t => (t.msum, t.mcnt)) =
      some (10, 2) := by decide

theorem test_mcalc_255 : (after (.mcalc .opd) (block4 255)).map (·.res) = some 4 := by decide

theorem test_mcalc_clamps : (after (.mcalc .opd) (block4 3)).map (·.res) = some 3 := by decide

/-! ## The step, the window and the assembler -/

theorem test_step_drops_a_word_under_the_latch :
    step (failed.withFetchWord 32 0x80000001) = .next failed := rfl

theorem test_step_raises_on_an_illegal_word :
    step (State.reset.withFetchWord 32 0x80000001) = .next { State.reset with err := 9, errcmd := 0x80000001 } := rfl

theorem test_id_word : State.reset.readWindow 32 0x000 = 0x4752434D := by decide

theorem test_status_at_reset : State.reset.readWindow 32 0x018 = 0x1200 := by decide

theorem test_assemble_wbits :
    assemble "WBITS 32, #0x47494D47".toList =
      some [.writeReg 32 0x008 0x47494D47, .writeReg 32 0x00C 0, .writeReg 32 0x004 0x2012] := by decide

theorem test_assemble_aenc :
    assemble "AENC ch1, #-5".toList =
      some [.writeReg 32 0x008 0xFFFFFFFB, .writeReg 32 0x00C 0xFFFFFFFF, .writeReg 32 0x004 0x10033] := by decide

theorem test_assemble_setblkm :
    assemble "SETBLKM #255".toList =
      some [.writeReg 32 0x008 255, .writeReg 32 0x00C 0, .writeReg 32 0x004 0x52, .writeReg 32 0x004 0x80000020] := by
  decide

/-- Why a host program stopped, if it did. -/
def stopOf {α : Type} (x : EStateM.Result HostStop State α) : Option HostStop :=
  match x with
  | .ok _ _ => none
  | .error e _ => some e

/-- R158 with R109: an id outside 0..8 is InvalidParameter (R122), a number that does not fit F too. -/
theorem test_image_encode_refuses_id_128 :
    stopOf (imageEncode ⟨1, 1, [0], 128, 1, 0⟩ State.reset) = some (.core 3) := rfl

/-- R153 with R98. -/
theorem test_audio_encode_refuses_order_128 :
    stopOf (audioEncode ⟨8000, 1, [[0]], 1, 128, 1⟩ State.reset) = some (.core 3) := rfl

/-! ## Witnesses: states and operands that meet the hypotheses of the statements, clause by clause, at their boundaries -/

/-- Parameters with a small quotient cap and small buffers, for the boundaries. -/
def tiny : Config.Params := { Config.Params.default with qcap := 2, ibufCap := 2, obufCap := 2, imgMaxW := 2 }

/-- The reset state of the small machine. -/
def tinyReset : State := State.resetWith tiny

/-- The small machine under `GSETM #4` with one input byte. -/
def tiny4 (byte : Byte) : State := { tinyReset with gm := 4, gb := 2, gt := 0, ibuf := [(0, byte)], ilen := 1 }

/-- The small machine with OBUF one bit short of full. -/
def nearlyFull : State := { tinyReset with opd := 1, obuf := [(0, 1)], olen := 1, wcnt := 7 }

/-- The small machine with OBUF full but for the pending bits. -/
def full : State := { tinyReset with opd := 1, obuf := [(0, 1), (1, 2)], olen := 2, wcnt := 7, gm := 4, gb := 2 }

/-- A core without the mid/side unit. -/
def noMidSide : State := State.resetWith { tiny with hasMidside := false }

theorem witness_EncodeOfDecodeIsTheWord : decode 0x80010034 = .ok (.adec .ch1 .res) := by decide

theorem witness_IllegalWordRaisesIllegalCommand :
    State.reset.err = 0 ∧ illegalWord State.reset.params 0x8000 ∧ illegalWord noMidSide.params 0x35 ∧
      ¬ illegalWord State.reset.params 0x35 := by
  unfold illegalWord
  decide

theorem witness_FieldValuesOutsideTheLegalSetAreRefused :
    State.reset.err = 0 ∧
      [Instr.wbits 0 .opd, .wbits 65 .res, .rbits 0, .rbits 127, .gsetm 2 .opd, .asetord 4, .isetp 9].map
        Instr.wellFormed = List.replicate 7 false := by decide

theorem witness_StepRunsTheDecodedCommand :
    (State.reset.withFetchWord 32 0x2012).pending = .writeReg 32 0x004 0x2012 :: [] ∧
      decode 0x2012 = .ok (.wbits 32 .opd) := by decide

theorem witness_HostActionsRunInOrder :
    ({ State.reset with pending := [.readObuf 0, .hardReset] } : State).pending = .readObuf 0 :: [.hardReset] ∧
      State.reset.pending = [] := by decide

theorem witness_LatchedErrorDropsEveryWordButSrst :
    failed.err ≠ 0 ∧ (0x80000001 : Word32) ≠ 0x00000001 ∧ (0x00000001 : Word32) = 0x00000001 := by decide

theorem witness_LatchedErrorStaysUntilReset :
    failed.err ≠ 0 ∧ step (failed.withFetchWord 32 0x120) = .next failed ∧
      step (failed.withFetchWord 32 1) = .next failed.softReset ∧
      step { failed with pending := [.hardReset] } = .next failed.hardReset :=
  ⟨by decide, rfl, rfl, rfl⟩

theorem witness_WindowAccessRules :
    ¬ (16 = 32 ∧ (0x018 : BitVec 12).toNat % 4 = 0) ∧ ¬ (32 = 32 ∧ (0x01A : BitVec 12).toNat % 4 = 0) ∧
      (0x060 < (0x064 : BitVec 12).toNat ∧ (0x07C : BitVec 12).toNat < 0x080) ∧ 0x094 < (0x098 : BitVec 12).toNat ∧
      (0x000 : BitVec 12) ∉ [0x004, 0x008, 0x00C] ∧ (0xFFC : BitVec 12) ∉ [0x004, 0x008, 0x00C] := by decide

theorem witness_OnlyTheHostWritesIbuf :
    (1 : BitVec 32).toNat < tinyReset.params.ibufCap ∧ tinyReset.params.ibufCap ≤ (2 : BitVec 32).toNat ∧
      exec .rbit reading = .next { reading with res := 1, rpos := 1 } := ⟨by decide, by decide, rfl⟩

theorem witness_HostReadsTheOutputStream :
    nearlyFull.params.obufCap ≤ (2 : BitVec 32).toNat ∧
      ((0 : BitVec 32).toNat < nearlyFull.params.obufCap ∧ (0 : BitVec 32).toNat < nearlyFull.olen.toNat ∧
        nearlyFull.obuf.byteAt? (0 : BitVec 32).toNat = some 1) ∧
      ((1 : BitVec 32).toNat < nearlyFull.params.obufCap ∧ nearlyFull.olen.toNat ≤ (1 : BitVec 32).toNat) := by decide

theorem witness_SrstResetsTheCore :
    (0x80000001 : Word32).extractLsb' 0 8 = 0x01 ∧ (0x80000001 : Word32) ≠ 0x00000001 := by decide

theorem witness_WopenOpensAnEmptyStream : writing.err = 0 := by decide

theorem witness_WbitPutsOneBit :
    (writing.err = 0 ∧ ({ writing with wclosed := true } : State).wclosed = true) ∧
      (writing.wclosed = false ∧ ({ writing with wcnt := 6 } : State).wcnt.toNat < 7) ∧
      (nearlyFull.wclosed = false ∧ nearlyFull.wcnt.toNat = 7 ∧ nearlyFull.olen.toNat ≠ nearlyFull.params.obufCap) ∧
      (full.wclosed = false ∧ full.wcnt.toNat = 7 ∧ full.olen.toNat = full.params.obufCap) := by decide

theorem witness_WbitsAppendsTheLowBits :
    (writing.err = 0 ∧ (0 : BitVec 7).toNat < 1 ∧ 64 < (65 : BitVec 7).toNat) ∧
      (1 ≤ (64 : BitVec 7).toNat ∧ (64 : BitVec 7).toNat ≤ 64 ∧
        ({ writing with wclosed := true } : State).wclosed = true) ∧
      (nearlyFull.err = 0 ∧ nearlyFull.wclosed = false ∧ nearlyFull.hasRoom (1 : BitVec 7).toNat) ∧
      (nearlyFull.wclosed = false ∧ nearlyFull.lacksRoom (9 : BitVec 7).toNat) := by
  unfold State.hasRoom State.lacksRoom
  decide

theorem witness_WcloseFlushesAndCloses :
    ({ writing with wclosed := true } : State).wclosed = true ∧
      (({ writing with wcnt := 0, wacc := 0 } : State).wclosed = false ∧
        ({ writing with wcnt := 0, wacc := 0 } : State).wcnt = 0) ∧
      (nearlyFull.err = 0 ∧ nearlyFull.wclosed = false ∧ 1 ≤ nearlyFull.wcnt.toNat ∧ nearlyFull.wcnt.toNat ≤ 7 ∧
        nearlyFull.olen.toNat < nearlyFull.params.obufCap ∧ nearlyFull.params.obufCap ≤ 2 ^ 32 - 1) ∧
      (full.err = 0 ∧ full.wclosed = false ∧ full.wcnt ≠ 0 ∧ full.olen.toNat = full.params.obufCap) := by decide

theorem witness_RopenOpensTheInputStream :
    tinyReset.err = 0 ∧ tinyReset.params.legal = true ∧
      tinyReset.params.ibufCap < (({ tinyReset with opd := 3 } : State).operand .opd).toNat ∧
      (({ tinyReset with opd := 2 } : State).operand .opd).toNat ≤ tinyReset.params.ibufCap := by decide

theorem witness_RbitReadsOneBit :
    reading.err = 0 ∧ ({ reading with rpos := 16 } : State).rpos.toNat = 8 * reading.ilen.toNat ∧
      ({ reading with rpos := 15 } : State).rpos.toNat ≠ 8 * reading.ilen.toNat := by decide

theorem witness_RbitsReadsTheNextBits :
    reading.err = 0 ∧ ((0 : BitVec 7).toNat < 1 ∧ 64 < (65 : BitVec 7).toNat) ∧
      (1 ≤ (17 : BitVec 7).toNat ∧ (17 : BitVec 7).toNat ≤ 64 ∧
        8 * reading.ilen.toNat < reading.rpos.toNat + (17 : BitVec 7).toNat) ∧
      (1 ≤ (16 : BitVec 7).toNat ∧ (16 : BitVec 7).toNat ≤ 64 ∧
        reading.rpos.toNat + (16 : BitVec 7).toNat ≤ 8 * reading.ilen.toNat) := by decide

/-- WBITS 12, #0xABC: the bytes AB C0, which the reader holds. -/
theorem witness_FieldsRoundTripThroughTheStream :
    (tinyReset.err = 0 ∧ (∀ f ∈ [((12 : BitVec 7), (0xABC : Word64))], 1 ≤ f.1.toNat ∧ f.1.toNat ≤ 64) ∧
      tinyReset.params.obufCap ≤ 2 ^ 32 - 1 ∧
      (fieldBits [((12 : BitVec 7), (0xABC : Word64))] + 7) / 8 ≤ tinyReset.params.obufCap) ∧
    (((after .wopen tinyReset).bind (writeFields [(12, 0xABC)])).bind (after .wclose)).map (fun t => (t.olen, t.obuf)) =
      some (2, [(0, 0xAB), (1, 0xC0)]) ∧
    (reading.err = 0 ∧ reading.params.legal = true ∧ 2 ≤ reading.params.ibufCap ∧ reading.opd.toNat = 2) ∧
    ∀ i, i < 2 → Memory.byteAt? [(0, 0xAB), (1, 0xC0)] i = some (reading.ibufByte i) :=
  ⟨⟨by decide, by simp, by decide, by decide⟩, rfl, by decide, fun i hi => by interval_cases i <;> rfl⟩

theorem witness_GsetmSetsTheParameters :
    State.reset.err = 0 ∧ 1 < (2 : BitVec 7).toNat ∧ (State.reset.operand .opd).toNat = 0 ∧
      2 ^ 32 - 1 < ((withOpd 0x100000000).operand .opd).toNat ∧
      ((1 : BitVec 7).toNat ≤ 1 ∧ 1 ≤ ((withOpd 0xFFFFFFFF).operand .opd).toNat ∧
        ((withOpd 0xFFFFFFFF).operand .opd).toNat ≤ 2 ^ 32 - 1) := by decide

theorem witness_GolombParametersAreAsDefined : 1 ≤ 1 ∧ 1 ≤ 2 ^ 32 - 1 ∧ 2 ^ 32 - 1 ≤ 2 ^ 32 - 1 := by decide

theorem witness_GencAppendsTheCode :
    (tinyReset.err = 0 ∧ tinyReset.gm = 0) ∧
      (({ full with wclosed := true } : State).gm ≠ 0 ∧ ({ full with wclosed := true } : State).wclosed = true) ∧
      ((tiny4 0).gm ≠ 0 ∧ (tiny4 0).wclosed = false ∧ (tiny4 0).hasRoom ((tiny4 0).codeOf 9).length) ∧
      (full.gm ≠ 0 ∧ full.wclosed = false ∧ full.lacksRoom (full.codeOf (full.operand .opd).toNat).length) := by
  unfold State.hasRoom State.lacksRoom
  decide

theorem witness_GencsAppendsTheFoldedCode :
    ((2 : Nat) : Int) = (if 0 ≤ (full.operand .opd).toInt then 2 * (full.operand .opd).toInt
        else -2 * (full.operand .opd).toInt - 1) ∧
      full.err = 0 ∧ tinyReset.gm = 0 ∧ (full.gm ≠ 0 ∧ ({ full with wclosed := true } : State).wclosed = true) ∧
      (full.wclosed = false ∧ full.lacksRoom (full.codeOf 2).length) ∧
      ((tiny4 0).gm ≠ 0 ∧ (tiny4 0).wclosed = false ∧ (tiny4 0).hasRoom ((tiny4 0).codeOf 0).length) := by
  unfold State.hasRoom State.lacksRoom
  decide

theorem witness_GdecReadsACode :
    (tiny4 0x28).err = 0 ∧ (tiny4 0x28).params.legal = true ∧ (tiny4 0x28).gm ≠ 0 ∧ (tiny4 0x28).legalGolomb ∧
      9 / (tiny4 0x28).gm.toNat ≤ (tiny4 0x28).params.qcap ∧
      (tiny4 0x28).unreadBits = (tiny4 0x28).codeOf 9 ++ [false, false, false] := by
  unfold State.legalGolomb
  decide

/-- m = 1 under the force flag and FORCE_T_FROM = unforced_b, before the bits 001 1 0000 (R89's corner case at q = QCAP). -/
def forced1 : State :=
  { tinyReset with
    params := { tiny with forceTFrom := .unforcedB }, gm := 1, gb := 1, bforce := true, ibuf := [(0, 0x30)], ilen := 1 }

theorem witness_GdecReadsACode_corner :
    forced1.err = 0 ∧ forced1.params.legal = true ∧ forced1.params.forceTFrom = .unforcedB ∧ forced1.gm = 1 ∧
      forced1.bforce = true ∧ forced1.legalGolomb ∧ 2 ≤ forced1.params.qcap ∧
      forced1.unreadBits = List.replicate 2 false ++ [true, true] ++ [false, false, false, false] := by
  unfold State.legalGolomb
  decide

theorem witness_GdecsReadsAFoldedCode_corner :
    (after .gdecs forced1).map (fun t => (t.res.toInt, t.rpos)) = some (-2, 4) := by decide

theorem witness_GdecsReadsAFoldedCode :
    (tiny4 0x50).err = 0 ∧ (tiny4 0x50).params.legal = true ∧ (tiny4 0x50).gm ≠ 0 ∧ (tiny4 0x50).legalGolomb ∧
      5 / (tiny4 0x50).gm.toNat ≤ (tiny4 0x50).params.qcap ∧
      (tiny4 0x50).unreadBits = (tiny4 0x50).codeOf 5 ++ [false, false, false, false] := by
  unfold State.legalGolomb
  decide

theorem witness_BadCodesAreRefused :
    (tinyReset.err = 0 ∧ tinyReset.gm = 0) ∧
      ((tiny4 0x10).gm ≠ 0 ∧
        (tiny4 0x10).unreadBits =
          List.replicate ((tiny4 0x10).params.qcap + 1) false ++ [true, false, false, false, false]) ∧
      (({ tiny4 0x01 with rpos := 5 } : State).gm ≠ 0 ∧ ({ tiny4 0x01 with rpos := 5 } : State).legalGolomb ∧
        ({ tiny4 0x01 with rpos := 5 } : State).legalReader ∧
        9 / ({ tiny4 0x01 with rpos := 5 } : State).gm.toNat ≤ tiny.qcap ∧ [false, true] ≠ [] ∧
        ({ tiny4 0x01 with rpos := 5 } : State).unreadBits ++ [false, true] =
          ({ tiny4 0x01 with rpos := 5 } : State).codeOf 9) := by
  unfold State.legalGolomb State.legalReader
  decide

theorem witness_FoldAndUnfoldResults : (withOpd 0x8000000000000000).err = 0 := by decide

theorem witness_UnfoldInvertsFold : (withOpd 0xFFFFFFFFFFFFFFFF).err = 0 := by decide

/-- The encoder writes 9 (q = 2, the cap), then 12 (q = 3, over the cap); and −3 by GENCS. -/
theorem witness_GolombCodesRoundTrip :
    ((tiny4 0).err = 0 ∧ (tiny4 0x28).params.legal = true ∧ (tiny4 0).gm ≠ 0 ∧ (tiny4 0).wclosed = false ∧
      (tiny4 0x28).gm = (tiny4 0).gm ∧ (tiny4 0x28).gb = (tiny4 0).gb ∧ (tiny4 0x28).gt = (tiny4 0).gt ∧
      (tiny4 0x28).legalGolomb) ∧
    (9 = (({ tiny4 0 with opd := 9 } : State).operand .opd).toNat ∧ (tiny4 0).hasRoom ((tiny4 0).codeOf 9).length ∧
      (after (.genc .opd) { tiny4 0 with opd := 9 }).map
        (fun t => (tiny4 0x28).unreadBits == t.outputBits.drop 0 ++ [false, false, false]) = some true ∧
      9 / (tiny4 0).gm.toNat ≤ (tiny4 0x28).params.qcap) ∧
    (12 = (({ tiny4 0 with opd := 12 } : State).operand .opd).toNat ∧ (tiny4 0).hasRoom ((tiny4 0).codeOf 12).length ∧
      (after (.genc .opd) { tiny4 0 with opd := 12 }).map
        (fun t => (tiny4 0x10).unreadBits == t.outputBits.drop 0 ++ [false, false]) = some true ∧
      (tiny4 0x10).params.qcap < 12 / (tiny4 0).gm.toNat) ∧
    (5 = foldInt (({ tiny4 0 with opd := -3 } : State).operand .opd).toInt ∧
      (tiny4 0).hasRoom ((tiny4 0).codeOf 5).length ∧
      (after (.gencs .opd) { tiny4 0 with opd := -3 }).map
        (fun t => (tiny4 0x50).unreadBits == t.outputBits.drop 0 ++ [false, false, false, false]) = some true ∧
      5 / (tiny4 0).gm.toNat ≤ (tiny4 0x50).params.qcap) := by
  unfold State.legalGolomb State.hasRoom
  decide

theorem witness_AsetordAndIsetpSetThePredictor :
    State.reset.err = 0 ∧ (3 : BitVec 7).toNat ≤ 3 ∧ 3 < (4 : BitVec 7).toNat ∧ (8 : BitVec 7).toNat ≤ 8 ∧
      8 < (9 : BitVec 7).toNat := by decide

theorem witness_AhclrClearsTheHistory : (audio2 0).err = 0 := by decide

theorem witness_ApredPredictsFromTheHistory :
    (audio2 0).err = 0 ∧ ((audio2 0).aord = 0 → (110 : Int) = 0) ∧
      ((audio2 0).aord = 1 → (110 : Int) = ((audio2 0).hist .ch0).h0.toInt) ∧
      ((audio2 0).aord = 2 → (110 : Int) = 2 * ((audio2 0).hist .ch0).h0.toInt - ((audio2 0).hist .ch0).h1.toInt) ∧
      ((audio2 0).aord = 3 → (110 : Int) = 3 * ((audio2 0).hist .ch0).h0.toInt - 3 * ((audio2 0).hist .ch0).h1.toInt +
        ((audio2 0).hist .ch0).h2.toInt) := by decide

theorem witness_AencGivesTheResidual :
    (audio2 0).err = 0 ∧ ((audio2 (-32769)).operand .opd).toInt < -32768 ∧
      32767 < ((audio2 32768).operand .opd).toInt ∧
      (-32768 ≤ ((audio2 (-32768)).operand .opd).toInt ∧ ((audio2 (-32768)).operand .opd).toInt ≤ 32767) ∧
      (-32768 ≤ ((audio2 32767).operand .opd).toInt ∧ ((audio2 32767).operand .opd).toInt ≤ 32767) := by decide

theorem witness_AdecReconstructsTheSample : (audio2 5).err = 0 := by decide

theorem witness_MsfwdGivesMidAndSide :
    (withOpd 0x80007FFF).err = 0 ∧ 32767 = (((withOpd 0x80007FFF).operand .opd).extractLsb' 0 16).toInt ∧
      -32768 = (((withOpd 0x80007FFF).operand .opd).extractLsb' 16 16).toInt ∧
      noMidSide.params.hasMidside = false ∧ (withOpd 0x80007FFF).params.hasMidside = true := by decide

theorem witness_MsinvGivesLeftAndRight :
    (withOpd 0xFFFF7FFF).err = 0 ∧ 32767 = (((withOpd 0xFFFF7FFF).operand .opd).extractLsb' 0 16).toInt ∧
      -1 = (((withOpd 0xFFFF7FFF).operand .opd).extractLsb' 16 16).toInt ∧
      noMidSide.params.hasMidside = false ∧ (withOpd 0xFFFF7FFF).params.hasMidside = true := by decide

theorem witness_AudioEncoderAndDecoderStayInStep :
    (audio2 115).err = 0 ∧ (audio2 5).err = 0 ∧ (audio2 5).aord = (audio2 115).aord ∧
      (audio2 5).hist .ch0 = (audio2 115).hist .ch0 ∧ -32768 ≤ ((audio2 115).operand .opd).toInt ∧
      ((audio2 115).operand .opd).toInt ≤ 32767 ∧
      (after (.aenc .ch0 .opd) (audio2 115)).map (·.res) = some ((audio2 5).operand .opd) := by decide

theorem witness_MidSideRoundTrip :
    (withOpd 0xFFFFFFFF80007FFF).err = 0 ∧ (withOpd 0xFFFFFFFF80007FFF).params.hasMidside = true := by decide

theorem witness_IsetwStartsAnImage :
    tinyReset.err = 0 ∧ tinyReset.params.legal = true ∧ (tinyReset.operand .opd).toNat = 0 ∧
      tinyReset.params.imgMaxW < (({ tinyReset with opd := 3 } : State).operand .opd).toNat ∧
      (1 ≤ (({ tinyReset with opd := 2 } : State).operand .opd).toNat ∧
        (({ tinyReset with opd := 2 } : State).operand .opd).toNat ≤ tinyReset.params.imgMaxW) := by decide

theorem witness_IpredGivesThePrediction :
    ({ withOpd 0x4B3264 with ipid := 8 } : State).err = 0 ∧ ({ withOpd 0x4B3264 with ipid := 8 } : State).ipid.toNat ≤ 8 ∧
      (100 : Int) = (((withOpd 0x4B3264).operand .opd).toNat % 256 : Nat) ∧
      (50 : Int) = (((withOpd 0x4B3264).operand .opd).toNat / 256 % 256 : Nat) ∧
      (75 : Int) = (((withOpd 0x4B3264).operand .opd).toNat / 65536 % 256 : Nat) := by decide

theorem witness_IencGivesTheResidual :
    (State.reset.err = 0 ∧ State.reset.iw = 0 ∧ 255 < ((image4 256).operand .opd).toNat) ∧
      ((image4 255).iw ≠ 0 ∧ ((image4 255).operand .opd).toNat ≤ 255 ∧ (image4 255).ipid.toNat ≤ 8 ∧
        (image4 255).ix.toNat < (image4 255).iw.toNat) ∧
      ((40 : Byte) = (if (image4 255).ix.toNat > 0 then (image4 255).lbAt ((image4 255).ix.toNat - 1) else 0) ∧
        (20 : Byte) = (if (image4 255).iy.toNat > 0 then (image4 255).lbAt (image4 255).ix.toNat else 0) ∧
        (10 : Byte) = (if (image4 255).ix.toNat > 0 ∧ (image4 255).iy.toNat > 0 then (image4 255).cul else 0)) := by
  decide

theorem witness_IdecReconstructsThePixel :
    (State.reset.err = 0 ∧ State.reset.iw = 0) ∧
      ((image4 (-1)).err = 0 ∧ (image4 (-1)).iw ≠ 0 ∧ (image4 (-1)).ipid.toNat ≤ 8 ∧
        (image4 (-1)).ix.toNat < (image4 (-1)).iw.toNat) ∧
      ((40 : Byte) = (if (image4 (-1)).ix.toNat > 0 then (image4 (-1)).lbAt ((image4 (-1)).ix.toNat - 1) else 0) ∧
        (20 : Byte) = (if (image4 (-1)).iy.toNat > 0 then (image4 (-1)).lbAt (image4 (-1)).ix.toNat else 0) ∧
        (10 : Byte) = (if (image4 (-1)).ix.toNat > 0 ∧ (image4 (-1)).iy.toNat > 0 then (image4 (-1)).cul else 0)) := by
  decide

theorem witness_ResidualsLieInTheirRanges :
    (8 ≤ 8 ∧ 5 ≤ 8) ∧ ((0 : Int) ≤ 0 ∧ (0 : Int) ≤ 255 ∧ (255 : Int) ≤ 255) := by decide

/-- The encoder at pixel 50 and the decoder at its residual 0. -/
theorem witness_ImageEncoderAndDecoderStayInStep :
    ((image4 50).err = 0 ∧ (image4 0).err = 0 ∧ (image4 50).iw ≠ 0 ∧ (image4 50).ix.toNat < (image4 50).iw.toNat ∧
      (image4 50).ipid.toNat ≤ 8 ∧ ((image4 50).operand .opd).toNat ≤ 255 ∧
      (after (.ienc .opd) (image4 50)).map (·.res) = some ((image4 0).operand .opd)) ∧
      (image4 50).scanAgrees (image4 0) :=
  ⟨by decide, rfl, rfl, rfl, rfl, rfl, fun _ _ => rfl, fun _ _ _ _ => rfl⟩

theorem witness_LineBufferResetContentsAreUnobservable :
    ((image4 3).err = 0 ∧ ({ withOpd 3 with ipid := 4, powerUps := 1 } : State).err = 0 ∧
      (image4 3).ipid = ({ withOpd 3 with ipid := 4, powerUps := 1 } : State).ipid ∧
      (image4 3).operand .opd = ({ withOpd 3 with ipid := 4, powerUps := 1 } : State).operand .opd ∧
      (image4 3).params.legal = true ∧ (image4 3).params.imgMaxW = (withOpd 3).params.imgMaxW ∧
      1 ≤ ((image4 3).operand .opd).toNat ∧ ((image4 3).operand .opd).toNat ≤ (image4 3).params.imgMaxW) ∧
    ((image4 3).iw ≠ 0 ∧ (image4 3).ix.toNat < (image4 3).iw.toNat ∧ ((image4 255).operand .opd).toNat ≤ 255) ∧
    (image4 3).scanAgrees (image4 3) :=
  ⟨by decide, by decide, rfl, rfl, rfl, rfl, rfl, fun _ _ => rfl, fun _ _ _ _ => rfl⟩

theorem witness_MclrAndMaccAccumulate : (block4 0x8000000000000000).err = 0 := by decide

theorem witness_McalcGivesTheClampedParameter :
    (block4 0).err = 0 ∧ ((block4 0).operand .opd).toNat = 0 ∧ 2 ^ 32 - 1 < ((block4 0x100000000).operand .opd).toNat ∧
      (1 ≤ ((block4 0xFFFFFFFF).operand .opd).toNat ∧ ((block4 0xFFFFFFFF).operand .opd).toNat ≤ 2 ^ 32 - 1) := by decide

/-- S = 20 and S = 21 over N = 4: μ = 5 gives 4 (R118), and so do μ = 5.25 and ⌊μ⌋ = 5. -/
theorem witness_BlockParameterIsMonotone :
    (20 ≤ 21 ∧ isBlockParameter .exact 20 4 4 ∧ isBlockParameter .exact 21 4 4) ∧
      (isBlockParameter .floor 20 4 4 ∧ isBlockParameter .floor 21 4 4) := by
  unfold isBlockParameter
  refine ⟨⟨by decide, ⟨by decide, by decide, fun k h1 h2 => ?_⟩, ⟨by decide, by decide, fun k h1 h2 => ?_⟩⟩,
      ⟨by decide, by decide, fun k h1 h2 => ?_⟩, ⟨by decide, by decide, fun k h1 h2 => ?_⟩⟩ <;>
    · simp only [meanPair]
      interval_cases k <;> decide

theorem witness_BlockParameterIsMonotone_mcalc :
    (block4 255).err = 0 ∧ (block4 255).params.meanRounding = (block4 255).params.meanRounding ∧
      (block4 255).msum.toNat ≤ ({ block4 255 with msum := 21 } : State).msum.toNat ∧
      1 ≤ ((block4 255).operand .opd).toNat ∧ ((block4 255).operand .opd).toNat ≤ 2 ^ 32 - 1 := by decide

theorem witness_BlockParameterIsTheLogarithmFormula : 1 ≤ 20 ∧ 1 ≤ 4 ∧ isBlockParameter .exact 20 4 4 :=
  ⟨by decide, by decide, witness_BlockParameterIsMonotone.1.2.1⟩

/-- A precise error, and CorruptCode. -/
theorem witness_FailedCommandsLeaveTheirRecord :
    (State.reset.err = 0 ∧ exec .rbit State.reset = .next (State.reset.latch .endOfStream 0x19) ∧
      (State.reset.latch .endOfStream 0x19).err ≠ 0) ∧
    ((tiny4 0x10).err = 0 ∧ exec .gdec (tiny4 0x10) = .next ((tiny4 0x10).drawCursor.latch .corruptCode 0x22) ∧
      ((tiny4 0x10).drawCursor.latch .corruptCode 0x22).err ≠ 0) :=
  ⟨⟨by decide, rfl, by decide⟩, by decide, rfl, by decide⟩

theorem witness_RegistersAreWrittenByTheirCommandsOnly :
    exec (.asetord 2) State.reset = .next { State.reset with aord := 2 } ∧ Instr.asetord 2 ≠ .srst := ⟨rfl, by decide⟩

/-- A legal state in the middle of its work, and the step it takes. -/
def busy : State :=
  { tinyReset with
    obuf := [(0, 0xAB)], olen := 1, wacc := 0x0C, wcnt := 4, ibuf := [(0, 0x28)], ilen := 1, rpos := 8, gm := 4, gb := 2,
    ipid := 4, iw := 2, ix := 1, iy := 1, cul := 10, lb := [(0, 40), (1, 20)], pending := [.writeReg 32 0x004 0x19] }

theorem witness_EveryStepKeepsTheStateLegal :
    busy.legal ∧ step busy = .next { busy with pending := [], err := 7, errcmd := 0x19 } := by
  have above : ∀ (v w : Byte) (i : Nat), 2 ≤ i → Memory.byteAt? [(0, v), (1, w)] i = none := by
    intro v w i h
    simp only [Memory.byteAt?]
    rw [if_neg (by omega), if_neg (by omega)]
  have above1 : ∀ (v : Byte) (i : Nat), 2 ≤ i → Memory.byteAt? [(0, v)] i = none := by
    intro v i h
    simp only [Memory.byteAt?]
    rw [if_neg (by omega)]
  refine ⟨⟨by decide, ⟨by decide, by decide⟩, ⟨by decide, by decide, fun _ => by decide⟩, ⟨by decide, by decide⟩, ?_,
    ⟨by decide, by decide, by decide, by decide, fun _ => by decide⟩, ⟨by decide, by decide, by decide, ?_, ?_, ?_⟩⟩, rfl⟩
  · unfold State.legalGolomb
    decide
  · exact above1 _
  · exact above1 _
  · exact above _ _

theorem witness_TheResetStateIsLegal : tiny.legal = true := by decide

end Sys2Proof.Tests
end

section
/-! The step on the host's action list, one equation per shape of the list, and O7. -/

namespace Sys2Proof.Machine

/-- R58: the head of the action list is performed, and is no longer pending when it is. -/
theorem step_of_pending_cons {s : State} {a : HostAction} {rest : List HostAction} (h : s.pending = a :: rest) :
    step s = act a { s with pending := rest } := by
  simp only [step, nextAction, h]

/-- R141: the core does nothing of its own accord. -/
theorem step_of_pending_nil {s : State} (h : s.pending = []) : step s = .next s := by
  simp only [step, nextAction, h]

/-- Settles O7, by the two equations of the step: a pending action is performed, and no pending action is an idle step. -/
theorem hostActionsRunInOrder : Obligations.HostActionsRunInOrder := by
  intro s
  exact ⟨fun _ _ hcons => step_of_pending_cons hcons, step_of_pending_nil⟩

end Sys2Proof.Machine
end

section
/-! The host's side of the core: a write of CMD (O6), the two resets (O16), and the register window (O12, O11, O13). -/

namespace Sys2Proof.Machine

/-! ## A write of CMD -/

/-- R28: a 32-bit write at CMD's offset is the core's one step. -/
theorem act_cmdWrite (w : Word32) (s : State) : act (cmdWrite w) s = runWord w s := rfl

theorem runWord_of_decode {w : Word32} {i : Instr} (s : State) (h : decode w = .ok i) : runWord w s = exec i s := by
  simp only [runWord, h]

/-- Settles O6: the step performs the write, the write runs the word, and the word is the command. -/
theorem stepRunsTheDecodedCommand : Obligations.StepRunsTheDecodedCommand := by
  intro s w i rest hpend hdec
  calc step s = act (cmdWrite w) { s with pending := rest } := step_of_pending_cons hpend
    _ = runWord w { s with pending := rest } := act_cmdWrite _ _
    _ = exec i { s with pending := rest } := runWord_of_decode _ hdec

/-! ## Reset -/

theorem resetWith_hasResetValues (p : Config.Params) : (State.resetWith p).hasResetValues := by
  simp [State.hasResetValues, State.resetWith, History.zero]

/-- R121: SRST differs from the reset state in no element that has a reset value. -/
theorem softReset_hasResetValues (s : State) : s.softReset.hasResetValues := resetWith_hasResetValues s.params

/-- R139. -/
theorem hardReset_hasResetValues (s : State) : s.hardReset.hasResetValues := resetWith_hasResetValues s.params

/-- Settles O16, by the reset values of `State.resetWith`, which both resets share, and what each reset does to the stores. -/
theorem bothResetsGiveTheResetValues : Obligations.BothResetsGiveTheResetValues := by
  refine ⟨resetWith_hasResetValues _, fun s => ⟨s.softReset, s.hardReset, rfl, rfl, softReset_hasResetValues s,
    hardReset_hasResetValues s, s.softReset_params, s.hardReset_params, ?ibuf, ?obuf, ?lb, ?unknown⟩⟩
  case ibuf => exact fun i => by simp only [State.ibufByte, State.softReset_ibuf, State.softReset_powerUps]
  case obuf => exact fun i => by rw [State.softReset_obuf]
  case lb => exact fun i => by simp only [State.lbAt, State.softReset_lb, State.softReset_powerUps]
  case unknown => exact fun i => by simp

/-! ## Accesses to the register window -/

theorem windowAccess_iff (bits : Nat) (offset : BitVec 12) :
    windowAccess bits offset = true ↔ bits = 32 ∧ offset.toNat % 4 = 0 := by
  simp [windowAccess]

/-- R45. -/
theorem readWindow_refused {bits : Nat} {offset : BitVec 12} (s : State) (h : ¬ (bits = 32 ∧ offset.toNat % 4 = 0)) :
    s.readWindow bits offset = 0 := if_neg (mt (windowAccess_iff bits offset).mp h)

/-- R45. -/
theorem writeWindow_refused {bits : Nat} {offset : BitVec 12} (v : Word32) (s : State)
    (h : ¬ (bits = 32 ∧ offset.toNat % 4 = 0)) : writeWindow bits offset v s = .next s :=
  if_neg (mt (windowAccess_iff bits offset).mp h)

/-- R44, R45: a window word that is 0 at its offset reads 0 at every width. -/
theorem readWindow_eq_zero {offset : BitVec 12} (s : State) (bits : Nat) (h : s.windowWord offset.toNat = 0) :
    s.readWindow bits offset = 0 := by
  unfold State.readWindow
  split
  · exact h
  · rfl

/-- R44, R45: no row of the map lies in the two gaps. -/
theorem windowWord_unmapped (s : State) {n : Nat} (h : 0x060 < n ∧ n < 0x080 ∨ 0x094 < n) : s.windowWord n = 0 := by
  apply State.windowWord.eq_31 <;> omega

/-- R45: what the host writes at any other offset is ignored. -/
theorem writeWindow_ignored {offset : BitVec 12} (bits : Nat) (v : Word32) (s : State)
    (h : offset ∉ ([0x004, 0x008, 0x00C] : List (BitVec 12))) : writeWindow bits offset v s = .next s := by
  simp only [List.mem_cons, List.not_mem_nil, or_false, not_or] at h
  obtain ⟨hcmd, hlo, hhi⟩ := h
  unfold writeWindow
  rw [if_neg (show offset ≠ cmdOffset from hcmd), if_neg hlo, if_neg hhi, ite_self]

/-- A read of the window hands the host its word and does nothing else (R56). -/
theorem act_readReg (bits : Nat) (offset : BitVec 12) (s : State) :
    act (.readReg bits offset) s = .next { s with busData := s.readWindow bits offset } := rfl

/-- Settles O12: the refused accesses, the offsets that read 0, and the writes that are ignored. -/
theorem windowAccessRules : Obligations.WindowAccessRules := by
  intro s bits offset v
  refine ⟨fun h => ⟨?refusedRead, writeWindow_refused v s h⟩, fun h => ?unmapped, ?cmd, writeWindow_ignored bits v s,
    ⟨_, act_readReg bits offset s⟩⟩
  case refusedRead => rw [act_readReg, readWindow_refused s h]
  case unmapped => rw [act_readReg, readWindow_eq_zero s bits (windowWord_unmapped s h)]
  case cmd => rw [act_readReg, readWindow_eq_zero s bits rfl]

/-! ## STATUS -/

theorem reof_eq (s : State) : s.reof = decide (s.rpos.toNat = 8 * s.ilen.toNat) := rfl

theorem gmv_eq (s : State) : s.gmv = decide (s.gm ≠ 0) :=
  Bool.eq_iff_iff.mpr (by simp [State.gmv])

theorem iwv_eq (s : State) : s.iwv = decide (s.iw ≠ 0) :=
  Bool.eq_iff_iff.mpr (by simp [State.iwv])

/-- Settles O11, by the bits of STATUS (`State.getLsbD_statusWord`). -/
theorem statusWordHoldsTheFlags : Obligations.StatusWordHoldsTheFlags := by
  intro s
  refine ⟨s.statusWord, rfl, ?err, ?low, ?wclosed, ?reof, ?gmv, ?iwv, ?ms, ?high⟩
  case err =>
    refine BitVec.eq_of_getLsbD_eq fun k hk => ?_
    simp [State.getLsbD_statusWord, hk]
  case low =>
    refine BitVec.eq_of_getLsbD_eq fun k hk => ?_
    have h8 : 4 + k < 8 := by omega
    simp [State.getLsbD_statusWord, h8]
  case wclosed => exact s.getLsbD_statusWord 8
  case reof => exact (s.getLsbD_statusWord 9).trans (reof_eq s)
  case gmv => exact (s.getLsbD_statusWord 10).trans (gmv_eq s)
  case iwv => exact (s.getLsbD_statusWord 11).trans (iwv_eq s)
  case ms => exact s.getLsbD_statusWord 12
  case high =>
    refine BitVec.eq_of_getLsbD_eq fun k hk => ?_
    rw [BitVec.getLsbD_extractLsb', State.getLsbD_statusWord]
    simp (disch := omega) only [if_neg]
    simp

/-! ## The register map -/

/-- A register of 64 bits, from its two rows of the map. -/
theorem append_halves (x : Word64) : (x.extractLsb' 32 32 ++ x.extractLsb' 0 32 : BitVec (32 + 32)) = x :=
  (BitVec.extractLsb'_append_extractLsb'_eq_extractLsb' rfl).trans BitVec.extractLsb'_eq_self

/-- R37: RPOS, from its two rows of the map. -/
theorem toNat_rpos_halves (x : BitVec 35) :
    (x.extractLsb' 0 32).toNat + 2 ^ 32 * ((x.extractLsb' 32 3).zeroExtend 32).toNat = x.toNat := by
  have hx := x.isLt
  simp only [BitVec.extractLsb'_toNat, BitVec.truncate_eq_setWidth, BitVec.toNat_setWidth, Nat.shiftRight_eq_div_pow]
  omega

/-- R54: a write of OPD's low half. -/
theorem writeOpdLo_halves (s : State) (v : Word32) :
    (s.writeOpdLo v).opd.extractLsb' 0 32 = v ∧ (s.writeOpdLo v).opd.extractLsb' 32 32 = s.opd.extractLsb' 32 32 :=
  ⟨BitVec.extractLsb'_append_eq_right, BitVec.extractLsb'_append_eq_left⟩

/-- R54: a write of OPD's high half. -/
theorem writeOpdHi_halves (s : State) (v : Word32) :
    (s.writeOpdHi v).opd.extractLsb' 32 32 = v ∧ (s.writeOpdHi v).opd.extractLsb' 0 32 = s.opd.extractLsb' 0 32 :=
  ⟨BitVec.extractLsb'_append_eq_left, BitVec.extractLsb'_append_eq_right⟩

/-- Settles O13, row by row: the packed words by their values as numbers, the halves of wide registers by `append_halves`
and `toNat_rpos_halves`, the narrow registers by their extension, and the rest by the table itself. -/
theorem registerWindowMap : Obligations.RegisterWindowMap := by
  intro s
  refine ⟨s.readWindow 32, fun o => act_readReg 32 o s, rfl, rfl, append_halves s.opd, append_halves s.res, ?status, rfl,
    rfl, s.toNat_gparamWord, rfl, s.toNat_wstateWord, rfl, rfl, toNat_rpos_halves s.rpos, ?aord, ?ipid, rfl, rfl, rfl, ?cul,
    append_halves s.msum, rfl, ?history, fun v => ⟨_, rfl, writeOpdLo_halves s v⟩, fun v => ⟨_, rfl, writeOpdHi_halves s v⟩⟩
  case status =>
    rw [← reof_eq, ← gmv_eq, ← iwv_eq]
    exact s.toNat_statusWord
  case aord => exact BitVec.toNat_setWidth_of_le (by decide : 2 ≤ 32)
  case ipid => exact BitVec.toNat_setWidth_of_le (by decide : 4 ≤ 32)
  case cul => exact BitVec.toNat_setWidth_of_le (by decide : 8 ≤ 32)
  case history =>
    have hext : ∀ x : BitVec 16, (x.signExtend 32).toInt = x.toInt := fun x => BitVec.toInt_signExtend_of_le (by decide)
    simp only [← hext]
    rfl

end Sys2Proof.Machine
end

section
/-! Which command writes which element of the state (O58), read off `exec_change`. -/

namespace Sys2Proof.Machine

/-- The four elements that bits put into the output stream write (R75). -/
theorem putList_update {l : List Bool} {s t : State} (h : putList l s = some t) :
    ∃ acc cnt len buf, t = { s with wacc := acc, wcnt := cnt, olen := len, obuf := buf } :=
  ⟨t.wacc, t.wcnt, t.olen, t.obuf, putList_frame h⟩

/-- Settles O58: each kind of change that `exec_change` lists names its commands and writes their elements only. -/
theorem registersAreWrittenByTheirCommandsOnly : Obligations.RegistersAreWrittenByTheirCommandsOnly := by
  intro i s t h hi
  cases exec_change h hi with
  | same => simp
  | precise => simp
  | imprecise hi => rcases hi with ⟨r, rfl⟩ | ⟨f, r, rfl⟩ | ⟨r, rfl⟩ | ⟨r, rfl⟩ <;> simp
  | badCode e he hi => rcases hi with rfl | rfl <;> simp
  | put l t hi ht =>
    obtain ⟨acc, cnt, len, buf, rfl⟩ := putList_update ht
    rcases hi with ⟨r, rfl⟩ | ⟨f, r, rfl⟩ | ⟨r, rfl⟩ | ⟨r, rfl⟩ <;> simp
  | openedWriter hi => subst hi; simp
  | closedWriter t hi ht => subst hi; rw [ht]; simp
  | read x t hi ht =>
    rw [ht.1]
    rcases hi with rfl | ⟨f, rfl⟩ | rfl | rfl <;> simp [writesRes]
  | result x hi => simp [hi]
  | opened r hi => subst hi; simp
  | golomb f r hi => subst hi; simp
  | order f hi => subst hi; simp
  | mode f hi => subst hi; simp
  | width r hi => subst hi; simp
  | cleared hi => subst hi; simp
  | history hi => obtain ⟨ch, r, rfl | rfl⟩ := hi <;> simp [writesRes]
  | pixel r hi => rcases hi with rfl | rfl <;> simp [writesRes]
  | block hi => rcases hi with rfl | ⟨r, rfl⟩ <;> simp

end Sys2Proof.Machine
end

section
/-! What each command, each action of the host and each reset does to the legal states (10_state.md), and O60 and O59. -/

namespace Sys2Proof.Machine

/-! ## Reset -/

/-- R48: the reset state meets every range of 10_state.md, for all legal parameters. -/
theorem resetWith_legal (p : Config.Params) (hp : p.legal = true) : (State.resetWith p).legal := by
  refine ⟨hp, ⟨by simp [State.resetWith], fun _ => rfl⟩, ?writer, ?reader, ⟨rfl, rfl, rfl⟩, ?image, ?stores⟩
  case writer => simp [State.legalWriter, State.resetWith]
  case reader => simp [State.legalReader, State.resetWith]
  case image => simp [State.legalImage, State.resetWith]
  case stores => simp [State.legalStores, State.resetWith]

/-- Settles O60, by `resetWith_legal`, of which the model's reset state is one case. -/
theorem theResetStateIsLegal : Obligations.TheResetStateIsLegal :=
  ⟨resetWith_legal _ (by decide), resetWith_legal⟩

/-- R121: SRST resets the registers and keeps the stores. -/
theorem softReset_legal {s : State} (hs : s.legal) : s.softReset.legal := by
  obtain ⟨hp, -, -, -, -, -, hst⟩ := hs
  obtain ⟨-, herr, hw, hr, hg, hi, -⟩ := resetWith_legal s.params hp
  refine ⟨hp, herr, ?writer, hr, hg, ?image, hst⟩
  case writer => simp [State.legalWriter]
  case image => simp [State.legalImage]

/-- R139: for the ranges of 10_state.md, hardware reset gives the reset state for the same parameters. -/
theorem hardReset_legal {s : State} (hs : s.legal) : s.hardReset.legal := resetWith_legal s.params hs.1

/-! ## Values that fit their registers -/

theorem toNat_ofNat_of_lt {n x : Nat} (h : x < 2 ^ n) : (BitVec.ofNat n x).toNat = x := by
  rw [BitVec.toNat_ofNat, Nat.mod_eq_of_lt h]

theorem ofNat_ne_zero {n x : Nat} (h0 : x ≠ 0) (h : x < 2 ^ n) : BitVec.ofNat n x ≠ 0 := fun hz => by
  have hx := toNat_ofNat_of_lt h
  rw [hz] at hx
  exact h0 (hx.symm.trans BitVec.toNat_zero)

/-- R11, R12: the legal sizes fit the registers that count up to them. -/
theorem caps_lt_of_legal {s : State} (hs : s.legal) : s.params.obufCap < 2 ^ 32 ∧ s.params.imgMaxW < 2 ^ 32 := by
  have h := hs.1
  simp only [Config.Params.legal, Config.inRange32, Bool.and_eq_true, decide_eq_true_eq] at h
  omega

/-! ## Errors -/

/-- What is left of `State.legal` when an error is about to be latched: WCNT may be 8, and bytes of the stream may be
unknown (R126). -/
def State.legalToLatch (s : State) : Prop :=
  s.params.legal = true ∧ (s.olen.toNat ≤ s.params.obufCap ∧ s.wcnt.toNat ≤ 8) ∧ s.legalReader ∧ s.legalGolomb ∧
    s.legalImage ∧ s.legalStores

theorem legalToLatch_of_legal {s : State} (hs : s.legal) : s.legalToLatch := by
  obtain ⟨hp, -, ⟨holen, hwcnt, -⟩, hr, hg, hi, hst⟩ := hs
  exact ⟨hp, ⟨holen, hwcnt⟩, hr, hg, hi, hst⟩

/-- R125, R131: a latched code is one the core raises, and is not 0. -/
theorem latch_legal {s : State} (e : ErrorKind) (w : Word32) (hs : s.legalToLatch) : (s.latch e w).legal := by
  obtain ⟨hp, ⟨holen, hwcnt⟩, hr, hg, hi, hst⟩ := hs
  have hcode : e.code ∈ ([0, 1, 3, 4, 5, 7, 8, 9] : List (BitVec 4)) := by cases e <;> decide
  exact ⟨hp, ⟨hcode, fun h0 => absurd h0 e.code_ne_zero⟩, ⟨holen, hwcnt, fun h0 => absurd h0 e.code_ne_zero⟩, hr, hg, hi, hst⟩

/-- R126: the writer's state after IO from PutBit is in range. -/
theorem drawWriter_legalToLatch {s : State} (hs : s.legal) : s.drawWriter.legalToLatch := by
  obtain ⟨hcap, -⟩ := caps_lt_of_legal hs
  obtain ⟨hp, -, ⟨holen, -, -⟩, hr, hg, hi, hibuf, hobuf, hlb, hibufCap, hobufCap, hlbCap⟩ := hs
  obtain ⟨-, -, hwcnt, -, holen', -, -, -⟩ := drawWriter_failedWrite s 0 holen (by omega)
  refine ⟨hp, ⟨holen', hwcnt⟩, hr, hg, hi, hibuf, Memory.wf_forgetFrom _ _ hobuf, hlb, hibufCap, fun i hle => ?_, hlbCap⟩
  rw [State.drawWriter_obuf, Memory.byteAt?_forgetFrom]
  split
  · exact hobufCap i hle
  · rfl

/-- R126: the cursor after TruncatedCode or CorruptCode is in range. -/
theorem drawCursor_legalToLatch {s : State} (hs : s.legal) : s.drawCursor.legalToLatch := by
  obtain ⟨hp, -, ⟨holen, hwcnt, -⟩, ⟨hilen, hrpos⟩, hg, hi, hst⟩ := hs
  obtain ⟨-, -, -, hrpos', -⟩ := drawCursor_failedRead s .corruptCode 0 hrpos
  exact ⟨hp, ⟨holen, hwcnt⟩, ⟨hilen, hrpos'⟩, hg, hi, hst⟩

/-- A command whose every error is precise keeps the state legal where its effects do. -/
theorem runCommand_legal {i : Instr} {s t : State} {k : Ending} (hs : s.legal)
    (hdone : ∀ u, k = .done u → s.err = 0 → u.legal) (hraised : ∀ e u, k = .raised e u → u = s)
    (h : runCommand i s k = .next t) : t.legal := by
  rcases runCommand_cases i s k with ⟨-, hr⟩ | ⟨h0, u, hk, hr⟩ | ⟨-, e, u, hk, hr⟩ <;> rw [hr] at h <;> cases h
  · exact hs
  · exact hdone _ hk h0
  · rw [hraised e u hk]
    exact latch_legal e _ (legalToLatch_of_legal hs)

/-! ## The bit writer -/

/-- A byte stored at OBUF[OLEN] leaves every byte of the stream known and the writer between two bytes (R75, R80). -/
theorem storeByte_legal {s : State} (hs : s.legal) (h0 : s.err = 0) (hroom : s.olen.toNat ≠ s.params.obufCap) (v : Byte)
    (closed : Bool) :
    ({ s with
      obuf := s.obuf.setByte s.olen.toNat v
      olen := BitVec.ofNat 32 (s.olen.toNat + 1)
      wacc := 0
      wcnt := 0
      wclosed := closed } : State).legal := by
  obtain ⟨hcap, -⟩ := caps_lt_of_legal hs
  obtain ⟨hp, herr, ⟨holen, -, hopen⟩, hr, hg, hi, hibuf, hobuf, hlb, hibufCap, hobufCap, hlbCap⟩ := hs
  obtain ⟨-, -, hknown⟩ := hopen h0
  have hnew : (BitVec.ofNat 32 (s.olen.toNat + 1)).toNat = s.olen.toNat + 1 :=
    toNat_ofNat_of_lt (by omega)
  refine ⟨hp, herr, ⟨?olen, by simp, fun _ => ⟨by simp, by simp, fun i hlt => ?known⟩⟩, hr, hg, hi, hibuf,
    Memory.wf_setByte _ _ _ hobuf, hlb, hibufCap, fun i hle => ?beyond, hlbCap⟩
  case olen =>
    show (BitVec.ofNat 32 (s.olen.toNat + 1)).toNat ≤ s.params.obufCap
    omega
  case known =>
    change i < (BitVec.ofNat 32 (s.olen.toNat + 1)).toNat at hlt
    show ((s.obuf.setByte s.olen.toNat v).byteAt? i).isSome
    rw [Memory.byteAt?_setByte]
    split
    · rfl
    · exact hknown i (by omega)
  case beyond =>
    change s.params.obufCap ≤ i at hle
    show (s.obuf.setByte s.olen.toNat v).byteAt? i = none
    rw [Memory.byteAt?_setByte_other _ _ (by omega)]
    exact hobufCap i hle

/-- R34: one more bit in a byte that it does not complete. -/
theorem pushBit_legal {s : State} (hs : s.legal) (h0 : s.err = 0) (b : Bool) (hne : s.wcnt.toNat + 1 ≠ 8) :
    ({ s with
      wacc := BitVec.ofNat 8 (2 * s.wacc.toNat + b.toNat)
      wcnt := BitVec.ofNat 4 (s.wcnt.toNat + 1) } : State).legal := by
  obtain ⟨hp, herr, ⟨holen, -, hopen⟩, hr, hg, hi, hst⟩ := hs
  obtain ⟨hwcnt, hwacc, hknown⟩ := hopen h0
  have hcnt : (BitVec.ofNat 4 (s.wcnt.toNat + 1)).toNat = s.wcnt.toNat + 1 :=
    toNat_ofNat_of_lt (by omega)
  have hacc : (BitVec.ofNat 8 (2 * s.wacc.toNat + b.toNat)).toNat < 2 ^ (s.wcnt.toNat + 1) := by
    have hb := b.toNat_le
    refine Nat.lt_of_le_of_lt (Nat.mod_le _ _) ?_
    rw [pow_succ]
    omega
  refine ⟨hp, herr, ⟨holen, ?_, fun _ => ⟨?_, ?_, hknown⟩⟩, hr, hg, hi, hst⟩
  · show (BitVec.ofNat 4 (s.wcnt.toNat + 1)).toNat ≤ 8
    omega
  · show (BitVec.ofNat 4 (s.wcnt.toNat + 1)).toNat ≤ 7
    omega
  · show (BitVec.ofNat 8 (2 * s.wacc.toNat + b.toNat)).toNat < 2 ^ (BitVec.ofNat 4 (s.wcnt.toNat + 1)).toNat
    rw [hcnt]
    exact hacc

theorem putBit_legal {b : Bool} {s t : State} (hs : s.legal) (h0 : s.err = 0) (h : putBit b s = some t) :
    t.legal ∧ t.err = 0 := by
  simp only [putBit] at h
  split at h
  · split at h <;> cases h
    exact ⟨storeByte_legal hs h0 ‹_› _ s.wclosed, h0⟩
  · cases h
    exact ⟨pushBit_legal hs h0 b ‹_›, h0⟩

theorem putList_legal {l : List Bool} {s t : State} (hs : s.legal) (h0 : s.err = 0) (h : putList l s = some t) :
    t.legal := by
  induction l generalizing s with
  | nil => cases h; exact hs
  | cons b l ih =>
    simp only [putList, Option.bind_eq_some_iff] at h
    obtain ⟨u, hu, h⟩ := h
    obtain ⟨hlegal, herr⟩ := putBit_legal hs h0 hu
    exact ih hlegal herr h

/-- R77. -/
theorem openedWriter_legal {s : State} (hs : s.legal) :
    ({ s with olen := 0, wacc := 0, wcnt := 0, wclosed := false } : State).legal := by
  obtain ⟨hp, herr, -, hr, hg, hi, hst⟩ := hs
  exact ⟨hp, herr, by simp [State.legalWriter], hr, hg, hi, hst⟩

/-- R80. -/
theorem execWclose_legal {s t : State} (hs : s.legal) (h : execWclose s = .next t) : t.legal := by
  refine runCommand_legal hs (fun u hu h0 => ?_) (fun e u hu => ?_) h
  · unfold closeWriter at hu
    split at hu
    · cases hu; exact hs
    split at hu
    · split at hu <;> cases hu
      exact storeByte_legal hs h0 ‹_› _ true
    · cases hu; exact hs
  · unfold closeWriter at hu
    split at hu
    · cases hu
    split at hu
    · split at hu <;> cases hu
      rfl
    · cases hu

/-! ## The bit reader -/

theorem movesCursor_legal {s t : State} (hs : s.legal) (x : Word64) (h : movesCursor s t) :
    ({ t with res := x } : State).legal := by
  obtain ⟨hp, herr, hw, ⟨hilen, hrpos⟩, hg, hi, hst⟩ := hs
  obtain ⟨hframe, hcursor⟩ := h
  have hcursor := hcursor hrpos
  rw [hframe] at hcursor ⊢
  exact ⟨hp, herr, hw, ⟨hilen, hcursor⟩, hg, hi, hst⟩

/-- R81. -/
theorem execRopen_legal {r : OperandSource} {s t : State} (hs : s.legal) (h : execRopen r s = .next t) : t.legal := by
  refine runCommand_legal hs (fun u hu _ => ?_) (fun e u hu => ?_) h
  · split at hu <;> cases hu
    obtain ⟨hp, herr, hw, -, hg, hi, hst⟩ := hs
    refine ⟨hp, herr, hw, ⟨Nat.le_trans (Nat.mod_le _ _) (Nat.not_lt.mp ‹_›), by simp⟩, hg, hi, hst⟩
  · split at hu <;> cases hu
    rfl

/-! ## The Golomb parameters -/

theorem ceilLog2_le {m n : Nat} (h : m ≤ 2 ^ n) : ceilLog2 m ≤ n := by
  by_contra hlt
  have := (ceilLog2_spec m).2 n (by omega)
  omega

/-- R32, R33: b and t of a parameter of 32 bits fit GB and GT. -/
theorem golombParams_fit (p : Config.Params) (m : Nat) (f : Bool) (h1 : 1 ≤ m) (h2 : m < 2 ^ 32) :
    (golombParams p m f).1 < 2 ^ 6 ∧ (golombParams p m f).2 < 2 ^ 32 := by
  have hb0 : ceilLog2 m ≤ 32 := ceilLog2_le h2.le
  have ht : ∀ k, k ≤ 32 → 2 ^ k - m < 2 ^ 32 := fun k hk => by
    have := Nat.pow_le_pow_right (n := 2) (by decide) hk
    omega
  have hb : (golombParams p m f).1 ≤ 32 := by
    simp only [golombParams]
    split <;> omega
  refine ⟨by omega, ?_⟩
  cases hfrom : p.forceTFrom with
  | forcedB =>
    have heq : (golombParams p m f).2 = 2 ^ (golombParams p m f).1 - m := by simp only [golombParams, hfrom]
    rw [heq]
    exact ht _ hb
  | unforcedB =>
    have heq : (golombParams p m f).2 = 2 ^ ceilLog2 m - m := by simp only [golombParams, hfrom]
    rw [heq]
    exact ht _ hb0

/-- R87. -/
theorem execGsetm_legal {f : BitVec 7} {r : OperandSource} {s t : State} (hs : s.legal) (h : execGsetm f r s = .next t) :
    t.legal := by
  refine runCommand_legal hs (fun u hu _ => ?_) (fun e u hu => ?_) h
  · split at hu
    · cases hu
    split at hu
    · cases hu
    · rename_i hx
      cases hu
      obtain ⟨hp, herr, hw, hr, -, hi, hst⟩ := hs
      have h2 : asU64 (s.operand r) < 2 ^ 32 := by omega
      obtain ⟨hgb, hgt⟩ := golombParams_fit s.params (asU64 (s.operand r)) (f == 1) (by omega) h2
      refine ⟨hp, herr, hw, hr, ?_, hi, hst⟩
      have hgm : (BitVec.ofNat 32 (asU64 (s.operand r))).toNat = asU64 (s.operand r) := toNat_ofNat_of_lt h2
      have hne : BitVec.ofNat 32 (asU64 (s.operand r)) ≠ 0 := ofNat_ne_zero (fun hz => hx (.inl hz)) h2
      simp only [State.legalGolomb]
      rw [if_neg hne, hgm, toNat_ofNat_of_lt hgb, toNat_ofNat_of_lt hgt]
  · split at hu
    · cases hu; rfl
    split at hu <;> cases hu
    rfl

/-! ## The image predictor -/

/-- R109. -/
theorem execIsetp_legal {f : BitVec 7} {s t : State} (hs : s.legal) (h : execIsetp f s = .next t) : t.legal := by
  refine runCommand_legal hs (fun u hu _ => ?_) (fun e u hu => ?_) h
  · split at hu <;> cases hu
    obtain ⟨hp, herr, hw, hr, hg, ⟨-, hi⟩, hst⟩ := hs
    exact ⟨hp, herr, hw, hr, hg, ⟨Nat.le_trans (Nat.mod_le _ _) (Nat.not_lt.mp ‹_›), hi⟩, hst⟩
  · split at hu <;> cases hu
    rfl

/-- R110. -/
theorem execIsetw_legal {r : OperandSource} {s t : State} (hs : s.legal) (h : execIsetw r s = .next t) : t.legal := by
  refine runCommand_legal hs (fun u hu _ => ?_) (fun e u hu => ?_) h
  · split at hu
    · cases hu
    · rename_i hx
      cases hu
      obtain ⟨-, hcap⟩ := caps_lt_of_legal hs
      obtain ⟨hp, herr, hw, hr, hg, ⟨hipid, -⟩, hst⟩ := hs
      have hiw : (BitVec.ofNat 32 (asU64 (s.operand r))).toNat = asU64 (s.operand r) := toNat_ofNat_of_lt (by omega)
      have hne : BitVec.ofNat 32 (asU64 (s.operand r)) ≠ 0 := ofNat_ne_zero (fun hz => hx (.inl hz)) (by omega)
      refine ⟨hp, herr, hw, hr, hg, ⟨hipid, ?_, ?_, by simp, by simp⟩, hst⟩
      · show (BitVec.ofNat 32 (asU64 (s.operand r))).toNat ≤ s.params.imgMaxW
        omega
      · rw [if_neg hne]
        show 0 < (BitVec.ofNat 32 (asU64 (s.operand r))).toNat
        omega
  · split at hu <;> cases hu
    rfl

/-- R108: the scan stays inside the row, and the pixel it stores is one that Nbr can read from then on. -/
theorem advance_legal {s : State} (hs : s.legal) (hiw : s.iw ≠ 0) (p : Byte) (x : Word64) :
    ({ s.advance p with res := x } : State).legal := by
  obtain ⟨hp, herr, hw, hr, hg, ⟨hipid, hmax, hix, hrow, habove⟩, hibuf, hobuf, hlb, hibufCap, hobufCap, hlbCap⟩ := hs
  rw [if_neg hiw] at hix
  obtain ⟨-, hstored, hmoved, -⟩ := advance_movedOn s p x hix
  change ∀ k, (s.advance p).lb.byteAt? k = _ at hstored
  change if _ then (s.advance p).ix = 0 ∧ (s.advance p).iy.toNat = _ else (s.advance p).ix.toNat = _ ∧ (s.advance p).iy = _
    at hmoved
  have hread : ∀ k, k ≤ s.ix.toNat ∨ (s.lb.byteAt? k).isSome → ((s.advance p).lb.byteAt? k).isSome := fun k hk => by
    rw [hstored k]
    split
    · rfl
    · exact hk.elim (fun hle => hrow k (by omega)) id
  refine ⟨hp, herr, hw, hr, hg, ⟨hipid, hmax, ?inside, fun k hk => hread k ?row, fun hy k hk => hread k ?above⟩, hibuf, hobuf,
    Memory.wf_setByte _ _ _ hlb, hibufCap, hobufCap, fun k hle => ?beyond⟩
  case inside =>
    show if s.iw = 0 then _ else (s.advance p).ix.toNat < s.iw.toNat
    rw [if_neg hiw]
    split at hmoved
    · rw [hmoved.1]
      exact Nat.zero_lt_of_lt hix
    · omega
  case row =>
    change k < (s.advance p).ix.toNat at hk
    split at hmoved
    · rw [hmoved.1] at hk
      exact absurd hk (Nat.not_lt_zero k)
    · exact .inl (by omega)
  case above =>
    change 0 < (s.advance p).iy.toNat at hy
    change k < s.iw.toNat at hk
    split at hmoved
    · exact .inl (by omega)
    · rw [hmoved.2] at hy
      exact .inr (habove hy k hk)
  case beyond =>
    change s.params.imgMaxW ≤ k at hle
    show (s.advance p).lb.byteAt? k = none
    rw [hstored, if_neg (by omega)]
    exact hlbCap k hle

/-! ## Commands, actions and steps -/

/-- Every command keeps the state legal. Most of what `exec_change` lists leaves the ranges alone; the commands that put a
new value in a range are looked at one by one. -/
theorem exec_legal {i : Instr} {s t : State} (hs : s.legal) (h : exec i s = .next t) : t.legal := by
  by_cases hi : i = .srst
  · subst hi
    cases h
    exact softReset_legal hs
  by_cases h0 : s.err = 0
  case neg =>
    rw [exec_latched i s h0 hi] at h
    cases h
    exact hs
  obtain ⟨hp, herr, hw, hr, hg, himg, hst⟩ := id hs
  cases exec_change h hi with
  | same => exact hs
  | precise e => exact latch_legal e _ (legalToLatch_of_legal hs)
  | imprecise => exact latch_legal .io _ (drawWriter_legalToLatch hs)
  | badCode e => exact latch_legal e _ (drawCursor_legalToLatch hs)
  | put l _ _ ht => exact putList_legal hs h0 ht
  | openedWriter => exact openedWriter_legal hs
  | closedWriter _ hi => subst hi; exact execWclose_legal hs h
  | read x _ _ ht => exact movesCursor_legal hs x ht
  | opened r hi => subst hi; exact execRopen_legal hs h
  | golomb f r hi => subst hi; exact execGsetm_legal hs h
  | mode f hi => subst hi; exact execIsetp_legal hs h
  | width r hi => subst hi; exact execIsetw_legal hs h
  | pixel r _ hiw p x => exact advance_legal hs hiw p x
  | result | order | cleared | history | block => exact ⟨hp, herr, hw, hr, hg, himg, hst⟩

theorem runWord_legal {w : Word32} {s t : State} (hs : s.legal) (h : runWord w s = .next t) : t.legal := by
  unfold runWord at h
  split at h
  · exact exec_legal hs h
  · split at h <;> cases h
    · exact hs
    · exact latch_legal _ _ (legalToLatch_of_legal hs)

theorem writeWindow_legal {bits : Nat} {offset : BitVec 12} {v : Word32} {s t : State} (hs : s.legal)
    (h : writeWindow bits offset v s = .next t) : t.legal := by
  unfold writeWindow at h
  split at h
  case isFalse => cases h; exact hs
  split at h
  case isTrue => exact runWord_legal hs h
  split at h
  case isTrue => cases h; exact hs
  split at h <;> cases h <;> exact hs

/-- R51: a write of IBUF stays below IBUF_CAP. -/
theorem writeIbuf_legal {s : State} (hs : s.legal) (i : Nat) (v : Byte) : (s.writeIbuf i v).legal := by
  unfold State.writeIbuf
  split
  case isFalse => exact hs
  case isTrue hlt =>
    obtain ⟨hp, herr, hw, hr, hg, himg, hibuf, hobuf, hlb, hibufCap, hobufCap, hlbCap⟩ := hs
    refine ⟨hp, herr, hw, hr, hg, himg, Memory.wf_setByte _ _ _ hibuf, hobuf, hlb, fun j hle => ?_, hobufCap, hlbCap⟩
    change s.params.ibufCap ≤ j at hle
    show (s.ibuf.setByte i v).byteAt? j = none
    rw [Memory.byteAt?_setByte_other _ _ (by omega)]
    exact hibufCap j hle

/-- Every action of the host and the platform keeps the state legal. -/
theorem act_legal {a : HostAction} {s t : State} (hs : s.legal) (h : act a s = .next t) : t.legal := by
  cases a with
  | writeReg => exact writeWindow_legal hs h
  | readReg => cases h; exact hs
  | writeIbuf i v => cases h; exact writeIbuf_legal hs _ v
  | readObuf => cases h; exact hs
  | hardReset => cases h; exact hardReset_legal hs

/-- Settles O59, action by action (`act_legal`) and, at a write of CMD, command by command (`exec_legal`). -/
theorem everyStepKeepsTheStateLegal : Obligations.EveryStepKeepsTheStateLegal := by
  intro s t hs h
  cases hpend : s.pending with
  | nil =>
    rw [step_of_pending_nil hpend] at h
    cases h
    exact hs
  | cons a rest =>
    rw [step_of_pending_cons hpend] at h
    exact act_legal (s := { s with pending := rest }) hs h

end Sys2Proof.Machine
end

section
/-! The two byte buffers as the host sees them: its writes of IBUF (O14) and its reads of OBUF (O15). -/

namespace Sys2Proof.Machine

/-! ## IBUF -/

/-- R48, R51: what IBUF holds is settled by the bytes written and by the hardware reset they were written after. -/
theorem ibufByte_congr {s t : State} (hibuf : t.ibuf = s.ibuf) (hreset : t.powerUps = s.powerUps) (j : Nat) :
    t.ibufByte j = s.ibufByte j := by
  simp only [State.ibufByte, hibuf, hreset]

theorem ibufByte_setByte (s : State) (i : Nat) (v : Byte) (j : Nat) :
    ({ s with ibuf := s.ibuf.setByte i v } : State).ibufByte j = if j = i then v else s.ibufByte j := by
  simp only [State.ibufByte, Memory.byteAt?_setByte]
  split <;> rfl

/-- R51: below IBUF_CAP a host write stores its byte. -/
theorem act_writeIbuf_of_lt {s : State} {i : BitVec 32} (v : Byte) (h : i.toNat < s.params.ibufCap) :
    act (.writeIbuf i v) s = .next { s with ibuf := s.ibuf.setByte i.toNat v } :=
  congrArg _ (if_pos h)

/-- R51: at or beyond IBUF_CAP a host write is ignored. -/
theorem act_writeIbuf_of_le {s : State} {i : BitVec 32} (v : Byte) (h : s.params.ibufCap ≤ i.toNat) :
    act (.writeIbuf i v) s = .next s :=
  congrArg _ (if_neg (Nat.not_lt.mpr h))

/-- R51: the core never writes IBUF. SRST leaves it by R121, every other command by its write set (O58). -/
theorem exec_ibufByte {i : Instr} {s t : State} (h : exec i s = .next t) (j : Nat) : t.ibufByte j = s.ibufByte j := by
  by_cases hi : i = .srst
  case pos =>
    subst hi
    cases h
    exact ibufByte_congr s.softReset_ibuf s.softReset_powerUps j
  case neg =>
    obtain ⟨-, -, hibuf, -, -, hreset, -⟩ := registersAreWrittenByTheirCommandsOnly i s t h hi
    exact ibufByte_congr hibuf hreset j

/-- Settles O14: a host write on either side of IBUF_CAP, and no write by any command (`exec_ibufByte`). -/
theorem onlyTheHostWritesIbuf : Obligations.OnlyTheHostWritesIbuf :=
  ⟨fun s i v => ⟨fun hlt => ⟨_, act_writeIbuf_of_lt v hlt, rfl, ibufByte_setByte s i.toNat v⟩, act_writeIbuf_of_le v⟩,
    fun _ _ _ => exec_ibufByte⟩

/-! ## OBUF -/

/-- A read of OBUF hands the host its byte and does nothing else (R52, R56). -/
theorem act_readObuf (i : BitVec 32) (s : State) :
    act (.readObuf i) s = .next { s with busData := (s.obufByte i.toNat).zeroExtend 32 } := rfl

/-- Settles O15: the byte is `State.obufByte`, which `obufByte_spec` gives on either side of OBUF_CAP and below OLEN, and
which no earlier read has changed. -/
theorem hostReadsTheOutputStream : Obligations.HostReadsTheOutputStream := by
  intro s i
  obtain ⟨hbeyond, hstream, hreads⟩ := obufByte_spec s i.toNat
  refine ⟨s.obufByte i.toNat, act_readObuf i s, hbeyond, hstream, fun x rest => ?again⟩
  case again => rw [act_readObuf, hreads]

end Sys2Proof.Machine
end

section
/-! The round trip between words and commands (R62, R63, R68): which words a row of the opcode map matches, said through the
fields the row's format uses; O2, O1 and O5. -/

namespace Sys2Proof

/-! ## The fields a format uses (R63) -/

/-- A word of the format may hold any F. -/
def Format.usesF : Format → Bool
  | .FO | .F => true
  | .Z | .O | .C | .CO => false

/-- A word of the format may hold any CH. -/
def Format.usesCh : Format → Bool
  | .C | .CO => true
  | .Z | .O | .FO | .F => false

/-- A word of the format may hold any R. -/
def Format.usesR : Format → Bool
  | .O | .FO | .CO => true
  | .Z | .F | .C => false

/-- R63's mask has a 0 exactly in the fields that the format uses, OP apart. -/
theorem Format.mask_eq (fmt : Format) :
    fmt.mask = ~~~commandWord 0 (BitVec.fill 7 fmt.usesF) (BitVec.fill 1 fmt.usesCh) (BitVec.fill 1 fmt.usesR) := by
  cases fmt <;> rfl

theorem getLsbD_fill {n i : Nat} (b : Bool) (h : i < n) : (BitVec.fill n b).getLsbD i = b := by
  cases b <;> simp [h]

theorem getLsbD_fField (w : Word32) {i : Nat} (h8 : 8 ≤ i) (h15 : i < 15) :
    (fField w).getLsbD (i - 8) = w.getLsbD i := by
  have hlt : i - 8 < 7 := by omega
  simp [fField, hlt, Nat.add_sub_cancel' h8]

@[simp] theorem getElem_bit_chField (w : Word32) : (chField w).bit[0] = w[16] := by
  cases h : w[16] <;> simp [chField, h, Channel.bit]

@[simp] theorem getElem_bit_rField (w : Word32) : (rField w).bit[0] = w[31] := by
  cases h : w[31] <;> simp [rField, h, OperandSource.bit]

/-- The word with opcode `op` and, of the fields of `w`, those that the format uses. -/
def Format.wordOf (fmt : Format) (op : BitVec 8) (w : Word32) : Word32 :=
  commandWord op (if fmt.usesF then fField w else 0) (if fmt.usesCh then (chField w).bit else 0)
    (if fmt.usesR then (rField w).bit else 0)

/-- R63: (w AND mask) = match says that `w` holds the opcode and the fields the format uses, and nothing else. The two sides
are compared bit by bit, along the layout of R62: OP, F, CH, R, and the reserved bits. -/
theorem match_iff_eq_wordOf (fmt : Format) (op : BitVec 8) (w : Word32) :
    w &&& fmt.mask = op.zeroExtend 32 ↔ w = fmt.wordOf op w := by
  simp only [BitVec.eq_of_getLsbD_eq_iff]
  refine forall₂_congr fun i hi => ?_
  simp only [Format.mask_eq, Format.wordOf, getLsbD_commandWord, BitVec.getLsbD_and, BitVec.getLsbD_not,
    BitVec.getLsbD_setWidth, hi, decide_true, Bool.true_and]
  by_cases h8 : i < 8
  · simp [h8]
  have hop : op.getLsbD i = false := BitVec.getLsbD_of_ge _ _ (Nat.not_lt.mp h8)
  rw [hop]
  by_cases h15 : i < 15
  · simp only [h8, h15, if_true, if_false, getLsbD_fill _ (show i - 8 < 7 by omega)]
    cases fmt.usesF <;> simp [getLsbD_fField w (Nat.not_lt.mp h8) h15]
  by_cases h16 : i = 16
  · subst h16
    cases fmt.usesCh <;> simp
  by_cases h31 : i = 31
  · subst h31
    cases fmt.usesR <;> simp
  · simp [h8, h15, h16, h31]

/-! ## Words of commands -/

/-- The command a row reads from any word is encoded with the row's opcode and the fields the row's format uses. -/
theorem encode_build (row : OpcodeRow) (hrow : row ∈ opcodeMap) (w : Word32) :
    encode (row.build w) = row.format.wordOf row.opcode w := by
  fin_cases hrow <;> simp [encode, Format.wordOf, Format.usesF, Format.usesCh, Format.usesR]

/-- Every command is what the row of its opcode reads from its word. -/
theorem build_encode (i : Instr) :
    ∃ row, rowOf (Laws.OpcodeByte.opcode i) = some row ∧ row.build (encode i) = i := by
  cases i <;> exact ⟨_, rfl, by simp [encode]⟩

/-- A command's word holds nothing but its row's opcode and the fields of its row's format (`encode_build`), so it matches
the row, which reads the command back (`build_encode`). -/
theorem decode_encode (i : Instr) : decode (encode i) = .ok i := by
  obtain ⟨row, hop, hbuild⟩ := build_encode i
  have hrow : row ∈ opcodeMap := List.mem_of_find?_eq_some hop
  have hword : encode i = row.format.wordOf row.opcode (encode i) := by
    rw [← encode_build row hrow, hbuild]
  rw [decode_of_match row hrow (encode i) ((match_iff_eq_wordOf _ _ _).mpr hword), hbuild]

/-- Settles O1, by `decode_encode`. -/
theorem decodeOfEncodeIsTheCommand : Obligations.DecodeOfEncodeIsTheCommand := decode_encode

/-- Settles O2: a word that decodes matches a row, and so holds nothing but the opcode and the fields of the row's format,
which is what the row's command is encoded to. -/
theorem encodeOfDecodeIsTheWord : Obligations.EncodeOfDecodeIsTheWord := by
  intro w i hdec
  obtain ⟨row, hrow, hmatch, rfl⟩ := match_of_decode w i hdec
  calc encode (row.build w) = row.format.wordOf row.opcode w := encode_build row hrow w
    _ = w := ((match_iff_eq_wordOf _ _ _).mp hmatch).symm

/-- O1 for a word given as a number. -/
theorem decode_of_encode_eq {w : Word32} {i : Instr} (h : encode i = w) : decode w = .ok i := h ▸ decode_encode i

/-- Settles O5: a legal word is the word of its command; an illegal one is refused by the decoder's own evaluation. -/
theorem sampleWordsDecodeAsTheSpecWritesThem : Obligations.SampleWordsDecodeAsTheSpecWritesThem := by
  refine ⟨?_, ?_, ?_, ?_, ?_, ?_, ?_, ?_, ?_, ?_, ?_, ?_, ?unusedR, ?reserved, ?customSpace⟩
  case unusedR => decide
  case reserved => decide
  case customSpace => decide
  all_goals exact decode_of_encode_eq (by decide)

end Sys2Proof
end

section
/-! What a write of a word to CMD does where the word is illegal (R69, O3), where its F value is not one of R66's (O4), and
where an error is latched (R127, O8). -/

namespace Sys2Proof.Machine

/-! ## Words that do not decode -/

/-- R69: no row matches a word that the decoder refuses. -/
theorem runWord_of_no_match {w : Word32} {s : State} (hs : s.err = 0)
    (h : ∀ row ∈ opcodeMap, w &&& row.format.mask ≠ row.matchWord) :
    runWord w s = .next (s.latch .illegalCommand w) := by
  cases hdec : decode w with
  | ok i =>
    obtain ⟨row, hrow, hmatch, -⟩ := match_of_decode w i hdec
    exact absurd hmatch (h row hrow)
  | error => simp [runWord, hdec, State.latched, hs]

/-- R127. -/
theorem runWord_of_decode_error {w : Word32} {e : DecodeError} {s : State} (hs : s.err ≠ 0) (h : decode w = .error e) :
    runWord w s = .next s := by
  simp only [runWord, h]
  exact if_pos ((State.latched_iff s).mpr hs)

/-- Settles O8: only SRST's word decodes to SRST (O2), every other command is dropped under the latch (`exec_latched`), and
so is a word that does not decode. -/
theorem latchedErrorDropsEveryWordButSrst : Obligations.LatchedErrorDropsEveryWordButSrst := by
  intro s w hs
  refine ⟨fun hw => ?dropped, fun hw => ?srst⟩
  case dropped =>
    cases hdec : decode w with
    | error e => exact runWord_of_decode_error hs hdec
    | ok i =>
      have hi : i ≠ .srst := by
        rintro rfl
        exact hw (encodeOfDecodeIsTheWord w .srst hdec).symm
      rw [runWord_of_decode s hdec, exec_latched i s hs hi]
  case srst =>
    have hdec : decode w = .ok .srst := decode_of_encode_eq hw.symm
    exact runWord_of_decode s hdec

/-! ## Field values outside the legal set -/

@[simp] theorem wellFormed_wbits_iff (f : BitVec 7) (r : OperandSource) :
    (Instr.wbits f r).wellFormed = true ↔ 1 ≤ f.toNat ∧ f.toNat ≤ 64 := decide_eq_true_iff

@[simp] theorem wellFormed_rbits_iff (f : BitVec 7) :
    (Instr.rbits f).wellFormed = true ↔ 1 ≤ f.toNat ∧ f.toNat ≤ 64 := decide_eq_true_iff

@[simp] theorem wellFormed_gsetm_iff (f : BitVec 7) (r : OperandSource) :
    (Instr.gsetm f r).wellFormed = true ↔ f.toNat ≤ 1 := decide_eq_true_iff

@[simp] theorem wellFormed_asetord_iff (f : BitVec 7) : (Instr.asetord f).wellFormed = true ↔ f.toNat ≤ 3 :=
  decide_eq_true_iff

@[simp] theorem wellFormed_isetp_iff (f : BitVec 7) : (Instr.isetp f).wellFormed = true ↔ f.toNat ≤ 8 :=
  decide_eq_true_iff

/-- A rule that opens with a check of its F value, at a value that fails it. -/
theorem runCommand_refused {i : Instr} {s : State} {k : Ending} {p : Prop} [Decidable p] (hs : s.err = 0) (hp : p) :
    runCommand i s (if p then .raised .invalidParameter s else k) =
      .next (s.latch .invalidParameter (encode i)) := by
  rw [if_pos hp, runCommand_raised hs]

/-- R66: with no error latched a command whose F value is not legal latches InvalidParameter and does nothing else. -/
theorem exec_of_not_wellFormed {i : Instr} {s : State} (hi : ¬ i.wellFormed = true) (hs : s.err = 0) :
    exec i s = .next (s.latch .invalidParameter (encode i)) := by
  cases i with
  | wbits f r =>
    rw [wellFormed_wbits_iff] at hi
    exact runCommand_refused hs (by omega)
  | rbits f =>
    rw [wellFormed_rbits_iff] at hi
    exact runCommand_refused hs (by omega)
  | gsetm f r =>
    rw [wellFormed_gsetm_iff] at hi
    exact runCommand_refused hs (by omega)
  | asetord f =>
    rw [wellFormed_asetord_iff] at hi
    exact runCommand_refused hs (by omega)
  | isetp f =>
    rw [wellFormed_isetp_iff] at hi
    exact runCommand_refused hs (by omega)
  | _ => exact absurd rfl hi

/-- Settles O4: R66's sets (`wellFormed_wbits_iff` and its like), and at a value outside them the command's own word (O1),
which the command's first check refuses (`exec_of_not_wellFormed`). -/
theorem fieldValuesOutsideTheLegalSetAreRefused : Obligations.FieldValuesOutsideTheLegalSetAreRefused := by
  refine ⟨fun f r => ⟨wellFormed_wbits_iff f r, wellFormed_rbits_iff f, ?force, wellFormed_asetord_iff f,
    wellFormed_isetp_iff f⟩, fun i s hi hs => ⟨encode i, decode_encode i, ?refused⟩⟩
  case force => exact (wellFormed_gsetm_iff f r).trans Nat.le_one_iff_eq_zero_or_eq_one
  case refused =>
    have hrun := exec_of_not_wellFormed (ne_true_of_eq_false hi) hs
    exact (runWord_of_decode s (decode_encode i)).trans hrun

/-! ## Illegal words -/

/-- R68: the rows named MSFWD and MSINV are these commands', and no other row is. -/
theorem mnemonic_midside_iff {row : OpcodeRow} (hrow : row ∈ opcodeMap) (w : Word32) :
    (row.mnemonic = "MSFWD" ∨ row.mnemonic = "MSINV") ↔ ∃ r, row.build w = .msfwd r ∨ row.build w = .msinv r := by
  fin_cases hrow <;> simp

/-- R69: without the mid/side unit its two commands raise IllegalCommand. -/
theorem exec_midside_of_absent {i : Instr} {s : State} (hs : s.err = 0) (hms : s.params.hasMidside = false)
    (hi : ∃ r, i = .msfwd r ∨ i = .msinv r) : exec i s = .next (s.latch .illegalCommand (encode i)) := by
  obtain ⟨r, rfl | rfl⟩ := hi
  · simp only [exec, execMsfwd, hms, Bool.false_eq_true, if_false, runCommand_raised hs]
  · simp only [exec, execMsinv, hms, Bool.false_eq_true, if_false, runCommand_raised hs]

/-- Every command answers a next state (R148). -/
theorem exec_answers (i : Instr) (s : State) : ∃ t, exec i s = .next t := by
  have answers : ∀ k, ∃ t, runCommand i s k = .next t := by
    intro k
    rcases runCommand_cases i s k with ⟨-, h⟩ | ⟨-, t, -, h⟩ | ⟨-, e, t, -, h⟩ <;> exact ⟨_, h⟩
  cases i with
  | srst => exact ⟨_, rfl⟩
  | nop | wopen | fold | unfold | ahclr | apred | adec | ipred | mclr | macc => exact answers (.done _)
  | _ => exact answers _

/-- R122: code 9 is IllegalCommand's alone. -/
theorem ErrorKind.code_eq_nine_iff (e : ErrorKind) : e.code = 9 ↔ e = .illegalCommand := by cases e <;> decide

/-- R69: a command other than MSFWD and MSINV without their unit leaves no IllegalCommand where none was latched. -/
theorem exec_err_ne_illegal {i : Instr} {s t : State} (hs : s.err = 0) (h : exec i s = .next t)
    (hi : ¬ (s.params.hasMidside = false ∧ ∃ r, i = .msfwd r ∨ i = .msinv r)) : t.err ≠ 9 := by
  have unchanged : ∀ {u : State}, u.err = s.err → u.err ≠ 9 := fun hu => by rw [hu, hs]; decide
  by_cases hsrst : i = .srst
  case pos =>
    subst hsrst
    cases h
    simp
  cases exec_change h hsrst with
  | precise e he =>
    intro h9
    obtain rfl := e.code_eq_nine_iff.mp h9
    exact hi (by simpa using he)
  | imprecise => exact mt (ErrorKind.code_eq_nine_iff .io).mp (by decide)
  | badCode e he => exact mt e.code_eq_nine_iff.mp (by rcases he with rfl | rfl <;> decide)
  | put l _ _ ht => exact unchanged (by rw [putList_frame ht])
  | closedWriter _ _ ht => exact unchanged (by rw [ht])
  | read x u _ hu => exact unchanged (by rw [hu.1])
  | same | openedWriter | result | opened | golomb | order | mode | width | cleared | history | pixel | block =>
    exact unchanged rfl

/-- Settles O3. An illegal word is one that no row matches, or one of the two commands of the absent unit, whose word it is
(O2); any other word decodes to its row's command, which raises IllegalCommand for that unit only. -/
theorem illegalWordRaisesIllegalCommand : Obligations.IllegalWordRaisesIllegalCommand := by
  intro s w hs
  refine ⟨fun hw => ?illegal, fun hw => ?legal⟩
  case illegal =>
    rcases hw with hnone | ⟨hms, row, hrow, hname, hmatch⟩
    · exact runWord_of_no_match hs hnone
    · have hdec := decode_of_match row hrow w hmatch
      have hrun := exec_midside_of_absent hs hms ((mnemonic_midside_iff hrow w).mp hname)
      rw [encodeOfDecodeIsTheWord w _ hdec] at hrun
      exact (runWord_of_decode s hdec).trans hrun
  case legal =>
    simp only [illegalWord, not_or, not_forall, not_not] at hw
    obtain ⟨⟨row, hrow, hmatch⟩, hpresent⟩ := hw
    have hdec := decode_of_match row hrow w hmatch
    obtain ⟨t, ht⟩ := exec_answers (row.build w) s
    have hmid : ¬ (s.params.hasMidside = false ∧ ∃ r, row.build w = .msfwd r ∨ row.build w = .msinv r) :=
      fun ⟨hms, hi⟩ => hpresent ⟨hms, row, hrow, (mnemonic_midside_iff hrow w).mpr hi, hmatch⟩
    exact ⟨row, hrow, t, hmatch, hdec, runWord_of_decode s hdec, ht, exec_err_ne_illegal hs ht hmid⟩

end Sys2Proof.Machine
end

section
/-! The output stream (40_bitstream.md): WOPEN (O19), WBIT (O20), WBITS (O21) and WCLOSE (O22), each rule's endings as
equations of `exec`. -/

namespace Sys2Proof.Machine

/-- `s` with an empty output stream open (R77). -/
def State.openedWriter (s : State) : State := { s with olen := 0, wacc := 0, wcnt := 0, wclosed := false }

theorem exec_wopen {s : State} (hs : s.err = 0) : exec .wopen s = .next s.openedWriter := by
  simp only [exec, execWopen, runCommand_done hs, State.openedWriter]

/-- Settles O19: R77's rule has one ending, and the decoder reads its word. -/
theorem wopenOpensAnEmptyStream : Obligations.WopenOpensAnEmptyStream :=
  ⟨decode_of_encode_eq (by decide), fun _ hs => exec_wopen hs⟩

/-! ## The commands that put bits -/

/-- R78, R79, R88 on a closed writer. -/
theorem runCommand_writeBits_closed {i : Instr} {s : State} {put : State → Option State} (hs : s.err = 0)
    (hc : s.wclosed = true) : runCommand i s (writeBits s put) = .next (s.latch .closedStream (encode i)) := by
  simp only [writeBits, hc, if_true, runCommand_raised hs]

/-- R78, R79, R88 on an open writer that takes the bits. -/
theorem runCommand_writeBits_some {i : Instr} {s t : State} {put : State → Option State} (hs : s.err = 0)
    (hc : s.wclosed = false) (hput : put s = some t) : runCommand i s (writeBits s put) = .next t := by
  simp only [writeBits, hc, Bool.false_eq_true, if_false, hput, runCommand_done hs]

/-- R126 on an open writer that does not take the bits. -/
theorem runCommand_writeBits_none {i : Instr} {s : State} {put : State → Option State} (hs : s.err = 0)
    (hc : s.wclosed = false) (hput : put s = none) :
    runCommand i s (writeBits s put) = .next (s.drawWriter.latch .io (encode i)) := by
  simp only [writeBits, hc, Bool.false_eq_true, if_false, hput, runCommand_raised hs]

/-- R75 for a bit that completes no byte. -/
theorem putBit_of_wcnt_ne {s : State} (b : Bool) (hw : s.wcnt.toNat ≠ 7) :
    putBit b s = some { s with
      wacc := BitVec.ofNat 8 (2 * s.wacc.toNat + b.toNat)
      wcnt := BitVec.ofNat 4 (s.wcnt.toNat + 1) } := by
  have hne : s.wcnt.toNat + 1 ≠ 8 := by omega
  simp only [putBit, hne, if_false]

/-- R75 for the eighth bit of a byte that OBUF takes. -/
theorem putBit_of_wcnt_seven {s : State} (b : Bool) (hw : s.wcnt.toNat = 7) (hroom : s.olen.toNat ≠ s.params.obufCap) :
    putBit b s = some { s with
      obuf := s.obuf.setByte s.olen.toNat (BitVec.ofNat 8 (2 * s.wacc.toNat + b.toNat))
      olen := BitVec.ofNat 32 (s.olen.toNat + 1)
      wacc := 0
      wcnt := 0 } := by
  simp only [putBit, hw, if_true, hroom, if_false]

theorem exec_wbit (r : OperandSource) (s : State) :
    exec (.wbit r) s = runCommand (.wbit r) s (writeBits s (putBit (asBit (s.operand r)))) := rfl

/-- Settles O20, by the cases of PutBit: the byte goes on, it is complete and stored, or it is complete and OBUF is full. -/
theorem wbitPutsOneBit : Obligations.WbitPutsOneBit := by
  refine ⟨decode_of_row 3 (by decide), fun s r hs => ⟨fun hc => ?closed, fun hc hw => ?pending, fun hc hw hne => ?stored,
    fun hc hw hfull => ?full⟩⟩ <;> rw [exec_wbit]
  case closed => exact runCommand_writeBits_closed hs hc
  case pending => exact runCommand_writeBits_some hs hc (putBit_of_wcnt_ne _ hw.ne)
  case stored =>
    exact ⟨_, runCommand_writeBits_some hs hc (putBit_of_wcnt_seven _ hw hne), rfl,
      fun i => Memory.byteAt?_setByte _ _ _ i⟩
  case full =>
    have hlt := s.olen.isLt
    exact ⟨_, runCommand_writeBits_none hs hc ((putBit_eq_none _ s).mpr ⟨hw, hfull⟩),
      drawWriter_failedWrite s _ (by omega) (by omega)⟩

/-- R79 at a legal width. -/
theorem exec_wbits {f : BitVec 7} {r : OperandSource} (s : State) (h1 : 1 ≤ f.toNat) (h64 : f.toNat ≤ 64) :
    exec (.wbits f r) s = runCommand (.wbits f r) s (writeBits s (putNat f.toNat (s.operand r).toNat)) := by
  have hlegal : ¬ (f.toNat < 1 ∨ f.toNat > 64) := by omega
  simp only [exec, execWbits, hlegal, if_false]

/-- R79 where OBUF takes the bytes that the field completes. -/
theorem exec_wbits_appends {s : State} {f : BitVec 7} (r : OperandSource) (hs : s.err = 0) (h1 : 1 ≤ f.toNat)
    (h64 : f.toNat ≤ 64) (hc : s.wclosed = false) (hroom : s.hasRoom f.toNat) :
    ∃ t, exec (.wbits f r) s = .next t ∧ s.appends t (bitsOf f.toNat (s.operand r).toNat) := by
  obtain ⟨t, ht, happ⟩ := putList_appends (bitsOf f.toNat (s.operand r).toNat) s (by rwa [bitsOf_length])
  rw [← putNat_eq_putList] at ht
  exact ⟨t, by rw [exec_wbits s h1 h64, runCommand_writeBits_some hs hc ht], happ⟩

/-- Settles O21: a field is a list of PutBits (`putNat_eq_putList`), which appends its bits where there is room for them and
raises IO where there is not. -/
theorem wbitsAppendsTheLowBits : Obligations.WbitsAppendsTheLowBits := by
  refine ⟨decode_of_row 4 (by decide), fun s f r hs => ⟨fun hf => ?width, fun h1 h64 hc => ?closed,
    fun h1 h64 hc hroom => exec_wbits_appends r hs h1 h64 hc hroom, fun h1 h64 hc hlack => ?full⟩⟩
  case width => exact exec_of_not_wellFormed (by rw [wellFormed_wbits_iff]; omega) hs
  case closed => rw [exec_wbits s h1 h64]; exact runCommand_writeBits_closed hs hc
  case full =>
    have hnone := putList_eq_none (bitsOf f.toNat (s.operand r).toNat) s (by rwa [bitsOf_length])
    rw [← putNat_eq_putList] at hnone
    obtain ⟨-, holen, -, hcap⟩ := hlack
    rw [exec_wbits s h1 h64]
    exact ⟨_, runCommand_writeBits_none hs hc hnone, drawWriter_failedWrite s _ holen hcap⟩

/-! ## WCLOSE -/

/-- `s` with its pending bits padded with zero bits to a byte, the byte stored, and the writer closed (R80). -/
def State.closedPadded (s : State) : State :=
  { s with
    obuf := s.obuf.setByte s.olen.toNat (BitVec.ofNat 8 (s.wacc.toNat * 2 ^ (8 - s.wcnt.toNat)))
    olen := BitVec.ofNat 32 (s.olen.toNat + 1)
    wacc := 0
    wcnt := 0
    wclosed := true }

theorem State.olen_closedPadded {s : State} (hlt : s.olen.toNat < 2 ^ 32 - 1) :
    s.closedPadded.olen.toNat = s.olen.toNat + 1 := toNat_ofNat_of_lt (by omega)

/-- R80: the bits of the byte that WCLOSE stores. -/
theorem bitsOf_padded {n : Nat} (v : Nat) (h8 : n ≤ 8) :
    bitsOf 8 (BitVec.ofNat 8 (v * 2 ^ (8 - n))).toNat = bitsOf n v ++ List.replicate (8 - n) false := by
  rw [← bitsOf_mul_two_pow, Nat.add_sub_cancel' h8]
  refine bitsOf_congr fun k hk => ?_
  rw [BitVec.toNat_ofNat, Nat.testBit_mod_two_pow, decide_eq_true hk, Bool.true_and]

theorem State.outputBits_closedPadded {s : State} (hw : s.wcnt.toNat ≤ 7) (hlt : s.olen.toNat < 2 ^ 32 - 1) :
    s.closedPadded.outputBits = s.outputBits ++ List.replicate (8 - s.wcnt.toNat) false := by
  have hold : ∀ i ∈ List.range s.olen.toNat, bitsOf 8 ((s.closedPadded.obuf.byteAt? i).getD 0).toNat =
      bitsOf 8 ((s.obuf.byteAt? i).getD 0).toNat := fun i hi => by
    rw [State.closedPadded, Memory.byteAt?_setByte_other _ _ (List.mem_range.mp hi).ne]
  have hnew : s.closedPadded.obuf.byteAt? s.olen.toNat =
      some (BitVec.ofNat 8 (s.wacc.toNat * 2 ^ (8 - s.wcnt.toNat))) := Memory.byteAt?_setByte_same _ _ _
  have hpending : bitsOf s.closedPadded.wcnt.toNat s.closedPadded.wacc.toNat = [] := rfl
  rw [State.outputBits, State.olen_closedPadded hlt, List.range_succ, List.flatMap_append, List.flatMap_congr hold, hpending,
    List.flatMap_singleton, hnew, Option.getD_some, bitsOf_padded _ (by omega), State.outputBits, List.append_nil,
    List.append_assoc]

theorem exec_wclose (s : State) : exec .wclose s = runCommand .wclose s (closeWriter s) := rfl

/-- R80 with no pending bit. -/
theorem exec_wclose_of_wcnt_zero {s : State} (hs : s.err = 0) (hc : s.wclosed = false) (hw : s.wcnt = 0) :
    exec .wclose s = .next { s with wclosed := true } := by
  have hnone : ¬ s.wcnt.toNat > 0 := by simp [hw]
  simp only [exec_wclose, closeWriter, hc, Bool.false_eq_true, if_false, hnone, runCommand_done hs]

/-- R80 with a pending byte that OBUF takes. -/
theorem exec_wclose_pads {s : State} (hs : s.err = 0) (hc : s.wclosed = false) (hw : 1 ≤ s.wcnt.toNat)
    (hroom : s.olen.toNat < s.params.obufCap) : exec .wclose s = .next s.closedPadded := by
  have hsome : s.wcnt.toNat > 0 := hw
  simp only [exec_wclose, closeWriter, hc, Bool.false_eq_true, if_false, hsome, if_true, hroom.ne, runCommand_done hs,
    State.closedPadded]

/-- R80 with a pending byte and OBUF full. -/
theorem exec_wclose_full {s : State} (hs : s.err = 0) (hc : s.wclosed = false) (hw : 1 ≤ s.wcnt.toNat)
    (hfull : s.olen.toNat = s.params.obufCap) : exec .wclose s = .next (s.latch .io (encode .wclose)) := by
  have hsome : s.wcnt.toNat > 0 := hw
  simp only [exec_wclose, closeWriter, hc, Bool.false_eq_true, if_false, hsome, if_true, hfull, runCommand_raised hs]

/-- Settles O22, by one equation per ending of R80, and `outputBits_closedPadded` for the stream. -/
theorem wcloseFlushesAndCloses : Obligations.WcloseFlushesAndCloses := by
  refine ⟨decode_of_encode_eq (by decide), fun s hs => ⟨fun hc => ?closed,
    fun hc hw => exec_wclose_of_wcnt_zero hs hc hw, fun hc h1 h7 hroom hcap => ?pads, fun hc hw hfull => ?full⟩⟩
  case closed => simp only [exec_wclose, closeWriter, hc, if_true, runCommand_done hs]
  case pads =>
    exact ⟨s.closedPadded, exec_wclose_pads hs hc h1 hroom, rfl, State.olen_closedPadded (by omega),
      fun i => Memory.byteAt?_setByte _ _ _ i, State.outputBits_closedPadded h7 (by omega)⟩
  case full =>
    have h1 : 1 ≤ s.wcnt.toNat := Nat.pos_of_ne_zero fun h0 => hw (BitVec.eq_of_toNat_eq h0)
    have hword : encode .wclose = 0x00000013 := by decide
    rw [exec_wclose_full hs hc h1 hfull, hword]
    rfl

end Sys2Proof.Machine
end

section
/-! The input stream (40_bitstream.md): ROPEN (O23), RBIT (O24) and RBITS (O25). -/

namespace Sys2Proof.Machine

/-! ## ROPEN -/

/-- `s` with an input stream of `n` bytes open (R81). -/
def State.openedReader (s : State) (n : Nat) : State := { s with ilen := BitVec.ofNat 32 n, rpos := 0 }

theorem State.ilen_openedReader (s : State) {n : Nat} (hn : n < 2 ^ 32) : (s.openedReader n).ilen.toNat = n :=
  toNat_ofNat_of_lt hn

/-- R81 for a stream that fits IBUF. -/
theorem exec_ropen {s : State} {r : OperandSource} (hs : s.err = 0) (hcap : (s.operand r).toNat ≤ s.params.ibufCap) :
    exec (.ropen r) s = .next (s.openedReader (s.operand r).toNat) := by
  simp only [exec, execRopen, Nat.not_lt.mpr hcap, if_false, runCommand_done hs, State.openedReader]

/-- R11. -/
theorem ibufCap_lt_of_legal {p : Config.Params} (hp : p.legal = true) : p.ibufCap < 2 ^ 32 := by
  simp only [Config.Params.legal, Config.inRange32, Bool.and_eq_true, decide_eq_true_eq] at hp
  obtain ⟨⟨⟨-, -, hcap⟩, -⟩, -⟩ := hp
  omega

/-- Settles O23: the size is checked against IBUF_CAP, which R11 keeps below 2^32, so that ILEN holds it. -/
theorem ropenOpensTheInputStream : Obligations.RopenOpensTheInputStream := by
  refine ⟨decode_of_row 6 (by decide), fun s r hs hp => ⟨fun hbig => ?tooLarge, fun hle => ?opened⟩⟩
  case tooLarge => exact runCommand_refused hs hbig
  case opened =>
    have hilen := s.ilen_openedReader (Nat.lt_of_le_of_lt hle (ibufCap_lt_of_legal hp))
    have hrpos : (s.openedReader (s.operand r).toNat).rpos.toNat = 0 := rfl
    refine ⟨_, exec_ropen hs hle, rfl, hilen, ?_⟩
    rw [State.reof, beq_iff_eq, hrpos, hilen]
    omega

/-! ## RBIT -/

/-- Settles O24, by the two cases of GetBit (R76). -/
theorem rbitReadsOneBit : Obligations.RbitReadsOneBit := by
  refine ⟨decode_of_encode_eq (by decide), fun s hs => ?_⟩
  rcases getBit_cases s with ⟨hend, hget⟩ | ⟨hmore, hget⟩
  · refine ⟨fun _ => ?_, fun hmore => absurd hend hmore⟩
    have hword : encode .rbit = 0x00000019 := by decide
    simp only [exec, execRbit, getBitOr, hget, runCommand_raised hs, hword]
    rfl
  · refine ⟨fun hend => absurd hend hmore, fun _ => ?_⟩
    simp only [exec, execRbit, getBitOr, hget, runCommand_done hs, State.inputBit]
    cases (s.ibufByte (s.rpos.toNat / 8)).getLsbD (7 - s.rpos.toNat % 8) <;> rfl

/-! ## RBITS -/

/-- `s` after the next `n` bits, those of the number `w`, went to RES (R83). -/
def State.readInto (s : State) (n w : Nat) : State := { s.skipBits n with res := BitVec.ofNat 64 (w % 2 ^ n) }

theorem State.err_readInto (s : State) (n w : Nat) : (s.readInto n w).err = s.err := rfl

theorem State.unreadBits_readInto (s : State) (n w : Nat) : (s.readInto n w).unreadBits = (s.skipBits n).unreadBits := rfl

/-- RES holds every field that R66 allows. -/
theorem State.res_readInto (s : State) {n : Nat} (w : Nat) (h64 : n ≤ 64) : (s.readInto n w).res.toNat = w % 2 ^ n :=
  toNat_ofNat_of_lt (Nat.lt_of_lt_of_le (Nat.mod_lt _ (by positivity)) (Nat.pow_le_pow_right (by decide) h64))

/-- R83 where the stream goes on with the n bits of a number. -/
theorem exec_rbits_unread {s : State} {f : BitVec 7} {w : Nat} {rest : List Bool} (hs : s.err = 0) (h1 : 1 ≤ f.toNat)
    (h64 : f.toNat ≤ 64) (h : s.unreadBits = bitsOf f.toNat w ++ rest) :
    exec (.rbits f) s = .next (s.readInto f.toNat w) := by
  obtain ⟨hget, -, hlen⟩ := getNat_unread .endOfStream f.toNat w 0 s rest h
  have hlegal : ¬ (f.toNat < 1 ∨ f.toNat > 64) := by omega
  have hmore : ¬ (8 * s.ilen.toNat : Int) - s.rpos.toNat < f.toNat := by have := hlen h1; omega
  simp only [exec, execRbits, hlegal, hmore, if_false, hget, runCommand_done hs, Nat.zero_mul, Nat.zero_add,
    State.readInto]

/-- R83 where fewer than n bits remain. -/
theorem exec_rbits_short {s : State} {f : BitVec 7} (hs : s.err = 0) (h1 : 1 ≤ f.toNat) (h64 : f.toNat ≤ 64)
    (h : 8 * s.ilen.toNat < s.rpos.toNat + f.toNat) :
    exec (.rbits f) s = .next (s.latch .endOfStream (encode (.rbits f))) := by
  have hlegal : ¬ (f.toNat < 1 ∨ f.toNat > 64) := by omega
  have hend : (8 * s.ilen.toNat : Int) - s.rpos.toNat < f.toNat := by omega
  simp only [exec, execRbits, hlegal, hend, if_false, if_true, runCommand_raised hs]

/-- Settles O25: the next n bits of the stream are those of one n-bit number (`exists_bitsOf`), which is what RBITS reads. -/
theorem rbitsReadsTheNextBits : Obligations.RbitsReadsTheNextBits := by
  refine ⟨decode_of_row 8 (by decide), fun s f hs => ⟨fun hf => ?width,
    fun h1 h64 hshort => exec_rbits_short hs h1 h64 hshort, fun h1 h64 hmore => ?read⟩⟩
  case width => exact exec_of_not_wellFormed (by rw [wellFormed_rbits_iff]; omega) hs
  case read =>
    have hlen : (s.unreadBits.take f.toNat).length = f.toNat := by
      rw [List.length_take, s.unreadBits_length]
      omega
    obtain ⟨w, hw, hbits⟩ := exists_bitsOf (s.unreadBits.take f.toNat)
    rw [hlen] at hw hbits
    have hstream : s.unreadBits = bitsOf f.toNat w ++ s.unreadBits.drop f.toNat := by
      rw [hbits, List.take_append_drop]
    have hres : (s.readInto f.toNat w).res.toNat = w := (s.res_readInto w h64).trans (Nat.mod_eq_of_lt hw)
    exact ⟨_, exec_rbits_unread hs h1 h64 hstream, rfl, s.rpos_skipBits _ hmore, by rwa [hres], by rw [hres, hbits]⟩

end Sys2Proof.Machine
end

section
/-! The round trip of 40_bitstream.md section 4 (O26): the writer's part ends with the fields' bits and the padding in OBUF,
the reader's part starts from those bits. Both are inductions over the fields, with the bits as what they share. -/

namespace Sys2Proof.Machine

/-- The bits of a list of fields, in stream order (R79). -/
def fieldStream (fs : List (BitVec 7 × Word64)) : List Bool := fs.flatMap (fun f => bitsOf f.1.toNat f.2.toNat)

@[simp] theorem fieldStream_nil : fieldStream [] = [] := rfl

@[simp] theorem fieldStream_cons (f : BitVec 7 × Word64) (fs : List (BitVec 7 × Word64)) :
    fieldStream (f :: fs) = bitsOf f.1.toNat f.2.toNat ++ fieldStream fs := rfl

@[simp] theorem fieldBits_cons (f : BitVec 7 × Word64) (fs : List (BitVec 7 × Word64)) :
    fieldBits (f :: fs) = f.1.toNat + fieldBits fs := by simp [fieldBits]

@[simp] theorem fieldStream_length (fs : List (BitVec 7 × Word64)) : (fieldStream fs).length = fieldBits fs := by
  simp [fieldStream, fieldBits, List.length_flatMap]

/-- Every width is one that WBITS and RBITS take (R66). -/
def legalFields (fs : List (BitVec 7 × Word64)) : Prop := ∀ f ∈ fs, 1 ≤ f.1.toNat ∧ f.1.toNat ≤ 64

theorem legalFields_cons {f : BitVec 7 × Word64} {fs : List (BitVec 7 × Word64)} :
    legalFields (f :: fs) ↔ (1 ≤ f.1.toNat ∧ f.1.toNat ≤ 64) ∧ legalFields fs := List.forall_mem_cons

/-! ## Writing -/

/-- OPD has no part in what is appended. -/
theorem State.appends_withOpd {s t : State} {bits : List Bool} (h : s.appends t bits) (x : Word64) :
    ({ s with opd := x } : State).appends { t with opd := x } bits := by
  obtain ⟨hbits, holen, hwcnt, hold, hframe⟩ := h
  exact ⟨hbits, holen, hwcnt, hold, by rw [hframe]⟩

theorem State.appends_err {s t : State} {bits : List Bool} (h : s.appends t bits) : t.err = s.err := by
  rw [h.2.2.2.2]

theorem State.appends_wclosed {s t : State} {bits : List Bool} (h : s.appends t bits) : t.wclosed = s.wclosed := by
  rw [h.2.2.2.2]

/-- The room for more bits after some are appended. -/
theorem State.hasRoom_of_appends {s t : State} {bits : List Bool} {n : Nat} (h : s.appends t bits)
    (hroom : s.hasRoom (bits.length + n)) : t.hasRoom n := by
  obtain ⟨-, hle, hcap⟩ := hroom
  have hparams := State.appends_params h
  obtain ⟨-, holen, hwcnt, -, -⟩ := h
  exact ⟨by omega, by rw [hparams, holen, hwcnt]; omega, by rw [hparams]; exact hcap⟩

theorem State.hasRoom_mono {s : State} {m n : Nat} (hroom : s.hasRoom n) (hle : m ≤ n) : s.hasRoom m := by
  obtain ⟨hwcnt, hroom, hcap⟩ := hroom
  exact ⟨hwcnt, by omega, hcap⟩

/-- WBITS for each field in turn appends the fields' bits, where there is room for them. -/
theorem writeFields_appends (fs : List (BitVec 7 × Word64)) (s : State) (hs : s.err = 0) (hc : s.wclosed = false)
    (hfs : legalFields fs) (hroom : s.hasRoom (fieldBits fs)) :
    ∃ t, writeFields fs s = some t ∧ ({ s with opd := t.opd } : State).appends t (fieldStream fs) := by
  induction fs generalizing s with
  | nil => exact ⟨s, rfl, s.appends_refl hroom.1⟩
  | cons f fs ih =>
    obtain ⟨⟨h1, h64⟩, hfs⟩ := legalFields_cons.mp hfs
    rw [fieldBits_cons] at hroom
    obtain ⟨u, hu, hsu⟩ := exec_wbits_appends (s := { s with opd := f.2 }) .opd hs h1 h64 hc
      (State.hasRoom_mono hroom (Nat.le_add_right _ _))
    have hu0 : u.err = 0 := (State.appends_err hsu).trans hs
    obtain ⟨t, ht, hut⟩ := ih u hu0 ((State.appends_wclosed hsu).trans hc) hfs
      (State.hasRoom_of_appends hsu (by rw [bitsOf_length]; exact hroom))
    refine ⟨t, ?_, State.appends_trans (State.appends_withOpd hsu t.opd) hut⟩
    simp only [writeFields, hu, hu0, if_true, ht]

/-- WCLOSE where OBUF takes the pending byte, whether or not there is one: the stream ends at a byte boundary, after 0 to 7
zero bits (R80). -/
theorem exec_wclose_outputBits {s : State} (hs : s.err = 0) (hc : s.wclosed = false) (hroom : s.hasRoom 7) :
    ∃ t, exec .wclose s = .next t ∧ t.err = 0 ∧ t.wcnt = 0 ∧ t.olen.toNat = s.olen.toNat + (s.wcnt.toNat + 7) / 8 ∧
      t.outputBits = s.outputBits ++ List.replicate (8 * t.olen.toNat - s.outputBits.length) false := by
  obtain ⟨h7, hroom, hcap⟩ := hroom
  by_cases hw : s.wcnt = 0
  · have hlen : s.outputBits.length = 8 * s.olen.toNat := by simp [outputBits_length, hw]
    refine ⟨_, exec_wclose_of_wcnt_zero hs hc hw, hs, hw, by simp [hw], ?_⟩
    rw [hlen, Nat.sub_self, List.replicate_zero, List.append_nil]
    rfl
  · have h1 : 1 ≤ s.wcnt.toNat := Nat.pos_of_ne_zero fun h0 => hw (BitVec.eq_of_toNat_eq h0)
    have holen := State.olen_closedPadded (s := s) (by omega)
    refine ⟨s.closedPadded, exec_wclose_pads hs hc h1 (by omega), hs, rfl, by omega, ?_⟩
    rw [State.outputBits_closedPadded h7 (by omega), outputBits_length, holen]
    congr 2
    omega

/-- The writer's part of the round trip. -/
theorem writeFields_closed (s : State) (fs : List (BitVec 7 × Word64)) (hs : s.err = 0) (hfs : legalFields fs)
    (hcap : s.params.obufCap ≤ 2 ^ 32 - 1) (hfit : (fieldBits fs + 7) / 8 ≤ s.params.obufCap) :
    ∃ s1 s2 s3, exec .wopen s = .next s1 ∧ writeFields fs s1 = some s2 ∧ exec .wclose s2 = .next s3 ∧ s3.err = 0 ∧
      s3.wcnt = 0 ∧ s3.olen.toNat = (fieldBits fs + 7) / 8 ∧
      s3.outputBits = fieldStream fs ++ List.replicate (8 * s3.olen.toNat - fieldBits fs) false := by
  have hroom : s.openedWriter.hasRoom (fieldBits fs + 7) :=
    ⟨by simp [State.openedWriter], by simpa [State.openedWriter] using hfit, hcap⟩
  obtain ⟨s2, hwrite, happ⟩ := writeFields_appends fs s.openedWriter hs rfl hfs
    (State.hasRoom_mono hroom (Nat.le_add_right _ _))
  obtain ⟨s3, hclose, h0, hwcnt, holen, hout⟩ := exec_wclose_outputBits (s := s2) ((State.appends_err happ).trans hs)
    (State.appends_wclosed happ) (State.hasRoom_of_appends happ (by rw [fieldStream_length]; exact hroom))
  obtain ⟨hbits, holen2, hwcnt2, -, -⟩ := happ
  have hbits : s2.outputBits = fieldStream fs := hbits
  have holen2 : s2.olen.toNat = 0 + (0 + (fieldStream fs).length) / 8 := holen2
  have hwcnt2 : s2.wcnt.toNat = (0 + (fieldStream fs).length) % 8 := hwcnt2
  rw [fieldStream_length] at holen2 hwcnt2
  rw [hbits, fieldStream_length] at hout
  exact ⟨_, s2, s3, exec_wopen hs, hwrite, hclose, h0, hwcnt, by omega, hout⟩

/-! ## Reading -/

/-- A reader opened on the bytes of a closed stream has the stream's bits before it (R16, R53). -/
theorem unreadBits_openedReader {s d : State} (hwcnt : s.wcnt = 0)
    (hbytes : ∀ i, i < s.olen.toNat → s.obuf.byteAt? i = some (d.ibufByte i)) :
    (d.openedReader s.olen.toNat).unreadBits = s.outputBits := by
  have hinput : ∀ p ∈ List.range (8 * s.olen.toNat), (d.openedReader s.olen.toNat).inputBit (0 + p) =
      ((s.obuf.byteAt? (p / 8)).getD 0).toNat.testBit (7 - p % 8) := fun p hp => by
    have hbyte := hbytes (p / 8) (by have := List.mem_range.mp hp; omega)
    rw [hbyte, Option.getD_some, BitVec.testBit_toNat, Nat.zero_add]
    rfl
  have hrpos : (d.openedReader s.olen.toNat).rpos.toNat = 0 := rfl
  have hpending : bitsOf s.wcnt.toNat s.wacc.toNat = [] := by rw [hwcnt]; rfl
  rw [State.unreadBits, d.ilen_openedReader s.olen.isLt, hrpos, Nat.sub_zero, List.map_congr_left hinput, State.outputBits,
    flatMap_bitsOf, hpending, List.append_nil]

/-- RBITS at each field's width in turn reads the fields back. -/
theorem readFields_unread (fs : List (BitVec 7 × Word64)) (d : State) (rest : List Bool) (hd : d.err = 0)
    (hfs : legalFields fs) (h : d.unreadBits = fieldStream fs ++ rest) :
    ∃ d' vs, readFields (fs.map (·.1)) d = some (vs, d') ∧
      vs.map (·.toNat) = fs.map (fun f => f.2.toNat % 2 ^ f.1.toNat) ∧ d'.unreadBits = rest := by
  induction fs generalizing d with
  | nil => exact ⟨d, [], rfl, rfl, h⟩
  | cons f fs ih =>
    obtain ⟨⟨h1, h64⟩, hfs⟩ := legalFields_cons.mp hfs
    rw [fieldStream_cons, List.append_assoc] at h
    have hexec := exec_rbits_unread hd h1 h64 h
    obtain ⟨-, hrest, -⟩ := getNat_unread .endOfStream f.1.toNat f.2.toNat 0 d _ h
    obtain ⟨d', vs, hread, hvs, hunread⟩ := ih (d.readInto f.1.toNat f.2.toNat) hd hfs
      ((d.unreadBits_readInto _ _).trans hrest)
    refine ⟨d', (d.readInto f.1.toNat f.2.toNat).res :: vs, ?_, ?_, hunread⟩
    · simp only [List.map_cons, readFields, hexec, State.err_readInto, hd, if_true, hread, Option.map_some]
    · rw [List.map_cons, List.map_cons, hvs, d.res_readInto _ h64]

/-- Settles O26: the closed stream is the fields' bits and the padding (`writeFields_closed`), the reader opens on these bits
(`unreadBits_openedReader`), and reads the fields off them (`readFields_unread`). -/
theorem fieldsRoundTripThroughTheStream : Obligations.FieldsRoundTripThroughTheStream := by
  intro s d fs hs hfs hcap hfit
  obtain ⟨s1, s2, s3, hopen, hwrite, hclose, h0, hwcnt, holen, hout⟩ := writeFields_closed s fs hs hfs hcap hfit
  refine ⟨s1, s2, s3, hopen, hwrite, hclose, h0, holen, fun hd _ hibuf hopd hbytes => ?_⟩
  have hropen : exec (.ropen .opd) d = .next (d.openedReader s3.olen.toNat) := by
    rw [← hopd] at hibuf ⊢
    exact exec_ropen hd hibuf
  obtain ⟨d2, vs, hread, hvs, hunread⟩ := readFields_unread fs (d.openedReader s3.olen.toNat) _ hd hfs
    ((unreadBits_openedReader hwcnt hbytes).trans hout)
  exact ⟨_, d2, vs, hropen, hread, hvs, hunread, by omega⟩

end Sys2Proof.Machine
end

section
/-! The Golomb parameters: R85's b and t in closed form (O28), the registers that hold them, and GSETM (O27). -/

namespace Sys2Proof.Machine

/-! ## The parameters -/

theorem ceilLog2_eq_zero_iff {m : Nat} (h1 : 1 ≤ m) : ceilLog2 m = 0 ↔ m = 1 := by
  constructor
  · intro h0
    have hle := (ceilLog2_spec m).1
    rw [h0] at hle
    omega
  · rintro rfl
    rfl

/-- R19 at m ≥ 2: m lies in the upper half of the numbers of its width. -/
theorem ceilLog2_halves {m : Nat} (h2 : 2 ≤ m) :
    ceilLog2 m ≠ 0 ∧ 2 ^ (ceilLog2 m - 1) < m ∧ m ≤ 2 ^ ceilLog2 m ∧ 2 ^ ceilLog2 m = 2 * 2 ^ (ceilLog2 m - 1) := by
  obtain ⟨hle, hmin⟩ := ceilLog2_spec m
  have hb0 : ceilLog2 m ≠ 0 := mt (ceilLog2_eq_zero_iff (by omega)).mp (by omega)
  exact ⟨hb0, hmin _ (by omega), hle, (mul_pow_sub_one hb0 2).symm⟩

/-- R85 at m = 1, where alone the force flag counts. -/
theorem golombParams_one (p : Config.Params) (f : Bool) :
    golombParams p 1 f = (f.toNat, if f = true ∧ p.forceTFrom = .forcedB then 1 else 0) := by
  have hb0 : ceilLog2 1 = 0 := rfl
  simp only [golombParams, hb0]
  cases f <;> cases p.forceTFrom <;> rfl

/-- R85 at every other m. -/
theorem golombParams_of_two_le (p : Config.Params) {m : Nat} (f : Bool) (h2 : 2 ≤ m) :
    golombParams p m f = (ceilLog2 m, 2 ^ ceilLog2 m - m) := by
  obtain ⟨hb0, -⟩ := ceilLog2_halves h2
  simp only [golombParams, beq_eq_false_iff_ne.mpr hb0, Bool.and_false, Bool.false_eq_true, if_false]
  cases p.forceTFrom <;> rfl

/-- Settles O28: R85 at m = 1, a case per force flag and FORCE_T_FROM (`golombParams_one`), and at m ≥ 2
(`golombParams_of_two_le`), where 2^(b0 − 1) < m keeps t below 2^(b0 − 1). -/
theorem golombParametersAreAsDefined : Obligations.GolombParametersAreAsDefined := by
  intro p m f h1 hmax
  obtain ⟨hle, hmin⟩ := ceilLog2_spec m
  have h32 : ceilLog2 m ≤ 32 := ceilLog2_le (by omega)
  refine ⟨ceilLog2 m, (golombParams p m f).1, (golombParams p m f).2, rfl, hle, hmin, h32, ceilLog2_eq_zero_iff h1, ?_⟩
  rcases Nat.eq_or_lt_of_le h1 with rfl | h2
  · have hb0 : ceilLog2 1 = 0 := rfl
    rw [golombParams_one, hb0]
    cases f <;> cases p.forceTFrom <;> decide
  · obtain ⟨hb0, hlow, -, hhalf⟩ := ceilLog2_halves h2
    have h31 : 2 ^ (ceilLog2 m - 1) ≤ 2 ^ 31 := Nat.pow_le_pow_right (by decide) (by omega)
    simp only [golombParams_of_two_le p f h2, ite_self]
    exact ⟨by simp [hb0], by omega, by omega, .inl (by omega)⟩

theorem gm_pos {s : State} (hm : s.gm ≠ 0) : 0 < s.gm.toNat :=
  Nat.pos_of_ne_zero fun h0 => hm (BitVec.eq_of_toNat_eq h0)

/-- R32, R33: GB and GT fit every remainder of a division by GM. -/
theorem fitsRemainder_of_legalGolomb {s : State} (hg : s.legalGolomb) (hm : s.gm ≠ 0) (u : Nat) :
    s.fitsRemainder (u % s.gm.toNat) := by
  have h1 : 1 ≤ s.gm.toNat := gm_pos hm
  have hr : u % s.gm.toNat < s.gm.toNat := Nat.mod_lt _ h1
  rw [State.legalGolomb, if_neg hm] at hg
  unfold State.fitsRemainder
  rcases Nat.eq_or_lt_of_le h1 with hone | h2
  · rw [← hone, golombParams_one, Prod.mk.injEq] at hg
    obtain ⟨hgb, hgt⟩ := hg
    rw [hgb, hgt, ← hone, Nat.mod_one]
    cases s.bforce
    · simp
    · cases s.params.forceTFrom <;> decide
  · obtain ⟨hb0, hlow, hle, hhalf⟩ := ceilLog2_halves h2
    rw [golombParams_of_two_le _ _ h2, Prod.mk.injEq] at hg
    obtain ⟨hgb, hgt⟩ := hg
    rw [hgb, hgt, if_neg hb0]
    omega

/-! ## GSETM -/

/-- `s` with the Golomb parameters of `m` and the force flag `f` (R87). -/
def State.withGolomb (s : State) (m : Nat) (f : Bool) : State :=
  { s with
    gm := BitVec.ofNat 32 m
    gb := BitVec.ofNat 6 (golombParams s.params m f).1
    gt := BitVec.ofNat 32 (golombParams s.params m f).2
    bforce := f }

/-- R87 for a parameter outside 1 .. 2^32 − 1. -/
theorem exec_gsetm_refused {s : State} {f : BitVec 7} {r : OperandSource} (hs : s.err = 0)
    (hx : (s.operand r).toNat = 0 ∨ 2 ^ 32 - 1 < (s.operand r).toNat) :
    exec (.gsetm f r) s = .next (s.latch .invalidParameter (encode (.gsetm f r))) := by
  by_cases hf : f.toNat > 1
  · exact runCommand_refused hs hf
  · simp only [exec, execGsetm, if_neg hf]
    exact runCommand_refused hs hx

/-- R87 for a legal force flag and parameter. -/
theorem exec_gsetm {s : State} {f : BitVec 7} {r : OperandSource} (hs : s.err = 0) (hf : f.toNat ≤ 1)
    (h1 : 1 ≤ (s.operand r).toNat) (hmax : (s.operand r).toNat ≤ 2 ^ 32 - 1) :
    exec (.gsetm f r) s = .next (s.withGolomb (s.operand r).toNat (f == 1)) := by
  have hx : ¬ ((s.operand r).toNat = 0 ∨ (s.operand r).toNat > 2 ^ 32 - 1) := by omega
  simp only [exec, execGsetm, if_neg (Nat.not_lt.mpr hf), if_neg hx, runCommand_done hs, State.withGolomb]

/-- Settles O27: the two checks of R87, and past them registers that hold m, b and t (`golombParams_fit`). -/
theorem gsetmSetsTheParameters : Obligations.GsetmSetsTheParameters := by
  refine ⟨decode_of_row 9 (by decide), fun s f r hs => ⟨fun hbad => ?refused, fun hf h1 hmax => ?set⟩⟩
  case refused =>
    rcases hbad with hf | hx
    · exact exec_of_not_wellFormed (by rw [wellFormed_gsetm_iff]; omega) hs
    · exact exec_gsetm_refused hs hx
  case set =>
    have hforce : (f == 1) = decide (f.toNat = 1) := by
      rw [beq_eq_decide, decide_eq_decide]
      exact BitVec.toNat_inj.symm
    have h32 : (s.operand r).toNat < 2 ^ 32 := by omega
    obtain ⟨hgb, hgt⟩ := golombParams_fit s.params _ (decide (f.toNat = 1)) h1 h32
    rw [exec_gsetm hs hf h1 hmax, hforce]
    refine ⟨_, rfl, rfl, toNat_ofNat_of_lt h32, ?_, rfl, ?_⟩
    · exact Prod.ext (toNat_ofNat_of_lt hgb) (toNat_ofNat_of_lt hgt)
    · rw [gmv_eq, decide_eq_true_eq]
      exact ofNat_ne_zero (by omega) h32

end Sys2Proof.Machine
end

section
/-! The fold and its inverse as commands (41_golomb.md): FOLD and UNFOLD (O34), each undoing the other (O35). -/

namespace Sys2Proof.Machine

/-- R90 as an equation of integers. -/
theorem foldInt_eq (v : Int) : (foldInt v : Int) = if 0 ≤ v then 2 * v else -2 * v - 1 := by
  unfold foldInt
  split <;> omega

/-- R91 as an equation of integers. -/
theorem unfoldNat_eq (u : Nat) : unfoldNat u = if u % 2 = 0 then (u : Int) / 2 else -(((u : Int) + 1) / 2) := by
  unfold unfoldNat
  push_cast
  rfl

/-- What FOLD makes of the operand (R90). -/
def foldWord (x : Word64) : Word64 := BitVec.ofNat 64 (foldInt x.toInt)

/-- What UNFOLD makes of the operand (R91). -/
def unfoldWord (x : Word64) : Word64 := bits64 (unfoldNat x.toNat)

/-- No folded operand wraps (R90). -/
theorem toNat_foldWord (x : Word64) : (foldWord x).toNat = foldInt x.toInt :=
  toNat_ofNat_of_lt (foldInt_lt _ x.le_toInt x.toInt_lt)

/-- No unfolded operand wraps (R91). -/
theorem toInt_unfoldWord (x : Word64) : (unfoldWord x).toInt = unfoldNat x.toNat := toInt_bits64_unfoldNat _ x.isLt

theorem unfoldWord_foldWord (x : Word64) : unfoldWord (foldWord x) = x := by
  rw [unfoldWord, toNat_foldWord, unfoldNat_foldInt, bits64_toInt]

theorem foldWord_unfoldWord (x : Word64) : foldWord (unfoldWord x) = x := by
  rw [foldWord, toInt_unfoldWord, foldInt_unfoldNat, BitVec.ofNat_toNat, BitVec.setWidth_eq]

theorem exec_fold {s : State} {r : OperandSource} {x : Word64} (hs : s.err = 0) (hx : foldWord (s.operand r) = x) :
    exec (.fold r) s = .next { s with res := x } := by
  simp only [exec, execFold, runCommand_done hs, ← hx, foldWord]

theorem exec_unfold {s : State} {r : OperandSource} {x : Word64} (hs : s.err = 0) (hx : unfoldWord (s.operand r) = x) :
    exec (.unfold r) s = .next { s with res := x } := by
  simp only [exec, execUnfold, runCommand_done hs, ← hx, unfoldWord]

/-- Settles O34: what FOLD and UNFOLD leave in RES does not wrap. -/
theorem foldAndUnfoldResults : Obligations.FoldAndUnfoldResults := by
  refine ⟨decode_of_row 14 (by decide), decode_of_row 15 (by decide),
    fun s r hs => ⟨⟨_, exec_fold hs rfl, ?fold⟩, ⟨_, exec_unfold hs rfl, ?unfold⟩⟩⟩
  case fold => rw [toNat_foldWord, foldInt_eq]
  case unfold => rw [toInt_unfoldWord, unfoldNat_eq]

/-- Settles O35: the second command finds in RES what the first one left there, and undoes it (`unfoldWord_foldWord`,
`foldWord_unfoldWord`). -/
theorem unfoldInvertsFold : Obligations.UnfoldInvertsFold := fun _ _ hs =>
  ⟨_, _, ⟨exec_fold hs rfl, exec_unfold hs (unfoldWord_foldWord _)⟩,
    ⟨exec_unfold hs rfl, exec_fold hs (foldWord_unfoldWord _)⟩⟩

end Sys2Proof.Machine
end

section
/-! Writing Golomb codes (41_golomb.md): GENC (O29) and GENCS (O30) are one rule on two values, said once for both. -/

namespace Sys2Proof.Machine

/-! ## The shared rule (R88) -/

theorem runCommand_encodeGolomb_unset {i : Instr} {s : State} (u : Nat) (hs : s.err = 0) (hm : s.gm = 0) :
    runCommand i s (encodeGolomb u s) = .next (s.latch .invalidParameter (encode i)) :=
  runCommand_refused hs hm

theorem encodeGolomb_eq_writeBits {s : State} (u : Nat) (hm : s.gm ≠ 0) : encodeGolomb u s = writeBits s (putGolomb u) :=
  if_neg hm

theorem runCommand_encodeGolomb_closed {i : Instr} {s : State} (u : Nat) (hs : s.err = 0) (hm : s.gm ≠ 0)
    (hc : s.wclosed = true) : runCommand i s (encodeGolomb u s) = .next (s.latch .closedStream (encode i)) := by
  rw [encodeGolomb_eq_writeBits u hm, runCommand_writeBits_closed hs hc]

/-- Code(u) is appended where OBUF takes the bytes it completes. -/
theorem runCommand_encodeGolomb_appends {i : Instr} {s : State} {u : Nat} (hs : s.err = 0) (hm : s.gm ≠ 0)
    (hc : s.wclosed = false) (hroom : s.hasRoom (s.codeOf u).length) :
    ∃ t, runCommand i s (encodeGolomb u s) = .next t ∧ s.appends t (s.codeOf u) := by
  obtain ⟨t, ht, happ⟩ := putList_appends (s.codeOf u) s hroom
  rw [← putGolomb_eq_putList] at ht
  exact ⟨t, by rw [encodeGolomb_eq_writeBits u hm, runCommand_writeBits_some hs hc ht], happ⟩

/-- IO where OBUF does not take a byte that Code(u) completes. -/
theorem runCommand_encodeGolomb_full {i : Instr} {s : State} {u : Nat} (hs : s.err = 0) (hm : s.gm ≠ 0)
    (hc : s.wclosed = false) (hlack : s.lacksRoom (s.codeOf u).length) :
    ∃ t, runCommand i s (encodeGolomb u s) = .next t ∧ s.failedWrite t (encode i) := by
  have hnone := putList_eq_none (s.codeOf u) s hlack
  rw [← putGolomb_eq_putList] at hnone
  obtain ⟨-, holen, -, hcap⟩ := hlack
  exact ⟨_, by rw [encodeGolomb_eq_writeBits u hm, runCommand_writeBits_none hs hc hnone],
    drawWriter_failedWrite s _ holen hcap⟩

/-! ## The two commands -/

theorem exec_genc (r : OperandSource) (s : State) :
    exec (.genc r) s = runCommand (.genc r) s (encodeGolomb (s.operand r).toNat s) := rfl

theorem exec_gencs (r : OperandSource) (s : State) :
    exec (.gencs r) s = runCommand (.gencs r) s (encodeGolomb (foldInt (s.operand r).toInt) s) := rfl

/-- Settles O29, by the endings of R88's rule. -/
theorem gencAppendsTheCode : Obligations.GencAppendsTheCode := by
  refine ⟨decode_of_row 10 (by decide), fun s r hs => ?_⟩
  rw [exec_genc]
  exact ⟨fun hm => runCommand_encodeGolomb_unset _ hs hm, fun hm hc => runCommand_encodeGolomb_closed _ hs hm hc,
    fun hm hc hroom => runCommand_encodeGolomb_appends hs hm hc hroom,
    fun hm hc hlack => runCommand_encodeGolomb_full hs hm hc hlack⟩

/-- Settles O30, by the endings of R88's rule on the folded value. -/
theorem gencsAppendsTheFoldedCode : Obligations.GencsAppendsTheFoldedCode := by
  refine ⟨decode_of_row 12 (by decide), fun s r u hs hu => ?_⟩
  obtain rfl : u = foldInt (s.operand r).toInt := Int.ofNat_inj.mp (hu.trans (foldInt_eq _).symm)
  rw [exec_gencs]
  exact ⟨fun hm => runCommand_encodeGolomb_unset _ hs hm, fun hm hc => runCommand_encodeGolomb_closed _ hs hm hc,
    fun hm hc hroom => runCommand_encodeGolomb_appends hs hm hc hroom,
    fun hm hc hlack => runCommand_encodeGolomb_full hs hm hc hlack⟩

end Sys2Proof.Machine
end

section
/-! Reading Golomb codes (41_golomb.md): GDEC (O31) and GDECS (O32) are one rule with two results, said once for both, and
so are their errors (O33). -/

namespace Sys2Proof.Machine

/-! ## The shared rule (R89, R93) -/

/-- `t` is `s` after `n` bits went to RES as `x`, with `rest` still to be read. -/
def State.decodes (s t : State) (n : Nat) (x : Word64) (rest : List Bool) : Prop :=
  t = { s with res := t.res, rpos := t.rpos } ∧ t.res = x ∧ t.rpos.toNat = s.rpos.toNat + n ∧ t.unreadBits = rest

theorem runCommand_decodeGolomb_unset {i : Instr} {s : State} (toRes : Nat → Word64) (hs : s.err = 0) (hm : s.gm = 0) :
    runCommand i s (decodeGolomb toRes s) = .next (s.latch .invalidParameter (encode i)) :=
  runCommand_refused hs hm

/-- A value that the reader gives, with the bits it consumed. -/
theorem runCommand_decodeGolomb_ok {i : Instr} {s : State} {u n : Nat} {rest : List Bool} (toRes : Nat → Word64)
    (hs : s.err = 0) (hm : s.gm ≠ 0) (hget : getGolomb s = .ok (u, s.skipBits n))
    (hrest : (s.skipBits n).unreadBits = rest) (hlen : s.rpos.toNat + n ≤ 8 * s.ilen.toNat) :
    ∃ t, runCommand i s (decodeGolomb toRes s) = .next t ∧ s.decodes t n (toRes u) rest :=
  ⟨{ s.skipBits n with res := toRes u }, by simp only [decodeGolomb, if_neg hm, hget, runCommand_done hs],
    rfl, rfl, s.rpos_skipBits n hlen, hrest⟩

/-- An error that the reader gives (R126). -/
theorem runCommand_decodeGolomb_error {i : Instr} {s : State} {e : ErrorKind} (toRes : Nat → Word64) (hs : s.err = 0)
    (hm : s.gm ≠ 0) (hget : getGolomb s = .error e) (hr : s.cursorOk) :
    ∃ t, runCommand i s (decodeGolomb toRes s) = .next t ∧ s.failedRead t e (encode i) :=
  ⟨_, by simp only [decodeGolomb, if_neg hm, hget, runCommand_raised hs], drawCursor_failedRead s e _ hr⟩

/-- A code of R86 within QCAP is read whole. -/
theorem runCommand_decodeGolomb_code {i : Instr} {s : State} {u : Nat} {rest : List Bool} (toRes : Nat → Word64)
    (hs : s.err = 0) (hm : s.gm ≠ 0) (hg : s.legalGolomb) (hq : u / s.gm.toNat ≤ s.params.qcap)
    (h : s.unreadBits = s.codeOf u ++ rest) :
    ∃ t, runCommand i s (decodeGolomb toRes s) = .next t ∧ s.decodes t (s.codeOf u).length (toRes u) rest := by
  obtain ⟨hget, hrest, hlen⟩ := getGolomb_unread s u rest (fitsRemainder_of_legalGolomb hg hm u) hq h
  exact runCommand_decodeGolomb_ok toRes hs hm hget hrest hlen

/-- U6's registers: m = 1 under the force flag, with the cutoff of the unforced width (R85). -/
theorem gb_gt_of_corner {s : State} (hfrom : s.params.forceTFrom = .unforcedB) (hm : s.gm = 1) (hf : s.bforce = true)
    (hg : s.legalGolomb) : s.gb = 1 ∧ s.gt = 0 := by
  rw [State.legalGolomb, hm, if_neg (by decide), hf] at hg
  obtain ⟨hgb, hgt⟩ := Prod.mk.inj (hg.trans (golombParams_one s.params true))
  rw [hfrom] at hgt
  exact ⟨BitVec.eq_of_toNat_eq hgb, BitVec.eq_of_toNat_eq hgt⟩

/-- U6's pattern is read as q + 1. -/
theorem runCommand_decodeGolomb_corner {i : Instr} {s : State} {q : Nat} {rest : List Bool} (toRes : Nat → Word64)
    (hs : s.err = 0) (hfrom : s.params.forceTFrom = .unforcedB) (hm : s.gm = 1) (hf : s.bforce = true)
    (hg : s.legalGolomb) (hq : q ≤ s.params.qcap)
    (h : s.unreadBits = List.replicate q false ++ [true, true] ++ rest) :
    ∃ t, runCommand i s (decodeGolomb toRes s) = .next t ∧ s.decodes t (q + 2) (toRes (q + 1)) rest := by
  obtain ⟨hgb, hgt⟩ := gb_gt_of_corner hfrom hm hf hg
  obtain ⟨hget, hrest, hlen⟩ := getGolomb_corner s q rest hm hgb hgt hq h
  exact runCommand_decodeGolomb_ok toRes hs (by rw [hm]; decide) hget hrest hlen

/-- More zero bits than QCAP allows. -/
theorem runCommand_decodeGolomb_corrupt {i : Instr} {s : State} {rest : List Bool} (toRes : Nat → Word64) (hs : s.err = 0)
    (hm : s.gm ≠ 0) (h : s.unreadBits = List.replicate (s.params.qcap + 1) false ++ rest) :
    ∃ t, runCommand i s (decodeGolomb toRes s) = .next t ∧ s.failedRead t .corruptCode (encode i) := by
  obtain ⟨hunary, hr⟩ := getUnary_corrupt s.params.qcap 0 s rest h
  exact runCommand_decodeGolomb_error toRes hs hm (by rw [getGolomb, hunary]; rfl) hr

/-- A code that the end of the stream cuts off. -/
theorem runCommand_decodeGolomb_truncated {i : Instr} {s : State} {u : Nat} {rest : List Bool} (toRes : Nat → Word64)
    (hs : s.err = 0) (hm : s.gm ≠ 0) (hg : s.legalGolomb) (hr : s.cursorOk) (hq : u / s.gm.toNat ≤ s.params.qcap)
    (hne : rest ≠ []) (h : s.unreadBits ++ rest = s.codeOf u) :
    ∃ t, runCommand i s (decodeGolomb toRes s) = .next t ∧ s.failedRead t .truncatedCode (encode i) :=
  runCommand_decodeGolomb_error toRes hs hm
    (getGolomb_short s u rest hr (fitsRemainder_of_legalGolomb hg hm u) hq hne h) hr

/-! ## The two commands -/

theorem exec_gdec (s : State) : exec .gdec s = runCommand .gdec s (decodeGolomb (BitVec.ofNat 64) s) := rfl

theorem exec_gdecs (s : State) : exec .gdecs s = runCommand .gdecs s (decodeGolomb (fun u => bits64 (unfoldNat u)) s) := rfl

/-- GDEC and GDECS run the same rule. -/
theorem exec_decoder {i : Instr} (hi : i = .gdec ∨ i = .gdecs) (s : State) :
    ∃ toRes, exec i s = runCommand i s (decodeGolomb toRes s) := by
  rcases hi with rfl | rfl
  · exact ⟨_, exec_gdec s⟩
  · exact ⟨_, exec_gdecs s⟩

/-- R8. -/
theorem qcap_lt_of_legal {p : Config.Params} (hp : p.legal = true) : p.qcap < 2 ^ 32 := by
  simp only [Config.Params.legal, Config.inRange32, Bool.and_eq_true, decide_eq_true_eq] at hp
  omega

/-- RES holds every value whose quotient QCAP allows. -/
theorem value_lt_of_quotient_le {s : State} {u : Nat} (hp : s.params.legal = true) (hm : s.gm ≠ 0)
    (hq : u / s.gm.toNat ≤ s.params.qcap) : u < 2 ^ 64 := by
  have hcap := qcap_lt_of_legal hp
  calc u < 2 ^ 32 * s.gm.toNat := (Nat.div_lt_iff_lt_mul (gm_pos hm)).mp (by omega)
    _ ≤ 2 ^ 32 * 2 ^ 32 := Nat.mul_le_mul_left _ s.gm.isLt.le
    _ = 2 ^ 64 := by norm_num

/-- Settles O31: R89's rule on a code of R86 and on U6's pattern; RES holds the value (`value_lt_of_quotient_le`). -/
theorem gdecReadsACode : Obligations.GdecReadsACode := by
  refine ⟨decode_of_encode_eq (by decide), fun s u rest hs hp hm hg hq h => ?code,
    fun s q rest hs hp hfrom hm hf hg hq h => ?corner⟩
  case code =>
    obtain ⟨t, ht, hframe, hres, hrpos, hrest⟩ := runCommand_decodeGolomb_code (BitVec.ofNat 64) hs hm hg hq h
    refine ⟨t, (exec_gdec s).trans ht, hframe, ?_, hrpos, hrest⟩
    rw [hres, toNat_ofNat_of_lt (value_lt_of_quotient_le hp hm hq)]
  case corner =>
    obtain ⟨t, ht, hframe, hres, hrpos, hrest⟩ :=
      runCommand_decodeGolomb_corner (BitVec.ofNat 64) hs hfrom hm hf hg hq h
    have hcap := qcap_lt_of_legal hp
    exact ⟨t, (exec_gdec s).trans ht, hframe, by rw [hres, toNat_ofNat_of_lt (by omega)], hrpos, hrest⟩

/-- Settles O32: R93's rule on a code of R86 and on U6's pattern; the unfolded value does not wrap. -/
theorem gdecsReadsAFoldedCode : Obligations.GdecsReadsAFoldedCode := by
  refine ⟨decode_of_encode_eq (by decide), fun s u rest hs hp hm hg hq h => ?code,
    fun s q rest hs hp hfrom hm hf hg hq h => ?corner⟩
  case code =>
    obtain ⟨t, ht, hframe, hres, hrpos, hrest⟩ :=
      runCommand_decodeGolomb_code (fun u => bits64 (unfoldNat u)) hs hm hg hq h
    refine ⟨t, (exec_gdecs s).trans ht, hframe, ?_, hrpos, hrest⟩
    rw [hres, toInt_bits64_unfoldNat u (value_lt_of_quotient_le hp hm hq), unfoldNat_eq]
  case corner =>
    obtain ⟨t, ht, hframe, hres, hrpos, hrest⟩ :=
      runCommand_decodeGolomb_corner (fun u => bits64 (unfoldNat u)) hs hfrom hm hf hg hq h
    have hcap := qcap_lt_of_legal hp
    refine ⟨t, (exec_gdecs s).trans ht, hframe, ?_, hrpos, hrest⟩
    rw [hres, toInt_bits64_unfoldNat _ (by omega), unfoldNat_eq, Nat.cast_succ, add_assoc, one_add_one_eq_two]

/-- Settles O33: the three errors of R89's rule, which are GDEC's and GDECS's alike (`exec_decoder`). -/
theorem badCodesAreRefused : Obligations.BadCodesAreRefused := by
  intro s i hi hs
  obtain ⟨toRes, hexec⟩ := exec_decoder hi s
  rw [hexec]
  exact ⟨fun hm => runCommand_decodeGolomb_unset toRes hs hm,
    fun rest hm h => runCommand_decodeGolomb_corrupt toRes hs hm h,
    fun u rest hm hg hr hq hne h => runCommand_decodeGolomb_truncated toRes hs hm hg hr.2 hq hne h⟩

end Sys2Proof.Machine
end

section
/-! The round trip of 41_golomb.md section 3 (O36): the encoder's part appends Code(u), the decoder's part starts from these
bits, and what each command makes of X and of RES cancels. -/

namespace Sys2Proof.Machine

/-- The value whose code GENCS (`signed`) or GENC writes for the operand `x` (R88, R92). -/
def codedValue (signed : Bool) (x : Word64) : Nat := if signed then foldInt x.toInt else x.toNat

/-- What GDECS (`signed`) or GDEC leaves in RES for the value `u` (R89, R93). -/
def decodedResult (signed : Bool) (u : Nat) : Word64 := if signed then bits64 (unfoldNat u) else BitVec.ofNat 64 u

theorem exec_encoder (signed : Bool) (r : OperandSource) (s : State) :
    exec (if signed then .gencs r else .genc r) s =
      runCommand (if signed then .gencs r else .genc r) s (encodeGolomb (codedValue signed (s.operand r)) s) := by
  cases signed <;> rfl

theorem exec_signedDecoder (signed : Bool) (s : State) :
    exec (if signed then .gdecs else .gdec) s =
      runCommand (if signed then .gdecs else .gdec) s (decodeGolomb (decodedResult signed) s) := by
  cases signed <;> rfl

/-- The decoder's result undoes the encoder's value (R91). -/
theorem decodedResult_codedValue (signed : Bool) (x : Word64) : decodedResult signed (codedValue signed x) = x := by
  cases signed
  · simp [decodedResult, codedValue]
  · simp only [decodedResult, codedValue, if_true, unfoldNat_foldInt, bits64_toInt]

/-- The code is the same under the same m, b and t. -/
theorem State.codeOf_congr {d e : State} (hm : d.gm = e.gm) (hb : d.gb = e.gb) (ht : d.gt = e.gt) (u : Nat) :
    d.codeOf u = e.codeOf u := by
  simp only [State.codeOf, hm, hb, ht]

/-- A code begins with as many zero bits as its quotient (R86). -/
theorem State.codeOf_eq_zeros_append (s : State) {u k : Nat} (hk : k ≤ u / s.gm.toNat) :
    ∃ l, s.codeOf u = List.replicate k false ++ l := by
  obtain ⟨n, hn⟩ := Nat.exists_eq_add_of_le hk
  exact ⟨_, by rw [State.codeOf, golombCode, hn, List.replicate_add, List.append_assoc, List.append_assoc]⟩

/-- Settles O36: the encoder appends Code(u) (`runCommand_encodeGolomb_appends`), which is Code(u) for the decoder too; within
QCAP it is read whole (`runCommand_decodeGolomb_code`), and beyond it begins with too many zero bits
(`State.codeOf_eq_zeros_append`). -/
theorem golombCodesRoundTrip : Obligations.GolombCodesRoundTrip := by
  intro e d r signed u rest enc dec he hd _ hm hc hgm hgb hgt hg hu hroom
  have hu : u = codedValue signed (e.operand r) := hu
  have hdm : d.gm ≠ 0 := by rw [hgm]; exact hm
  have henc : exec enc e = runCommand enc e (encodeGolomb u e) := by rw [hu]; exact exec_encoder signed r e
  have hdec : exec dec d = runCommand dec d (decodeGolomb (decodedResult signed) d) := exec_signedDecoder signed d
  obtain ⟨e', he', happ⟩ := runCommand_encodeGolomb_appends (i := enc) he hm hc hroom
  refine ⟨e', henc.trans he', (State.appends_err happ).trans he, fun hbits => ?_⟩
  obtain ⟨hout, -⟩ := happ
  rw [hout, List.drop_left, ← State.codeOf_congr hgm hgb hgt u] at hbits
  rw [hdec, ← hgm]
  refine ⟨fun hq => ?within, fun hq => ?beyond⟩
  case within =>
    obtain ⟨d', hd', hframe, hres, -, hrest⟩ := runCommand_decodeGolomb_code (decodedResult signed) hd hdm hg hq hbits
    exact ⟨d', hd', by rw [hframe]; exact hd, by rw [hres, hu, decodedResult_codedValue], hrest⟩
  case beyond =>
    obtain ⟨l, hl⟩ := d.codeOf_eq_zeros_append hq
    rw [hl, List.append_assoc] at hbits
    exact runCommand_decodeGolomb_corrupt (decodedResult signed) hd hdm hbits

end Sys2Proof.Machine
end

section
/-! The audio predictor (42_audio_predictor.md): its order and history (O37, O38), the prediction (O39), the encoder and the
decoder (O40, O41), and the law that they stay in step (O44). -/

namespace Sys2Proof.Machine

/-! ## The predictors' registers -/

theorem exec_asetord {f : BitVec 7} {s : State} (hs : s.err = 0) (hf : f.toNat ≤ 3) :
    exec (.asetord f) s = .next { s with aord := BitVec.ofNat 2 f.toNat } := by
  simp only [exec, execAsetord, if_neg (Nat.not_lt.mpr hf), runCommand_done hs]

theorem exec_isetp {f : BitVec 7} {s : State} (hs : s.err = 0) (hf : f.toNat ≤ 8) :
    exec (.isetp f) s = .next { s with ipid := BitVec.ofNat 4 f.toNat } := by
  simp only [exec, execIsetp, if_neg (Nat.not_lt.mpr hf), runCommand_done hs]

/-- Settles O37: a legal id fits its register, and any other is not well-formed (`exec_of_not_wellFormed`). -/
theorem asetordAndIsetpSetThePredictor : Obligations.AsetordAndIsetpSetThePredictor := by
  refine ⟨decode_of_row 16 (by decide), decode_of_row 23 (by decide),
    fun s f hs => ⟨fun hf => ?order, fun hf => ?noOrder, fun hf => ?mode, fun hf => ?noMode⟩⟩
  case order => exact ⟨_, exec_asetord hs hf, toNat_ofNat_of_lt (by omega)⟩
  case noOrder => exact exec_of_not_wellFormed (by rw [wellFormed_asetord_iff]; omega) hs
  case mode => exact ⟨_, exec_isetp hs hf, toNat_ofNat_of_lt (by omega)⟩
  case noMode => exact exec_of_not_wellFormed (by rw [wellFormed_isetp_iff]; omega) hs

theorem exec_ahclr {s : State} (hs : s.err = 0) :
    exec .ahclr s = .next { s with hist0 := History.zero, hist1 := History.zero } := by
  simp only [exec, execAhclr, runCommand_done hs]

/-- Settles O38: R99's rule has one ending, and the decoder reads its word. -/
theorem ahclrClearsTheHistory : Obligations.AhclrClearsTheHistory :=
  ⟨decode_of_encode_eq (by decide), fun _ hs => exec_ahclr hs⟩

/-! ## The prediction (R96) -/

/-- The four rows of R96's table; AORD holds no other order (R38). -/
theorem linearPrediction_eq {k : BitVec 2} {h : History} {p : Int} (h0 : k = 0 → p = 0) (h1 : k = 1 → p = h.h0.toInt)
    (h2 : k = 2 → p = 2 * h.h0.toInt - h.h1.toInt)
    (h3 : k = 3 → p = 3 * h.h0.toInt - 3 * h.h1.toInt + h.h2.toInt) : linearPrediction k.toNat h = p := by
  have orders : ∀ k : BitVec 2, k = 0 ∨ k = 1 ∨ k = 2 ∨ k = 3 := by decide
  obtain rfl | rfl | rfl | rfl := orders k
  · exact (h0 rfl).symm
  · exact (h1 rfl).symm
  · exact (h2 rfl).symm
  · exact (h3 rfl).symm

/-- RES holds every prediction. -/
theorem toInt_bits64_aPredict (k : BitVec 2) (h : History) : (bits64 (aPredict k h)).toInt = aPredict k h := by
  obtain ⟨hlo, hhi⟩ := aPredict_range k h
  exact toInt_bits64 _ (by omega) (by omega)

theorem exec_apred {s : State} (ch : Channel) (hs : s.err = 0) :
    exec (.apred ch) s = .next { s with res := bits64 (aPredict s.aord (s.hist ch)) } := by
  simp only [exec, execApred, runCommand_done hs]

/-- Settles O39, by the rows of R96's table (`linearPrediction_eq`) and the clamp. -/
theorem apredPredictsFromTheHistory : Obligations.ApredPredictsFromTheHistory := by
  refine ⟨decode_of_row 18 (by decide), fun s ch p hs h0 h1 h2 h3 => ⟨_, exec_apred ch hs, ?_⟩⟩
  rw [toInt_bits64_aPredict, aPredict, linearPrediction_eq h0 h1 h2 h3, clampInt_eq _ _ _ (by decide)]

/-! ## Recording a sample (R97) -/

/-- `s` after the sample `x` went on the channel's history and `v` to RES, as AENC and ADEC leave it (R101, R102). -/
def State.recorded (s : State) (ch : Channel) (x : Int) (v : Word64) : State :=
  { s.setHist ch ((s.hist ch).push x) with res := v }

@[simp] theorem State.recorded_res (s : State) (ch : Channel) (x : Int) (v : Word64) : (s.recorded ch x v).res = v := rfl

@[simp] theorem State.recorded_err (s : State) (ch : Channel) (x : Int) (v : Word64) :
    (s.recorded ch x v).err = s.err := s.setHist_err ch _

@[simp] theorem State.recorded_aord (s : State) (ch : Channel) (x : Int) (v : Word64) :
    (s.recorded ch x v).aord = s.aord := s.setHist_aord ch _

@[simp] theorem State.recorded_hist_same (s : State) (ch : Channel) (x : Int) (v : Word64) :
    (s.recorded ch x v).hist ch = (s.hist ch).push x := by cases ch <;> rfl

theorem State.recorded_hist_other (s : State) {ch ch' : Channel} (x : Int) (v : Word64) (hne : ch' ≠ ch) :
    (s.recorded ch x v).hist ch' = s.hist ch' :=
  calc (s.recorded ch x v).hist ch' = (s.setHist ch ((s.hist ch).push x)).hist ch' := by cases ch' <;> rfl
    _ = s.hist ch' := s.setHist_hist_other ch ch' _ hne

/-- Nothing but RES and the history changes. -/
theorem State.recorded_frame (s : State) (ch : Channel) (x : Int) (v : Word64) :
    s.recorded ch x v =
      { s with res := v, hist0 := (s.recorded ch x v).hist0, hist1 := (s.recorded ch x v).hist1 } := by
  cases ch <;> rfl

/-! ## The encoder and the decoder -/

/-- An i16 sample is its own wrap16 (R17). -/
theorem wrap16_of_range {x : Int} (hlo : -32768 ≤ x) (hhi : x ≤ 32767) : wrap16 x = x :=
  toInt_bits16 x (by omega) (by omega)

/-- RES holds the residual of every i16 sample (R101). -/
theorem toInt_bits64_residual {x : Int} (k : BitVec 2) (h : History) (hlo : -32768 ≤ x) (hhi : x ≤ 32767) :
    (bits64 (x - aPredict k h)).toInt = x - aPredict k h := by
  obtain ⟨hplo, hphi⟩ := aPredict_range k h
  exact toInt_bits64 _ (by omega) (by omega)

theorem exec_aenc_of_outside {s : State} (ch : Channel) {r : OperandSource} (hs : s.err = 0)
    (hx : (s.operand r).toInt < -32768 ∨ 32767 < (s.operand r).toInt) :
    exec (.aenc ch r) s = .next (s.latch .invalidParameter (encode (.aenc ch r))) :=
  runCommand_refused hs hx

theorem exec_aenc {s : State} (ch : Channel) {r : OperandSource} (hs : s.err = 0)
    (hlo : -32768 ≤ (s.operand r).toInt) (hhi : (s.operand r).toInt ≤ 32767) :
    exec (.aenc ch r) s = .next
      (s.recorded ch (s.operand r).toInt (bits64 ((s.operand r).toInt - aPredict s.aord (s.hist ch)))) := by
  have hx : ¬ ((s.operand r).toInt < -32768 ∨ (s.operand r).toInt > 32767) := by omega
  simp only [exec, execAenc, if_neg hx, runCommand_done hs, State.recorded]

/-- The sample that ADEC reconstructs (R102). -/
def State.reconstructed (s : State) (ch : Channel) (r : OperandSource) : Int :=
  wrap16 (aPredict s.aord (s.hist ch) + (s.operand r).toInt)

/-- R17: the i16 value that is p + r modulo 2^16. -/
theorem State.reconstructed_spec (s : State) (ch : Channel) (r : OperandSource) :
    -32768 ≤ s.reconstructed ch r ∧ s.reconstructed ch r ≤ 32767 ∧
      (s.reconstructed ch r - (aPredict s.aord (s.hist ch) + (s.operand r).toInt)) % 2 ^ 16 = 0 :=
  wrap16_spec _

theorem exec_adec {s : State} (ch : Channel) (r : OperandSource) (hs : s.err = 0) :
    exec (.adec ch r) s = .next (s.recorded ch (s.reconstructed ch r) (bits64 (s.reconstructed ch r))) := by
  simp only [exec, execAdec, runCommand_done hs, State.recorded, State.reconstructed]

/-- Settles O40, by R101's two endings. -/
theorem aencGivesTheResidual : Obligations.AencGivesTheResidual := by
  refine ⟨decode_of_row 19 (by decide),
    fun s ch r hs => ⟨fun hx => exec_aenc_of_outside ch hs hx, fun hlo hhi => ?recorded⟩⟩
  case recorded =>
    refine ⟨_, exec_aenc ch hs hlo hhi, s.recorded_frame ch _ _, toInt_bits64_residual _ _ hlo hhi, ?_, ?_, ?_,
      fun ch' hne => s.recorded_hist_other _ _ hne⟩ <;> rw [State.recorded_hist_same]
    · exact toInt_bits16 _ (by omega) (by omega)
    · rfl
    · rfl

/-- Settles O41: the reconstructed sample is the i16 value congruent to p + r (`State.reconstructed_spec`), so RES and the
history hold it. -/
theorem adecReconstructsTheSample : Obligations.AdecReconstructsTheSample := by
  refine ⟨decode_of_row 20 (by decide), fun s ch r hs => ?_⟩
  obtain ⟨hlo, hhi, hmod⟩ := s.reconstructed_spec ch r
  have hres : (bits64 (s.reconstructed ch r)).toInt = s.reconstructed ch r := toInt_bits64 _ (by omega) (by omega)
  refine ⟨_, exec_adec ch r hs, s.recorded_frame ch _ _, ?_, ?_, ?_, ?_, ?_, ?_,
    fun ch' hne => s.recorded_hist_other _ _ hne⟩
  all_goals simp only [State.recorded_res, State.recorded_hist_same, hres]
  · exact hlo
  · exact hhi
  · exact hmod
  · exact toInt_bits16 _ (by omega) (by omega)
  · rfl
  · rfl

/-! ## The lockstep law -/

/-- The residual of an i16 sample, added back to the same prediction, gives the sample (R101, R102). -/
theorem State.reconstructed_of_residual {d : State} {ch : Channel} {r : OperandSource} {x : Int} (hlo : -32768 ≤ x)
    (hhi : x ≤ 32767) (hres : d.operand r = bits64 (x - aPredict d.aord (d.hist ch))) : d.reconstructed ch r = x := by
  rw [State.reconstructed, hres, toInt_bits64_residual _ _ hlo hhi, add_sub_cancel, wrap16_of_range hlo hhi]

/-- Settles O44: equal order and history give equal predictions, so the decoder reconstructs the sample
(`State.reconstructed_of_residual`), and both push it on equal histories. -/
theorem audioEncoderAndDecoderStayInStep : Obligations.AudioEncoderAndDecoderStayInStep := by
  intro e d ch r r' he hd hord hhist hlo hhi
  refine ⟨_, exec_aenc ch he hlo hhi, (e.recorded_err ch _ _).trans he, fun hres => ⟨_, exec_adec ch r' hd, ?_⟩⟩
  rw [State.recorded_res, ← hord, ← hhist] at hres
  simp only [State.reconstructed_of_residual hlo hhi hres, State.recorded_err, State.recorded_res, State.recorded_aord,
    State.recorded_hist_same]
  exact ⟨hd, bits64_toInt _, by rw [hhist], hord⟩

end Sys2Proof.Machine
end

section
/-! The mid/side transform (42_audio_predictor.md): MSFWD (O42), MSINV (O43), and the round trip (O45). All of it is
arithmetic on 16-bit patterns, where wrap16 disappears. -/

namespace Sys2Proof.Machine

/-! ## 16-bit patterns -/

theorem bits16_add (a b : Int) : bits16 (a + b) = bits16 a + bits16 b := BitVec.ofInt_add a b

theorem bits16_sub (a b : Int) : bits16 (a - b) = bits16 a - bits16 b := ofInt_sub 16 a b

/-- A packed pair is the two values' patterns (R103, R104). -/
theorem packPair_congr {hi hi' lo lo' : Int} (hhi : bits16 hi = bits16 hi') (hlo : bits16 lo = bits16 lo') :
    packPair hi lo = packPair hi' lo' := by
  rw [packPair, packPair, hhi, hlo]

theorem pairLo_packPair (hi lo : Int) : pairLo (packPair hi lo) = wrap16 lo := by
  rw [pairLo, (packPair_fields hi lo).2.1, wrap16]

theorem pairHi_packPair (hi lo : Int) : pairHi (packPair hi lo) = wrap16 hi := by
  rw [pairHi, (packPair_fields hi lo).1, wrap16]

/-- Packing the halves of a word gives its low 32 bits. -/
theorem packPair_pairHi_pairLo (x : Word64) : packPair (pairHi x) (pairLo x) = (x.extractLsb' 0 32).zeroExtend 64 := by
  have hhi : bits16 (pairHi x) = x.extractLsb' 16 16 := BitVec.ofInt_toInt
  have hlo : bits16 (pairLo x) = x.extractLsb' 0 16 := BitVec.ofInt_toInt
  rw [packPair, hhi, hlo, BitVec.extractLsb'_append_extractLsb'_eq_extractLsb' (by decide)]

/-- R103 without the wraps that packing repeats. -/
theorem midSide_eq (left right : Int) :
    midSide left right = packPair (left - right) (right + wrap16 (left - right) / 2) :=
  packPair_congr (bits16_wrap16 _) (by rw [bits16_wrap16, halfFloor_eq])

/-- R104 without the wraps that packing repeats: R's wrap is lost in L's too. -/
theorem leftRight_eq (mid side : Int) : leftRight mid side = packPair (mid - side / 2) (mid - side / 2 + side) :=
  packPair_congr (by rw [bits16_wrap16, halfFloor_eq])
    (by rw [bits16_wrap16, bits16_add, bits16_wrap16, halfFloor_eq, ← bits16_add])

/-! ## The two commands -/

theorem exec_msfwd {s : State} {r : OperandSource} {x : Word64} (hs : s.err = 0) (hms : s.params.hasMidside = true)
    (hx : midSide (pairLo (s.operand r)) (pairHi (s.operand r)) = x) :
    exec (.msfwd r) s = .next { s with res := x } := by
  simp only [exec, execMsfwd, hms, if_true, runCommand_done hs, hx]

theorem exec_msinv {s : State} {r : OperandSource} {x : Word64} (hs : s.err = 0) (hms : s.params.hasMidside = true)
    (hx : leftRight (pairLo (s.operand r)) (pairHi (s.operand r)) = x) :
    exec (.msinv r) s = .next { s with res := x } := by
  simp only [exec, execMsinv, hms, if_true, runCommand_done hs, hx]

/-- Settles O42, by the fields of the packed pair (`midSide_eq`). -/
theorem msfwdGivesMidAndSide : Obligations.MsfwdGivesMidAndSide := by
  refine ⟨decode_of_row 21 (by decide), fun s r left right hs hl hr => ⟨fun hms => ?absent, fun hms => ?present⟩⟩
  case absent => exact exec_midside_of_absent hs hms ⟨r, .inl rfl⟩
  case present =>
    obtain rfl : left = pairLo (s.operand r) := hl
    obtain rfl : right = pairHi (s.operand r) := hr
    exact ⟨_, exec_msfwd hs hms (midSide_eq _ _), packPair_fields _ _⟩

/-- Settles O43, by the fields of the packed pair (`leftRight_eq`). -/
theorem msinvGivesLeftAndRight : Obligations.MsinvGivesLeftAndRight := by
  refine ⟨decode_of_row 22 (by decide), fun s r mid side hs hm hd => ⟨fun hms => ?absent, fun hms => ?present⟩⟩
  case absent => exact exec_midside_of_absent hs hms ⟨r, .inr rfl⟩
  case present =>
    obtain rfl : mid = pairLo (s.operand r) := hm
    obtain rfl : side = pairHi (s.operand r) := hd
    exact ⟨_, exec_msinv hs hms (leftRight_eq _ _), packPair_fields _ _⟩

/-! ## The round trip -/

/-- MSINV's result from MSFWD's is the pair that MSFWD took: modulo 2^16 half of side cancels in R, and R in L (R103,
R104). -/
theorem leftRight_midSide (left right : Int) :
    leftRight (pairLo (midSide left right)) (pairHi (midSide left right)) = packPair right left := by
  rw [midSide_eq, pairLo_packPair, pairHi_packPair, leftRight_eq]
  have hright : ∀ half, bits16 (wrap16 (right + half) - half) = bits16 right := fun half => by
    rw [bits16_sub, bits16_wrap16, ← bits16_sub, add_sub_cancel_right]
  refine packPair_congr (hright _) ?_
  rw [bits16_add, hright, bits16_wrap16, ← bits16_add, add_sub_cancel]

/-- Settles O45: MSINV finds in RES the pair that MSFWD left there, and undoes it (`leftRight_midSide`). -/
theorem midSideRoundTrip : Obligations.MidSideRoundTrip := fun _ _ hs hms =>
  ⟨_, exec_msfwd hs hms rfl, exec_msinv hs hms ((leftRight_midSide _ _).trans (packPair_pairHi_pairLo _))⟩

end Sys2Proof.Machine
end

section
/-! The image predictor (43_image_predictor.md): the predictions and their ranges (O50, O47), the width (O46), the encoder
and the decoder (O48, O49), and what two machines with agreeing scans share: the lockstep law (O51) and that LB's old
contents do not show (O52). -/

namespace Sys2Proof.Machine

/-! ## The predictions (R106) -/

/-- MED's value lies between its first two arguments, whatever the third. -/
theorem med_between (a b c : Int) : min a b ≤ med a b c ∧ med a b c ≤ max a b := by
  unfold med
  repeat' split
  all_goals omega

/-- Half the difference of two pixels, rounded toward zero (R18). -/
theorem tdiv_two_range {x : Int} (hlo : -255 ≤ x) (hhi : x ≤ 255) : -127 ≤ tdiv x 2 ∧ tdiv x 2 ≤ 127 := by
  rw [tdiv_two]
  split <;> omega

/-- The mean of two pixels is a pixel (R106, mode 7). -/
theorem tdiv_two_mean_range {x : Int} (hlo : 0 ≤ x) (hhi : x ≤ 510) : 0 ≤ tdiv x 2 ∧ tdiv x 2 ≤ 255 := by
  rw [tdiv_two, if_pos hlo]
  omega

/-- R106's modes whose prediction is a pixel again. -/
theorem predict_range_of_pixel_mode {id : Nat} {a b c : Int} (hid : id = 1 ∨ id = 2 ∨ id = 3 ∨ id = 7 ∨ id = 8)
    (ha : 0 ≤ a ∧ a ≤ 255) (hb : 0 ≤ b ∧ b ≤ 255) (hc : 0 ≤ c ∧ c ≤ 255) :
    0 ≤ predict id a b c ∧ predict id a b c ≤ 255 := by
  rcases hid with rfl | rfl | rfl | rfl | rfl
  · exact ha
  · exact hb
  · exact hc
  · exact tdiv_two_mean_range (by omega) (by omega)
  · have hmed := med_between a b c
    show 0 ≤ med a b c ∧ med a b c ≤ 255
    omega

/-- R106's modes that add half a difference to a pixel. -/
theorem predict_range_of_half_mode {id : Nat} {a b c : Int} (hid : id = 5 ∨ id = 6)
    (ha : 0 ≤ a ∧ a ≤ 255) (hb : 0 ≤ b ∧ b ≤ 255) (hc : 0 ≤ c ∧ c ≤ 255) :
    -127 ≤ predict id a b c ∧ predict id a b c ≤ 382 := by
  rcases hid with rfl | rfl
  · have hhalf : -127 ≤ tdiv (b - c) 2 ∧ tdiv (b - c) 2 ≤ 127 := tdiv_two_range (by omega) (by omega)
    show -127 ≤ a + tdiv (b - c) 2 ∧ a + tdiv (b - c) 2 ≤ 382
    omega
  · have hhalf : -127 ≤ tdiv (a - c) 2 ∧ tdiv (a - c) 2 ≤ 127 := tdiv_two_range (by omega) (by omega)
    show -127 ≤ b + tdiv (a - c) 2 ∧ b + tdiv (a - c) 2 ≤ 382
    omega

/-- Settles O50, by the kinds of R106's modes; a residual's range is the prediction's, taken from a pixel. -/
theorem residualsLieInTheirRanges : Obligations.ResidualsLieInTheirRanges := by
  intro id a b c p _ ha0 ha hb0 hb hc0 hc hp0 hp
  refine ⟨fun hid => ?zero, fun hid => ?pixel, fun hid => ?plane, fun hid => ?half⟩
  case zero =>
    have hpred : predict id a b c = 0 := by rw [hid]; rfl
    omega
  case pixel =>
    have hrange := predict_range_of_pixel_mode hid ⟨ha0, ha⟩ ⟨hb0, hb⟩ ⟨hc0, hc⟩
    omega
  case plane =>
    have hpred : predict id a b c = a + b - c := by rw [hid]; rfl
    omega
  case half =>
    have hrange := predict_range_of_half_mode hid ⟨ha0, ha⟩ ⟨hb0, hb⟩ ⟨hc0, hc⟩
    omega

/-- R65: the three pixels of a packed operand. -/
theorem toNat_asPixels (x : Word64) :
    (asPixels x).1.toNat = x.toNat % 256 ∧ (asPixels x).2.1.toNat = x.toNat / 256 % 256 ∧
      (asPixels x).2.2.toNat = x.toNat / 65536 % 256 := by
  simp [asPixels, Nat.shiftRight_eq_div_pow]

/-- RES holds the prediction of every mode in the table (R111). -/
theorem toInt_bits64_predictPixels {id : BitVec 4} (n : Byte × Byte × Byte) (h : id.toNat ≤ 8) :
    (bits64 (predictPixels id n)).toInt = predictPixels id n := by
  obtain ⟨hlo, hhi⟩ := predict_range id.toNat n.1 n.2.1 n.2.2 h
  exact toInt_bits64 _ (Int.le_trans (by decide) hlo) (Int.lt_of_le_of_lt hhi (by decide))

theorem exec_ipred {s : State} (r : OperandSource) (hs : s.err = 0) :
    exec (.ipred r) s = .next { s with res := bits64 (predictPixels s.ipid (asPixels (s.operand r))) } := by
  simp only [exec, execIpred, runCommand_done hs]

/-- Settles O47: RES is the prediction of the operand's pixels, which each mode's row of R106 gives. -/
theorem ipredGivesThePrediction : Obligations.IpredGivesThePrediction := by
  refine ⟨decode_of_row 25 (by decide), fun s r a b c hs hid ha hb hc => ?_⟩
  obtain ⟨hfirst, hsecond, hthird⟩ := toNat_asPixels (s.operand r)
  have mode : ∀ k : BitVec 4, s.ipid = k →
      (bits64 (predictPixels s.ipid (asPixels (s.operand r)))).toInt = predict k.toNat a b c := by
    rintro k rfl
    rw [toInt_bits64_predictPixels _ hid, predictPixels, hfirst, hsecond, hthird, ha, hb, hc]
  exact ⟨_, exec_ipred r hs, mode 0, mode 1, mode 2, mode 3, mode 4, mode 5, mode 6, mode 7, mode 8⟩

/-! ## The width (R110) -/

/-- `s` with an image of width `n` begun at (0, 0) (R110). -/
def State.startedImage (s : State) (n : Nat) : State := { s with iw := BitVec.ofNat 32 n, ix := 0, iy := 0, cul := 0 }

theorem State.toNat_startedImage_iw (s : State) {n : Nat} (hn : n < 2 ^ 32) : (s.startedImage n).iw.toNat = n :=
  toNat_ofNat_of_lt hn

theorem State.startedImage_iw_ne_zero (s : State) {n : Nat} (h0 : n ≠ 0) (hn : n < 2 ^ 32) : (s.startedImage n).iw ≠ 0 :=
  ofNat_ne_zero h0 hn

/-- R12. -/
theorem imgMaxW_lt_of_legal {p : Config.Params} (hp : p.legal = true) : p.imgMaxW < 2 ^ 32 := by
  simp only [Config.Params.legal, Config.inRange32, Bool.and_eq_true, decide_eq_true_eq] at hp
  obtain ⟨-, -, hmax⟩ := hp
  omega

theorem exec_isetw {s : State} {r : OperandSource} (hs : s.err = 0) (h1 : 1 ≤ (s.operand r).toNat)
    (hmax : (s.operand r).toNat ≤ s.params.imgMaxW) :
    exec (.isetw r) s = .next (s.startedImage (s.operand r).toNat) := by
  have hwidth : ¬ ((s.operand r).toNat = 0 ∨ (s.operand r).toNat > s.params.imgMaxW) := by omega
  simp only [exec, execIsetw, if_neg hwidth, runCommand_done hs, State.startedImage]

/-- Settles O46: R12 keeps IMG_MAX_W below 2^32, so that IW holds the width and is not 0. -/
theorem isetwStartsAnImage : Obligations.IsetwStartsAnImage := by
  refine ⟨decode_of_row 24 (by decide), fun s r hs hp => ⟨fun hx => ?refused, fun h1 hmax => ?started⟩⟩
  case refused => exact runCommand_refused hs hx
  case started =>
    have hlt : (s.operand r).toNat < 2 ^ 32 := Nat.lt_of_le_of_lt hmax (imgMaxW_lt_of_legal hp)
    exact ⟨_, exec_isetw hs h1 hmax, rfl, s.toNat_startedImage_iw hlt,
      bne_iff_ne.mpr (s.startedImage_iw_ne_zero (Nat.ne_of_gt h1) hlt)⟩

/-! ## The encoder and the decoder (R112, R113) -/

/-- The range of R106, at the scan position. -/
theorem State.scanPrediction_range {s : State} (h : s.ipid.toNat ≤ 8) :
    -255 ≤ s.scanPrediction ∧ s.scanPrediction ≤ 510 :=
  predict_range s.ipid.toNat s.neighbours.1 s.neighbours.2.1 s.neighbours.2.2 h

/-- RES holds the residual of every pixel (R112). -/
theorem toInt_bits64_pixelResidual {s : State} {x : Nat} (hid : s.ipid.toNat ≤ 8) (hx : x ≤ 255) :
    (bits64 (x - s.scanPrediction)).toInt = x - s.scanPrediction := by
  obtain ⟨hlo, hhi⟩ := s.scanPrediction_range hid
  exact toInt_bits64 _ (by omega) (by omega)

theorem exec_ienc {s : State} {r : OperandSource} (hs : s.err = 0) (hiw : s.iw ≠ 0) (hx : (s.operand r).toNat ≤ 255) :
    exec (.ienc r) s = .next
      { s.advance (BitVec.ofNat 8 (s.operand r).toNat) with
        res := bits64 ((s.operand r).toNat - s.scanPrediction) } := by
  simp only [exec, execIenc, if_neg hiw, if_neg (Nat.not_lt.mpr hx), runCommand_done hs]

theorem exec_ienc_refused {s : State} {r : OperandSource} (hs : s.err = 0) (h : s.iw = 0 ∨ 255 < (s.operand r).toNat) :
    exec (.ienc r) s = .next (s.latch .invalidParameter (encode (.ienc r))) := by
  by_cases hiw : s.iw = 0
  · exact runCommand_refused hs hiw
  · have hbig : (s.operand r).toNat > 255 := h.resolve_left hiw
    simp only [exec, execIenc, if_neg hiw, if_pos hbig, runCommand_raised hs]

/-- The pixel that IDEC reconstructs (R113). -/
def State.reconstructedPixel (s : State) (r : OperandSource) : Nat :=
  (clampInt 0 255 (s.scanPrediction + (s.operand r).toInt)).toNat

theorem State.reconstructedPixel_eq (s : State) (r : OperandSource) :
    (s.reconstructedPixel r : Int) = max 0 (min 255 (s.scanPrediction + (s.operand r).toInt)) := by
  rw [State.reconstructedPixel, clampInt_eq _ _ _ (by decide)]
  omega

theorem exec_idec {s : State} (r : OperandSource) (hs : s.err = 0) (hiw : s.iw ≠ 0) :
    exec (.idec r) s = .next
      { s.advance (BitVec.ofNat 8 (s.reconstructedPixel r)) with res := BitVec.ofNat 64 (s.reconstructedPixel r) } := by
  simp only [exec, execIdec, if_neg hiw, runCommand_done hs, State.reconstructedPixel]

/-- Settles O48: R112's endings, and IAdvance as `advance_movedOn` says it. -/
theorem iencGivesTheResidual : Obligations.IencGivesTheResidual := by
  refine ⟨decode_of_row 26 (by decide), fun s r hs => ⟨exec_ienc_refused hs, ?encoded⟩⟩
  case encoded =>
    rintro a b c hiw hx hid hix rfl rfl rfl
    exact ⟨_, exec_ienc hs hiw hx, toInt_bits64_pixelResidual hid hx, advance_movedOn s _ _ hix⟩

/-- Settles O49: R113's endings; RES holds the clamped sum, a pixel, and IAdvance stores it (`advance_movedOn`). -/
theorem idecReconstructsThePixel : Obligations.IdecReconstructsThePixel := by
  refine ⟨decode_of_row 27 (by decide), fun s r hs => ⟨fun hiw => runCommand_refused hs hiw, ?decoded⟩⟩
  case decoded =>
    rintro a b c hiw - hix rfl rfl rfl
    have hpixel := s.reconstructedPixel_eq r
    have hres : (BitVec.ofNat 64 (s.reconstructedPixel r)).toNat = s.reconstructedPixel r :=
      toNat_ofNat_of_lt (by omega)
    refine ⟨_, exec_idec r hs hiw, ?_, ?_⟩ <;> dsimp only <;> rw [hres]
    · exact hpixel
    · exact advance_movedOn s _ _ hix

/-! ## Machines whose scans agree -/

theorem State.scanAgrees_iw_ne_zero {s t : State} (h : s.scanAgrees t) (hiw : s.iw ≠ 0) : t.iw ≠ 0 := by
  obtain ⟨-, hwidth, -⟩ := h
  rwa [← hwidth]

/-- The residual of a pixel, added back to the same prediction, gives the pixel; the clamp does nothing (R112, R113). -/
theorem State.reconstructedPixel_of_residual {e d : State} {r : OperandSource} {x : Nat} (hid : e.ipid.toNat ≤ 8)
    (hx : x ≤ 255) (hpred : d.scanPrediction = e.scanPrediction)
    (hres : d.operand r = bits64 (x - e.scanPrediction)) : d.reconstructedPixel r = x := by
  have hsum := d.reconstructedPixel_eq r
  rw [hres, toInt_bits64_pixelResidual hid hx, hpred] at hsum
  omega

/-- Settles O51: agreeing scans predict the same, so the decoder reconstructs the pixel
(`State.reconstructedPixel_of_residual`), and scans that move on by the same pixel agree again. -/
theorem imageEncoderAndDecoderStayInStep : Obligations.ImageEncoderAndDecoderStayInStep := by
  intro e d r r' he hd hagree hiw hix hid hx
  obtain ⟨-, hin⟩ := scanAgrees_advance e d (BitVec.ofNat 8 (e.operand r).toNat) 0 0 hagree hix
  refine ⟨_, exec_ienc he hiw hx, he, rfl, rfl, hin, fun hres => ?decoded⟩
  case decoded =>
    have hpixel : d.reconstructedPixel r' = (e.operand r).toNat :=
      State.reconstructedPixel_of_residual hid hx (scanPrediction_of_scanAgrees e d hagree hix) hres
    have hdec := exec_idec r' hd (State.scanAgrees_iw_ne_zero hagree hiw)
    rw [hpixel] at hdec
    obtain ⟨hagree', -⟩ := scanAgrees_advance e d _ _ _ hagree hix
    have hword : BitVec.ofNat 64 (e.operand r).toNat = e.operand r := by rw [BitVec.ofNat_toNat, BitVec.setWidth_eq]
    exact ⟨_, hdec, hd, hword, hagree'⟩

/-- At the first pixel of an image Nbr reads nothing of LB (R107). -/
theorem State.scanAgrees_startedImage {s t : State} (n : Nat) (h : s.ipid = t.ipid) :
    (s.startedImage n).scanAgrees (t.startedImage n) :=
  ⟨h, rfl, rfl, rfl, rfl, fun _ hx => absurd hx (Nat.not_lt_zero _), fun hy => absurd hy (Nat.lt_irrefl 0)⟩

/-- Agreeing scans and equal residuals give the same pixel (R113). -/
theorem State.reconstructedPixel_congr {s t : State} {r r' : OperandSource} (h : s.scanAgrees t)
    (hix : s.ix.toNat < s.iw.toNat) (hx : s.operand r = t.operand r') :
    t.reconstructedPixel r' = s.reconstructedPixel r := by
  rw [State.reconstructedPixel, State.reconstructedPixel, scanPrediction_of_scanAgrees s t h hix, hx]

/-- Settles O52: ISETW's scans agree (`State.scanAgrees_startedImage`); agreeing scans predict the same, so both machines
put the same value in RES and move on by the same pixel. -/
theorem lineBufferResetContentsAreUnobservable : Obligations.LineBufferResetContentsAreUnobservable := by
  refine ⟨fun s t r r' hs ht hid hx hp hcap h1 hmax => ?width,
    fun s t r r' hs ht hagree hx hiw hix => ⟨?decoded, fun hpixel => ?encoded⟩⟩
  case width =>
    have hlt : (s.operand r).toNat < 2 ^ 32 := Nat.lt_of_le_of_lt hmax (imgMaxW_lt_of_legal hp)
    have hset : exec (.isetw r') t = .next (t.startedImage (s.operand r).toNat) := by
      rw [hx] at h1 hmax ⊢
      exact exec_isetw ht h1 (hcap ▸ hmax)
    refine ⟨_, _, exec_isetw hs h1 hmax, hset, hs, ht, State.scanAgrees_startedImage _ hid,
      s.startedImage_iw_ne_zero (Nat.ne_of_gt h1) hlt, ?_⟩
    rw [s.toNat_startedImage_iw hlt]
    exact h1
  case decoded =>
    have hdec := exec_idec r' ht (State.scanAgrees_iw_ne_zero hagree hiw)
    rw [State.reconstructedPixel_congr hagree hix hx] at hdec
    obtain ⟨hagree', hin⟩ := scanAgrees_advance s t _ _ _ hagree hix
    exact ⟨_, _, exec_idec r hs hiw, hdec, hs, ht, rfl, hagree', rfl, hin⟩
  case encoded =>
    have henc := exec_ienc ht (State.scanAgrees_iw_ne_zero hagree hiw) (hx ▸ hpixel)
    rw [← hx, scanPrediction_of_scanAgrees s t hagree hix] at henc
    obtain ⟨hagree', hin⟩ := scanAgrees_advance s t _ _ _ hagree hix
    exact ⟨_, _, exec_ienc hs hiw hpixel, henc, hs, ht, rfl, hagree', rfl, hin⟩

end Sys2Proof.Machine
end

section
/-! The block parameter (44_block_param.md): MCLR and MACC (O53), MCALC (O54), and R119's laws, which are facts about the
set that R115 takes the least of: it shrinks as S grows (O55), and it is all m from RCG's logarithm on (O56). -/

namespace Sys2Proof.Machine

/-! ## The accumulators -/

/-- `s` with the sum and the count of the operand's residual added (R117). -/
def State.accumulated (s : State) (r : OperandSource) : State :=
  { s with
    msum := BitVec.ofNat 64 (s.msum.toNat + (s.operand r).toInt.natAbs)
    mcnt := BitVec.ofNat 32 (s.mcnt.toNat + 1) }

theorem exec_mclr {s : State} (hs : s.err = 0) : exec .mclr s = .next { s with msum := 0, mcnt := 0 } := by
  simp only [exec, execMclr, runCommand_done hs]

theorem exec_macc {s : State} (r : OperandSource) (hs : s.err = 0) : exec (.macc r) s = .next (s.accumulated r) := by
  simp only [exec, execMacc, runCommand_done hs, State.accumulated]

/-- Settles O53: each rule has one ending, and a register of w bits holds its new value modulo 2^w. -/
theorem mclrAndMaccAccumulate : Obligations.MclrAndMaccAccumulate :=
  ⟨decode_of_encode_eq (by decide), decode_of_row 29 (by decide), fun s r hs =>
    ⟨exec_mclr hs, s.accumulated r, exec_macc r hs, rfl, BitVec.toNat_ofNat _ _, BitVec.toNat_ofNat _ _⟩⟩

/-! ## R115's criterion -/

/-- The m that meet R115's criterion for (S, N). -/
def criterionSet (S N : Nat) : Set Nat := {m | 1 ≤ m ∧ 2 * S ^ m ≤ (S + N) ^ m}

theorem mem_criterionSet (S N m : Nat) : m ∈ criterionSet S N ↔ 1 ≤ m ∧ 2 * S ^ m ≤ (S + N) ^ m := Iff.rfl

/-- R115 for a block with no residuals. -/
theorem isBlockParameter_of_empty (rounding : Config.MeanRounding) (S m : Nat) :
    isBlockParameter rounding S 0 m ↔ m = 1 := by
  simp only [isBlockParameter, if_true]

theorem mem_lowerBounds_criterionSet (S N m : Nat) :
    m ∈ lowerBounds (criterionSet S N) ↔ ∀ k, 1 ≤ k → k < m → (S + N) ^ k < 2 * S ^ k :=
  ⟨fun h _ h1 hlt => not_le.mp fun hk => absurd (h ⟨h1, hk⟩) (not_le.mpr hlt),
    fun h _ ⟨h1, hk⟩ => not_lt.mp fun hlt => absurd hk (not_le.mpr (h _ h1 hlt))⟩

/-- R115 for a block with residuals. -/
theorem isBlockParameter_iff_isLeast (rounding : Config.MeanRounding) (S m : Nat) {N : Nat} (hN : N ≠ 0) :
    isBlockParameter rounding S N m ↔
      IsLeast (criterionSet (meanPair rounding S N).1 (meanPair rounding S N).2) m := by
  simp only [isBlockParameter, if_neg hN, IsLeast, mem_criterionSet, mem_lowerBounds_criterionSet, and_assoc]

/-- MEAN_ROUNDING keeps a block with residuals one with residuals (R115). -/
theorem one_le_meanPair_snd (rounding : Config.MeanRounding) (S : Nat) {N : Nat} (hN : N ≠ 0) :
    1 ≤ (meanPair rounding S N).2 := by
  cases rounding with
  | exact => exact Nat.one_le_iff_ne_zero.mpr hN
  | floor => exact Nat.le_refl 1

/-- R115: the least m exists. -/
theorem exists_isBlockParameter (rounding : Config.MeanRounding) (S N : Nat) : ∃ m, isBlockParameter rounding S N m := by
  by_cases hN : N = 0
  · subst hN
    exact ⟨1, (isBlockParameter_of_empty rounding S 1).mpr rfl⟩
  · have hne := criterion_met (meanPair rounding S N).1 _ (one_le_meanPair_snd rounding S hN)
    exact ⟨_, (isBlockParameter_iff_isLeast rounding S _ hN).mpr (isLeast_csInf hne)⟩

/-! ## The search -/

/-- The search from 1 on stops at the least m of the criterion, or after `fuel` values. -/
theorem searchParameter_of_isLeast {S N m : Nat} (fuel : Nat) (h : IsLeast (criterionSet S N) m) :
    searchParameter S (S + N) fuel 1 S (S + N) = min m (1 + fuel) := by
  obtain ⟨⟨h1, hcrit⟩, hleast⟩ := h
  have hbelow := (mem_lowerBounds_criterionSet S N m).mp hleast
  simpa only [pow_one] using searchParameter_eq_min S (S + N) fuel 1 m hcrit hbelow (Nat.le_refl 1) h1

/-- R115, R118: the search needs the mean's pair only. -/
theorem blockParameter_eq_search (rounding : Config.MeanRounding) (S maxm : Nat) {N : Nat} (hN : N ≠ 0) :
    blockParameter rounding S N maxm =
      searchParameter (meanPair rounding S N).1 ((meanPair rounding S N).1 + (meanPair rounding S N).2) (maxm - 1) 1
        (meanPair rounding S N).1 ((meanPair rounding S N).1 + (meanPair rounding S N).2) := by
  cases rounding <;> simp only [blockParameter, if_neg hN, meanPair]

/-- R118: the clamped search gives min(MRaw(S, N), maxm). -/
theorem blockParameter_eq_min {rounding : Config.MeanRounding} {S N m maxm : Nat} (hm : isBlockParameter rounding S N m)
    (hmax : 1 ≤ maxm) : blockParameter rounding S N maxm = min m maxm := by
  by_cases hN : N = 0
  · subst hN
    rw [(isBlockParameter_of_empty rounding S m).mp hm, Nat.min_eq_left hmax]
    exact if_pos rfl
  · rw [blockParameter_eq_search rounding S maxm hN,
      searchParameter_of_isLeast _ ((isBlockParameter_iff_isLeast rounding S m hN).mp hm), Nat.add_sub_cancel' hmax]

/-! ## MCALC -/

theorem exec_mcalc_refused {s : State} {r : OperandSource} (hs : s.err = 0)
    (h : (s.operand r).toNat = 0 ∨ 2 ^ 32 - 1 < (s.operand r).toNat) :
    exec (.mcalc r) s = .next (s.latch .invalidParameter (encode (.mcalc r))) :=
  runCommand_refused hs h

/-- R118 for a legal maximum. -/
theorem exec_mcalc {s : State} {r : OperandSource} {m : Nat} (hs : s.err = 0) (h1 : 1 ≤ (s.operand r).toNat)
    (hmax : (s.operand r).toNat ≤ 2 ^ 32 - 1)
    (hm : isBlockParameter s.params.meanRounding s.msum.toNat s.mcnt.toNat m) :
    exec (.mcalc r) s = .next { s with res := BitVec.ofNat 64 (min m (s.operand r).toNat) } := by
  have hlegal : ¬ ((s.operand r).toNat = 0 ∨ (s.operand r).toNat > 2 ^ 32 - 1) := by omega
  simp only [exec, execMcalc, if_neg hlegal, runCommand_done hs, blockParameter_eq_min hm h1]

/-- RES holds every clamped parameter. -/
theorem toNat_clamped (m : Nat) (x : Word64) : (BitVec.ofNat 64 (min m x.toNat)).toNat = min m x.toNat :=
  toNat_ofNat_of_lt (Nat.lt_of_le_of_lt (Nat.min_le_right _ _) x.isLt)

/-- Settles O54: the least m exists (`exists_isBlockParameter`), and R118's endings. -/
theorem mcalcGivesTheClampedParameter : Obligations.McalcGivesTheClampedParameter := by
  refine ⟨decode_of_row 30 (by decide), fun s r hs => ⟨exec_mcalc_refused hs, fun h1 hmax => ?clamped⟩⟩
  case clamped =>
    obtain ⟨m, hm⟩ := exists_isBlockParameter s.params.meanRounding s.msum.toNat s.mcnt.toNat
    exact ⟨m, _, hm, exec_mcalc hs h1 hmax hm, toNat_clamped m _⟩

/-! ## Monotonicity in S -/

/-- S / (S + N) grows with S, so an m that meets the criterion for a sum meets it for every smaller one. -/
theorem criterionSet_anti {S S' : Nat} (N : Nat) (h : S ≤ S') : criterionSet S' N ⊆ criterionSet S N := by
  rintro m ⟨h1, hcrit⟩
  refine ⟨h1, ?_⟩
  rcases Nat.eq_zero_or_pos S' with h0 | hpos
  · obtain rfl : S = S' := by omega
    exact hcrit
  have hcross : S * (S' + N) ≤ S' * (S + N) := by nlinarith
  refine Nat.le_of_mul_le_mul_left ?_ (Nat.pow_pos (n := m) hpos)
  calc S' ^ m * (2 * S ^ m) = S ^ m * (2 * S' ^ m) := by ring
    _ ≤ S ^ m * (S' + N) ^ m := Nat.mul_le_mul_left _ hcrit
    _ = (S * (S' + N)) ^ m := (Nat.mul_pow _ _ _).symm
    _ ≤ (S' * (S + N)) ^ m := Nat.pow_le_pow_left hcross m
    _ = S' ^ m * (S + N) ^ m := Nat.mul_pow _ _ _

/-- R119's monotone law. -/
theorem isBlockParameter_mono {rounding : Config.MeanRounding} {S S' N m m' : Nat} (h : S ≤ S')
    (hm : isBlockParameter rounding S N m) (hm' : isBlockParameter rounding S' N m') : m ≤ m' := by
  by_cases hN : N = 0
  · subst hN
    rw [isBlockParameter_of_empty] at hm hm'
    omega
  · rw [isBlockParameter_iff_isLeast _ _ _ hN] at hm hm'
    cases rounding with
    | exact => exact hm'.mono hm (criterionSet_anti N h)
    | floor => exact hm'.mono hm (criterionSet_anti 1 (Nat.div_le_div_right h))

/-- Settles O55: the parameter is monotone (`isBlockParameter_mono`), and so is its minimum with one maximum. -/
theorem blockParameterIsMonotone : Obligations.BlockParameterIsMonotone := by
  refine ⟨fun _ _ _ _ _ _ => isBlockParameter_mono, fun s s' r r' hs hs' hround hcnt hsum hx h1 hmax => ?mcalc⟩
  case mcalc =>
    obtain ⟨m, hm⟩ := exists_isBlockParameter s.params.meanRounding s.msum.toNat s.mcnt.toNat
    obtain ⟨m', hm'⟩ := exists_isBlockParameter s'.params.meanRounding s'.msum.toNat s'.mcnt.toNat
    have hle : m ≤ m' := isBlockParameter_mono hsum hm (by rwa [hround, hcnt])
    refine ⟨_, _, exec_mcalc hs h1 hmax hm, exec_mcalc hs' (hx ▸ h1) (hx ▸ hmax) hm', ?_⟩
    simp only [toNat_clamped, ← hx]
    exact min_le_min_right _ hle

/-! ## The logarithm formula -/

/-- α of RCG's formula, S / (S + N), for the mean S / N (44_block_param.md section 1). -/
noncomputable def meanAlpha (S N : Nat) : ℝ := (S : ℝ) / ((S : ℝ) + (N : ℝ))

theorem meanAlpha_pos {S : Nat} (N : Nat) (hS : 1 ≤ S) : 0 < meanAlpha S N := by
  have : (0 : ℝ) < S := Nat.cast_pos.mpr hS
  unfold meanAlpha
  positivity

theorem logb_meanAlpha_neg {S N : Nat} (hS : 1 ≤ S) (hN : 1 ≤ N) : Real.logb 2 (meanAlpha S N) < 0 := by
  have hS' : (0 : ℝ) < S := Nat.cast_pos.mpr hS
  have hN' : (0 : ℝ) < N := Nat.cast_pos.mpr hN
  have hlt : meanAlpha S N < 1 := (div_lt_one (by positivity)).mpr (by linarith)
  exact Real.logb_neg one_lt_two (meanAlpha_pos N hS) hlt

/-- The criterion, on α. -/
theorem criterion_iff_meanAlpha_pow {S : Nat} (N m : Nat) (hS : 1 ≤ S) :
    2 * S ^ m ≤ (S + N) ^ m ↔ meanAlpha S N ^ m ≤ 2⁻¹ := by
  have hS' : (0 : ℝ) < S := Nat.cast_pos.mpr hS
  have hpow : (0 : ℝ) < (S + N) ^ m := by positivity
  rw [meanAlpha, div_pow, div_le_iff₀ hpow, ← div_eq_inv_mul, le_div_iff₀' two_pos]
  exact_mod_cast Iff.rfl

/-- The criterion, on the logarithm of α: R119's chain of equivalences. -/
theorem criterion_iff_log {S N : Nat} (m : Nat) (hS : 1 ≤ S) (hN : 1 ≤ N) :
    2 * S ^ m ≤ (S + N) ^ m ↔ -1 / Real.logb 2 (meanAlpha S N) ≤ m := by
  have hα := meanAlpha_pos N hS
  calc 2 * S ^ m ≤ (S + N) ^ m
      ↔ meanAlpha S N ^ m ≤ 2⁻¹ := criterion_iff_meanAlpha_pow N m hS
    _ ↔ Real.logb 2 (meanAlpha S N ^ m) ≤ Real.logb 2 2⁻¹ :=
        (Real.logb_le_logb one_lt_two (pow_pos hα m) (by norm_num)).symm
    _ ↔ m * Real.logb 2 (meanAlpha S N) ≤ -1 := by
        rw [Real.logb_pow, Real.logb_inv, Real.logb_self_eq_one one_lt_two]
    _ ↔ -1 / Real.logb 2 (meanAlpha S N) ≤ m := (div_le_iff_of_neg (logb_meanAlpha_neg hS hN)).symm

/-- The m of the criterion are those from ⌈−1 / log₂ α⌉ on, which is at least 1. -/
theorem criterionSet_eq_Ici {S N : Nat} (hS : 1 ≤ S) (hN : 1 ≤ N) :
    criterionSet S N = Set.Ici ⌈-1 / Real.logb 2 (meanAlpha S N)⌉₊ := by
  have hceil : 1 ≤ ⌈-1 / Real.logb 2 (meanAlpha S N)⌉₊ :=
    Nat.ceil_pos.mpr (div_pos_of_neg_of_neg (by norm_num) (logb_meanAlpha_neg hS hN))
  ext m
  calc m ∈ criterionSet S N
      ↔ 1 ≤ m ∧ ⌈-1 / Real.logb 2 (meanAlpha S N)⌉₊ ≤ m := by
        rw [mem_criterionSet, criterion_iff_log m hS hN, Nat.ceil_le]
    _ ↔ ⌈-1 / Real.logb 2 (meanAlpha S N)⌉₊ ≤ m := and_iff_right_of_imp hceil.trans

/-- Settles O56: the least element of `criterionSet_eq_Ici`'s half-line is its end. -/
theorem blockParameterIsTheLogarithmFormula : Obligations.BlockParameterIsTheLogarithmFormula := by
  intro S N m hS hN
  have hnonneg : 0 ≤ -1 / Real.logb 2 (meanAlpha S N) :=
    div_nonneg_of_nonpos (by norm_num) (logb_meanAlpha_neg hS hN).le
  calc isBlockParameter .exact S N m
      ↔ IsLeast (criterionSet S N) m := isBlockParameter_iff_isLeast .exact S m (Nat.ne_of_gt hN)
    _ ↔ m = ⌈-1 / Real.logb 2 (meanAlpha S N)⌉₊ := by
        rw [criterionSet_eq_Ici hS hN]
        exact ⟨fun h => h.unique isLeast_Ici, fun h => h ▸ isLeast_Ici⟩
    _ ↔ (m : Int) = ⌈-1 / Real.logb 2 (meanAlpha S N)⌉ := by
        rw [← Int.natCast_ceil_eq_ceil hnonneg, Int.natCast_inj]

end Sys2Proof.Machine
end

section
/-! The control commands (45_control.md): NOP (O17) and SRST (O18), whose effects do not depend on the latch. -/

namespace Sys2Proof.Machine

/-- R120: NOP's rule has no effect to drop, so it is the same with an error latched and without one. -/
theorem exec_nop (s : State) : exec .nop s = .next s := by
  by_cases hs : s.err = 0
  · simp only [exec, execNop, runCommand_done hs]
  · exact exec_latched .nop s hs (by decide)

/-- Settles O17, by the encoding of NOP and `exec_nop`. -/
theorem nopChangesNothing : Obligations.NopChangesNothing :=
  ⟨decode_of_encode_eq (by decide), exec_nop⟩

/-- R68: opcode 0x01 is in SRST's row only. -/
theorem eq_srst_of_decode {w : Word32} {i : Instr} (hop : opField w = 0x01) (h : decode w = .ok i) : i = .srst := by
  obtain ⟨row, hrow, hmatch, rfl⟩ := match_of_decode w i h
  have hone : row.opcode = 0x01 := (opField_of_match row w hmatch).symm.trans hop
  have hsome : rowOf 0x01 = some row := hone ▸ rowOf_opcode row hrow
  cases hsome
  rfl

/-- R121: the word 1 is the only one with SRST's opcode that is legal, for a word that decodes is its command's encoding. -/
theorem decode_refuses_of_srst_opcode {w : Word32} (hop : opField w = 0x01) (hw : w ≠ 0x00000001) :
    ∃ e, decode w = .error e := by
  cases hdec : decode w with
  | error e => exact ⟨e, rfl⟩
  | ok i =>
    obtain rfl := eq_srst_of_decode hop hdec
    exact absurd (encodeOfDecodeIsTheWord w .srst hdec).symm hw

/-- R121: SRST does not go through `runCommand`, so a latched error does not drop it (R72, R127). -/
theorem exec_srst (s : State) : exec .srst s = .next s.softReset := rfl

/-- R46: the derived flags after SRST, from the reset values of RPOS and ILEN, GM and IW. -/
theorem State.flags_softReset (s : State) :
    s.softReset.reof = true ∧ s.softReset.gmv = false ∧ s.softReset.iwv = false := by
  simp [reof_eq, gmv_eq, iwv_eq]

/-- Settles O18: only the word 1 is SRST (`decode_refuses_of_srst_opcode`), and SRST answers the soft reset, whose every
element outside the stores is R48's reset value. -/
theorem srstResetsTheCore : Obligations.SrstResetsTheCore := by
  refine ⟨decode_of_encode_eq (by decide), fun w => decode_refuses_of_srst_opcode, fun s => ?_⟩
  obtain ⟨hreof, hgmv, hiwv⟩ := s.flags_softReset
  exact ⟨s.softReset, exec_srst s, hreof, hgmv, hiwv, rfl⟩

end Sys2Proof.Machine
end

section
/-! The record of an error (60_exceptions.md): what a failing command leaves (O57), and how long a latched error stays (O9). -/

namespace Sys2Proof.Machine

/-! ## The error codes (R122) -/

/-- R122, R131. -/
theorem ErrorKind.code_mem (e : ErrorKind) : e.code ∈ ([1, 3, 4, 5, 7, 8, 9] : List (BitVec 4)) := by cases e <;> decide

theorem ErrorKind.code_mem_four_five_iff (e : ErrorKind) :
    e.code ∈ ([4, 5] : List (BitVec 4)) ↔ e = .truncatedCode ∨ e = .corruptCode := by cases e <;> decide

/-! ## A failing command -/

/-- R125, R126: the failing command latches its own word, in the state it started from, or in the one drawn for IO from
PutBit, or in the one drawn for TruncatedCode and CorruptCode. -/
theorem exec_failed_cases {i : Instr} {s t : State} (hs : s.err = 0) (h : exec i s = .next t) (ht : t.err ≠ 0) :
    ∃ e u, t = u.latch e (encode i) ∧
      ((u = s ∧ ¬ (e = .truncatedCode ∨ e = .corruptCode)) ∨
       (u = s.drawWriter ∧ e = .io ∧ i ≠ .wclose) ∨
       (u = s.drawCursor ∧ (e = .truncatedCode ∨ e = .corruptCode) ∧ (i = .gdec ∨ i = .gdecs))) := by
  by_cases hsrst : i = .srst
  case pos =>
    subst hsrst
    cases h
    exact absurd s.softReset_err ht
  cases exec_change h hsrst with
  | precise e he =>
    refine ⟨e, s, rfl, .inl ⟨rfl, ?_⟩⟩
    rcases he with rfl | rfl | rfl | ⟨rfl, -⟩ | ⟨rfl, -⟩ <;> decide
  | imprecise hi =>
    refine ⟨.io, s.drawWriter, rfl, .inr (.inl ⟨rfl, rfl, ?_⟩)⟩
    rintro rfl
    simp at hi
  | badCode e he hi => exact ⟨e, s.drawCursor, rfl, .inr (.inr ⟨rfl, he, hi⟩)⟩
  | put l _ _ hput => exact absurd (by rw [putList_frame hput, hs]) ht
  | closedWriter _ _ hclose => exact absurd (by rw [hclose, hs]) ht
  | read x u _ hread => exact absurd (show u.err = 0 by rw [hread.1, hs]) ht
  | same | openedWriter | result | opened | golomb | order | mode | width | cleared | history | pixel | block =>
    exact absurd hs ht

/-- Settles O57, by the three ways a command can fail (`exec_failed_cases`); the two that draw a state have the codes and the
commands that the precise errors do not have. -/
theorem failedCommandsLeaveTheirRecord : Obligations.FailedCommandsLeaveTheirRecord := by
  intro i s t hs h ht
  obtain ⟨e, u, rfl, hfail⟩ := exec_failed_cases hs h ht
  have hresopd : u.res = s.res ∧ u.opd = s.opd := by
    rcases hfail with ⟨rfl, -⟩ | ⟨rfl, -⟩ | ⟨rfl, -⟩ <;> exact ⟨rfl, rfl⟩
  obtain ⟨hres, hopd⟩ := hresopd
  refine ⟨rfl, hres, hopd, e.code_mem, fun hprecise => ?precise, fun hcode => ?badCode⟩
  case precise =>
    rcases hfail with ⟨rfl, -⟩ | ⟨-, rfl, hi⟩ | ⟨-, he, hi⟩
    · rfl
    · exact absurd hprecise (by simp [hi, ErrorKind.code])
    · have hclose : i ≠ .wclose := by rcases hi with rfl | rfl <;> decide
      rcases he with rfl | rfl <;> exact absurd hprecise (by simp [hclose, ErrorKind.code])
  case badCode =>
    have he := e.code_mem_four_five_iff.mp hcode
    rcases hfail with ⟨-, hne⟩ | ⟨-, rfl, -⟩ | ⟨-, -, hi⟩
    · exact absurd he hne
    · exact absurd he (by decide)
    · exact hi

/-! ## A latched error -/

/-- The record of an error, ERR and ERRCMD, is in `t` what it is in `s`. -/
def State.sameRecord (s t : State) : Prop := t.err = s.err ∧ t.errcmd = s.errcmd

theorem State.sameRecord_refl (s : State) : s.sameRecord s := ⟨rfl, rfl⟩

theorem State.sameRecord_writeIbuf (s : State) (i : Nat) (v : Byte) : s.sameRecord (s.writeIbuf i v) := by
  unfold State.writeIbuf
  split <;> exact ⟨rfl, rfl⟩

/-- R127 for a write into the register window: only SRST's word at CMD touches a latched record. -/
theorem writeWindow_latched {bits : Nat} {offset : BitVec 12} {v : Word32} {s t : State} (hs : s.err ≠ 0)
    (h : writeWindow bits offset v s = .next t) :
    s.sameRecord t ∨ (t = s.softReset ∧ HostAction.writeReg bits offset v = cmdWrite 0x00000001) := by
  unfold writeWindow at h
  split at h
  case isFalse => cases h; exact .inl s.sameRecord_refl
  case isTrue haccess =>
    obtain ⟨rfl, -⟩ := (windowAccess_iff bits offset).mp haccess
    split at h
    case isTrue hcmd =>
      subst hcmd
      obtain ⟨hdropped, hsrst⟩ := latchedErrorDropsEveryWordButSrst s v hs
      by_cases hv : v = 0x00000001
      · rw [hsrst hv] at h
        cases h
        exact .inr ⟨rfl, by rw [hv, cmdWrite]⟩
      · rw [hdropped hv] at h
        cases h
        exact .inl s.sameRecord_refl
    case isFalse =>
      split at h
      · cases h; exact .inl ⟨rfl, rfl⟩
      · split at h <;> cases h <;> exact .inl ⟨rfl, rfl⟩

/-- R127: what any action of the host and the platform does to a latched record. -/
theorem act_latched {a : HostAction} {s t : State} (hs : s.err ≠ 0) (h : act a s = .next t) :
    s.sameRecord t ∨ (t.err = 0 ∧ t.errcmd = 0 ∧ (a = cmdWrite 0x00000001 ∨ a = .hardReset)) := by
  cases a with
  | writeReg bits offset v =>
    refine (writeWindow_latched hs h).imp_right ?_
    rintro ⟨rfl, hword⟩
    exact ⟨s.softReset_err, s.softReset_errcmd, .inl hword⟩
  | readReg => cases h; exact .inl ⟨rfl, rfl⟩
  | writeIbuf i v => cases h; exact .inl (s.sameRecord_writeIbuf i.toNat v)
  | readObuf => cases h; exact .inl ⟨rfl, rfl⟩
  | hardReset => cases h; exact .inr ⟨s.hardReset_err, s.hardReset_errcmd, .inr rfl⟩

/-- Settles O9: an idle step changes nothing, and a step on a pending action is that action (`act_latched`). -/
theorem latchedErrorStaysUntilReset : Obligations.LatchedErrorStaysUntilReset := by
  intro s t hs h
  cases hpend : s.pending with
  | nil =>
    rw [step_of_pending_nil hpend] at h
    cases h
    exact .inl s.sameRecord_refl
  | cons a rest =>
    rw [step_of_pending_cons hpend] at h
    refine (act_latched (s := { s with pending := rest }) hs h).imp_right ?_
    rintro ⟨herr, herrcmd, ha⟩
    refine ⟨herr, herrcmd, rest, ?_⟩
    rcases ha with rfl | rfl
    · exact .inl rfl
    · exact .inr rfl

end Sys2Proof.Machine
end

section
/-! Totality (R148, O10). `exec_answers` says it of every command; here it goes from the commands up to the step: a word, a
write into the register window, an action. -/

namespace Sys2Proof.Machine

/-- R69, R72, R127: a word that does not decode has an effect too, the error it latches or its drop. -/
theorem runWord_answers (w : Word32) (s : State) : ∃ t, runWord w s = .next t := by
  cases hdec : decode w with
  | ok i => rw [runWord_of_decode s hdec]; exact exec_answers i s
  | error e =>
    by_cases hs : s.err = 0
    case pos => exact ⟨s.latch .illegalCommand w, by simp [runWord, hdec, State.latched, hs]⟩
    case neg => exact ⟨s, runWord_of_decode_error hs hdec⟩

/-- R44, R45: a write runs a word at CMD, writes OPD at its two halves, and is ignored anywhere else. -/
theorem writeWindow_answers (bits : Nat) (offset : BitVec 12) (v : Word32) (s : State) :
    ∃ t, writeWindow bits offset v s = .next t := by
  unfold writeWindow
  split
  case isFalse => exact ⟨s, rfl⟩
  case isTrue =>
    split
    case isTrue => exact runWord_answers v s
    case isFalse =>
      split
      case isTrue => exact ⟨s.writeOpdLo v, rfl⟩
      case isFalse => split <;> exact ⟨_, rfl⟩

theorem act_answers (a : HostAction) (s : State) : ∃ t, act a s = .next t := by
  cases a with
  | writeReg bits offset v => exact writeWindow_answers bits offset v s
  | readReg bits offset => exact ⟨_, act_readReg bits offset s⟩
  | writeIbuf i v => exact ⟨s.writeIbuf i.toNat v, rfl⟩
  | readObuf i => exact ⟨_, act_readObuf i s⟩
  | hardReset => exact ⟨s.hardReset, rfl⟩

/-- Settles O10: every command answers (`exec_answers`), and a step is idle (R141) or an action, which answers
(`act_answers`). -/
theorem everyCommandAndStepAnswersANextState : Obligations.EveryCommandAndStepAnswersANextState := by
  refine ⟨exec_answers, fun s => ?step⟩
  cases hpend : s.pending with
  | nil => exact ⟨s, step_of_pending_nil hpend⟩
  | cons a rest => rw [step_of_pending_cons hpend]; exact act_answers a { s with pending := rest }

end Sys2Proof.Machine
end
